-- ==== Sys2Proof/Config.lean ====
section
/-! DEFINITION. Config.lean: the implementation parameters of HC1 (00_scope.md R5) at the values
the spec gives them, and the two constant registers' sources (10_state.md R40).
No free value stands here: "every command on every state has one result" (93_implementation_defined.md). -/

namespace Sys2Proof.Config

/-- `SYMW`: bits in a Symbol (R5). -/
abbrev symw : Nat := 8
/-- `NSYM`: number of distinct symbols, `2^SYMW` (R5). -/
abbrev nsym : Nat := 256
/-- `FREQW`: bits in a frequency count (R5, R7). -/
abbrev freqw : Nat := 32
/-- `NFW`: bits in a tree node's frequency (R5, R118). -/
abbrev nfw : Nat := 40
/-- `MAXLEN`: greatest code length held (R5, R119). -/
abbrev maxlen : Nat := 255
/-- `NNODEMAX`: node arena entries, `2*NSYM - 1` (R5). -/
abbrev nnodemax : Nat := 511
/-- `IDXW`: bits in a node index (R5). -/
abbrev idxw : Nat := 9
/-- `CMDW`: bits in a command word (R5). -/
abbrev cmdw : Nat := 32
/-- `RBAW`: readback address width (R5). -/
abbrev rbaw : Nat := 16
/-- `RBDW`: readback data width (R5). -/
abbrev rbdw : Nat := 32
/-- The greatest bit count of one DEC_WORD (R81, R155). -/
abbrev maxWordBits : Nat := 16

/-- The constraints R5 puts on the parameters ("constraint a model must keep"). -/
def constraintsHold : Bool :=
  decide (nsym = 2 ^ symw) && decide (freqw + symw ≤ nfw) && decide (nsym - 1 ≤ maxlen) &&
  decide (nnodemax = 2 * nsym - 1) && decide (nnodemax ≤ 2 ^ idxw)

/-- The identification word, ASCII "HUF1" (R1, R40). -/
abbrev idWord : BitVec 32 := 0x48554631#32

end Sys2Proof.Config
end

