-- ==== Sys2Proof/Word.lean ====
section
/-! DEFINITION. Word.lean: the word types of HC1 (00_scope.md R5, R6, R8, R9; 10_state.md R22).
All integers of this hardware are unsigned (R8). -/

namespace Sys2Proof

/-- A command word or a readback word, 32 bits (R80, R60). -/
abbrev Word := BitVec 32

/-- A Symbol, an unsigned 8-bit value (R6); also the `sym` field of a command (R80). -/
abbrev Sym := BitVec 8

/-- The `imm` field of a command, 16 bits (R80). -/
abbrev Imm := BitVec 16

/-- A frequency count `FREQ[s]`, 32 bits (R7, R23). -/
abbrev Freq := BitVec 32

/-- A tree node's frequency, 40 bits (R25, R118). -/
abbrev NodeFreq := BitVec 40

/-- A node index, 9 bits (R25). -/
abbrev NodeIdx := BitVec 9

/-- The vector that holds a code's bits, position `k` holding `b_k` (R9, R29). -/
abbrev CodeBits := BitVec 255

/-- A readback address, 16 bits, naming one 32-bit word (R60). -/
abbrev RbAddr := BitVec 16

/-- A bit sequence `b_0, b_1, ...`: the head is `b_0`, the first in time (R9). -/
abbrev Bits := List Bool

end Sys2Proof
end

