-- ==== Sys2Proof/Syntax.lean ====
section
/-! DEFINITION. Syntax.lean: the commands of HC1, one constructor per row of spec/opcode_table.json
(30_encoding.md R81). Fields are the operands the row leaves free; reserved fields are not here. -/

namespace Sys2Proof

/-- The eighteen commands (R81, R82). -/
inductive Instr where
  /-- NOP (R170) -/
  | nop
  /-- CLRERR (R171) -/
  | clrerr
  /-- CLRALL (R172) -/
  | clrall
  /-- CLRFREQ (R173) -/
  | clrfreq
  /-- CLRCODE (R174) -/
  | clrcode
  /-- FSYM: the symbol (R101) -/
  | fsym (s : Sym)
  /-- LDFREQL: the symbol, the count's bits 15:0 (R102) -/
  | ldfreql (s : Sym) (v : Imm)
  /-- LDFREQH: the symbol, the count's bits 31:16 (R103) -/
  | ldfreqh (s : Sym) (v : Imm)
  /-- BUILD (R110) -/
  | build
  /-- CLRC: the symbol (R130) -/
  | clrc (s : Sym)
  /-- LDCBIT: the symbol, the bit `imm[0]` (R131) -/
  | ldcbit (s : Sym) (b : Bool)
  /-- ENC_BEGIN (R140) -/
  | encBegin
  /-- ENC_SYM: the symbol (R141) -/
  | encSym (s : Sym)
  /-- ENC_END (R142) -/
  | encEnd
  /-- DEC_BEGIN (R150) -/
  | decBegin
  /-- DEC_BIT: the bit `imm[0]` (R154) -/
  | decBit (b : Bool)
  /-- DEC_WORD: the `sym` field, a bit count, and all of `imm`, whose positions at or past the count
  are ignored but are part of the word ERRCMD records (R155, R184) -/
  | decWord (n : Sym) (imm : Imm)
  /-- DEC_END (R156) -/
  | decEnd
  deriving DecidableEq, Repr

end Sys2Proof
end

