-- ==== Sys2Proof/WellFormed.lean ====
section
/-! DEFINITION. WellFormed.lean: which `Instr` terms are commands of HC1. Every operand's type already
holds exactly the values R81 calls legal, but for DEC_WORD's count, which R81 bounds by 16. -/

namespace Sys2Proof

/-- R81, R83: DEC_WORD's count is 0..16 ("values 17..255 are illegal"). -/
def Instr.wellFormed : Instr → Bool
  | .decWord n _ => decide (n.toNat ≤ Config.maxWordBits)
  | .nop => true
  | .clrerr => true
  | .clrall => true
  | .clrfreq => true
  | .clrcode => true
  | .fsym _ => true
  | .ldfreql _ _ => true
  | .ldfreqh _ _ => true
  | .build => true
  | .clrc _ => true
  | .ldcbit _ _ => true
  | .encBegin => true
  | .encSym _ => true
  | .encEnd => true
  | .decBegin => true
  | .decBit _ => true
  | .decEnd => true

end Sys2Proof
end

