-- ==== Sys2Proof/Decode.lean ====
section
/-! DEFINITION. Decode.lean: the decoder of command words by mask and match (30_encoding.md R80, R83,
R85), total and rejecting by name, and after it the encoder (R81). -/

namespace Sys2Proof

/-- The field `op`, bits 31:24 (R80). -/
def opField (w : Word) : BitVec 8 := w.extractLsb' 24 8

/-- The field `sym`, bits 23:16 (R80). -/
def symField (w : Word) : Sym := w.extractLsb' 16 8

/-- The field `imm`, bits 15:0 (R80). -/
def immField (w : Word) : Imm := w.extractLsb' 0 16

/-- Why a word spells no command: the three cases of R85. -/
inductive Reject where
  /-- an unassigned `op` -/
  | unassignedOp
  /-- an assigned `op` with a nonzero bit in a reserved field -/
  | reservedField
  /-- DEC_WORD with `n > 16` -/
  | badCount
  deriving DecidableEq, Repr

/-- What the decoder answers: the command a word spells, or why it spells none. -/
inductive Decoded where
  | command (i : Instr)
  | illegal (why : Reject)
  deriving DecidableEq, Repr

/-- One row of the table of R83: the mask, the match, and the command its `sym` and `imm` fields make. -/
structure Row where
  mask : Word
  pat : Word
  make : Sym → Imm → Instr

/-- The table of R83, in its order. The bit operand is `imm[0]` (R87). -/
def rows : List Row :=
  [ { mask := 0xFFFFFFFF#32, pat := 0x00000000#32, make := fun _ _ => .nop },
    { mask := 0xFFFFFFFF#32, pat := 0x01000000#32, make := fun _ _ => .clrerr },
    { mask := 0xFFFFFFFF#32, pat := 0x02000000#32, make := fun _ _ => .clrall },
    { mask := 0xFFFFFFFF#32, pat := 0x03000000#32, make := fun _ _ => .clrfreq },
    { mask := 0xFFFFFFFF#32, pat := 0x04000000#32, make := fun _ _ => .clrcode },
    { mask := 0xFF00FFFF#32, pat := 0x10000000#32, make := fun s _ => .fsym s },
    { mask := 0xFF000000#32, pat := 0x11000000#32, make := fun s v => .ldfreql s v },
    { mask := 0xFF000000#32, pat := 0x12000000#32, make := fun s v => .ldfreqh s v },
    { mask := 0xFFFFFFFF#32, pat := 0x20000000#32, make := fun _ _ => .build } ] ++
  [ { mask := 0xFF00FFFF#32, pat := 0x30000000#32, make := fun s _ => .clrc s },
    { mask := 0xFF00FFFE#32, pat := 0x31000000#32, make := fun s v => .ldcbit s (v.getLsbD 0) },
    { mask := 0xFFFFFFFF#32, pat := 0x40000000#32, make := fun _ _ => .encBegin },
    { mask := 0xFF00FFFF#32, pat := 0x41000000#32, make := fun s _ => .encSym s },
    { mask := 0xFFFFFFFF#32, pat := 0x42000000#32, make := fun _ _ => .encEnd },
    { mask := 0xFFFFFFFF#32, pat := 0x50000000#32, make := fun _ _ => .decBegin },
    { mask := 0xFFFFFFFE#32, pat := 0x51000000#32, make := fun _ v => .decBit (v.getLsbD 0) },
    { mask := 0xFFE00000#32, pat := 0x52000000#32, make := fun n v => .decWord n v },
    { mask := 0xFFFFFFFF#32, pat := 0x53000000#32, make := fun _ _ => .decEnd } ]

/-- The command a row makes of a word's own fields. -/
def rowCommand (r : Row) (w : Word) : Instr := r.make (symField w) (immField w)

/-- R83: `w` spells the row's command exactly when `(w AND mask) = match` and, for DEC_WORD only,
`w[23:16] <= 16`, which is the command's well-formedness. -/
def spells (r : Row) (w : Word) : Bool :=
  (w &&& r.mask) == r.pat && (rowCommand r w).wellFormed

/-- R82: the eighteen assigned opcodes. -/
def assignedOps : List (BitVec 8) := rows.map fun r => opField r.pat

/-- Which of R85's three cases a word that spells no command is. -/
def whyIllegal (w : Word) : Reject :=
  if opField w ∈ assignedOps then
    if opField w = 0x52#8 then .badCount else .reservedField
  else .unassignedOp

/-- R83: the one decoder, total on words; a word no row matches is illegal (R85). -/
def decode (w : Word) : Decoded :=
  match rows.find? fun r => spells r w with
  | some r => .command (rowCommand r w)
  | none => .illegal (whyIllegal w)

/-- The command a decoded word holds, if it holds one. -/
def commandOf : Decoded → Option Instr
  | .command i => some i
  | .illegal _ => none

/-- The command word whose low `nbits` bits are given and whose bits above are 0. HC1's commands are one
32-bit word each and have no bytes, so nothing else is laid out (R64, R80). -/
def tableWord (nbits w : Nat) : Word := BitVec.ofNat 32 (w % 2 ^ nbits)

/-- The host's entry to the decoder. -/
def decodeTableWord (nbits w : Nat) : Option Instr := commandOf (decode (tableWord nbits w))

/-! ## The encoder (R80, R81) -/

/-- A command word from its three fields, `op` most significant (R80). -/
def mkWord (op : BitVec 8) (sym : Sym) (imm : Imm) : Word := op ++ sym ++ imm

/-- An `imm` field that holds one bit in `imm[0]` and zeros above (R81). -/
def bitImm (b : Bool) : Imm := if b then 1#16 else 0#16

/-- R81: the opcode of a command. -/
def opcode : Instr → BitVec 8
  | .nop => 0x00#8
  | .clrerr => 0x01#8
  | .clrall => 0x02#8
  | .clrfreq => 0x03#8
  | .clrcode => 0x04#8
  | .fsym _ => 0x10#8
  | .ldfreql _ _ => 0x11#8
  | .ldfreqh _ _ => 0x12#8
  | .build => 0x20#8
  | .clrc _ => 0x30#8
  | .ldcbit _ _ => 0x31#8
  | .encBegin => 0x40#8
  | .encSym _ => 0x41#8
  | .encEnd => 0x42#8
  | .decBegin => 0x50#8
  | .decBit _ => 0x51#8
  | .decWord _ _ => 0x52#8
  | .decEnd => 0x53#8

/-- R81: the `sym` field of a command, 0 where it is reserved. -/
def symOperand : Instr → Sym
  | .fsym s => s
  | .ldfreql s _ => s
  | .ldfreqh s _ => s
  | .clrc s => s
  | .ldcbit s _ => s
  | .encSym s => s
  | .decWord n _ => n
  | .nop => 0#8
  | .clrerr => 0#8
  | .clrall => 0#8
  | .clrfreq => 0#8
  | .clrcode => 0#8
  | .build => 0#8
  | .encBegin => 0#8
  | .encEnd => 0#8
  | .decBegin => 0#8
  | .decBit _ => 0#8
  | .decEnd => 0#8

/-- R81: the `imm` field of a command, 0 where it is reserved. -/
def immOperand : Instr → Imm
  | .ldfreql _ v => v
  | .ldfreqh _ v => v
  | .ldcbit _ b => bitImm b
  | .decBit b => bitImm b
  | .decWord _ v => v
  | .nop => 0#16
  | .clrerr => 0#16
  | .clrall => 0#16
  | .clrfreq => 0#16
  | .clrcode => 0#16
  | .fsym _ => 0#16
  | .build => 0#16
  | .clrc _ => 0#16
  | .encBegin => 0#16
  | .encSym _ => 0#16
  | .encEnd => 0#16
  | .decBegin => 0#16
  | .decEnd => 0#16

/-- The word of a command (R81, R101 to R174 under "Encoding"). -/
def encode (i : Instr) : Word := mkWord (opcode i) (symOperand i) (immOperand i)

end Sys2Proof
end

