-- ==== Sys2Proof/Machine/State.lean ====
section
/-! DEFINITION. Machine/State.lean: the architectural state of HC1 as plain data (10_state.md R22) and
the state right after reset (R43). The host's `Fault` and `Refusal` are the ways a STEP could stop; the
seven faults of the SPEC are `Cause`, and taking one is a next state (60_exceptions.md R184). -/

namespace Sys2Proof.Machine

/-- A code or the candidate buffer, `{len, bits}`: bit `b_k` of the sequence at position `k` (R29, R31). -/
structure Code where
  len : BitVec 8
  bits : CodeBits
  deriving DecidableEq, Repr

/-- One entry of the node arena (R25). -/
structure Node where
  valid : Bool
  leaf : Bool
  inq : Bool
  sym : Sym
  freq : NodeFreq
  left : NodeIdx
  right : NodeIdx
  deriving DecidableEq, Repr

/-- The root reference; `v = false` is "no tree" (R27). -/
structure Root where
  v : Bool
  idx : NodeIdx
  deriving DecidableEq, Repr

/-- Which operation is open (R32); the value 3 of the 2-bit field never occurs. -/
inductive Phase where
  | idle
  | enc
  | dec
  deriving DecidableEq, Repr

/-- A token of the bit-output channel (R37). -/
inductive BTok where
  | b0
  | b1
  | eof
  | abt
  deriving DecidableEq, Repr

/-- A token of the symbol-output channel (R38). -/
inductive STok where
  | sym (s : Sym)
  | eof
  | abt
  deriving DecidableEq, Repr

/-- The seven synchronous faults of the spec (60_exceptions.md R180). -/
inductive Cause where
  | illegalCommand
  | badPhase
  | unknownSymbol
  | truncatedCode
  | freqOverflow
  | codeOverflow
  | ambiguousCode
  deriving DecidableEq, Repr

/-- Ways the machine stops with a fault: none. Every fault of the spec is taken (`raise`, R184) and leaves a
next state, and no command on any state is without a result, so no definition raises one. Safe. -/
inductive Fault where
  deriving DecidableEq, Repr

/-- Ways a step can refuse. -/
inductive Refusal where
  /-- Raised only by an arm of `exec` whose instruction has no meaning yet. No arm is left so. Safe. -/
  | notModelled (mnemonic : String)
  deriving DecidableEq, Repr

/-- The state: the elements of R22 in that table's order, then the model's own `port`. -/
structure State where
  /-- `FREQ[s]` (R23) -/
  freq : Vector Freq 256
  /-- `NODE[i]` (R25) -/
  node : Vector Node 511
  /-- `ROOT` (R27) -/
  root : Root
  /-- `NLEAF` (R28) -/
  nleaf : BitVec 9
  /-- `NNODE` (R28) -/
  nnode : BitVec 10
  /-- `CODE[s]` (R29) -/
  code : Vector Code 256
  /-- `CBUF` (R31) -/
  cbuf : Code
  /-- `PHASE` (R32) -/
  phase : Phase
  /-- `FAULT` (R33) -/
  fault : Bool
  /-- `ERRCODE` (R33) -/
  errcode : BitVec 8
  /-- `ERRCMD` (R33) -/
  errcmd : Word
  /-- `ERRIDX` (R33) -/
  erridx : Word
  /-- `CMDCNT` (R34) -/
  cmdcnt : Word
  /-- `DONE` (R35) -/
  done : Word
  /-- `BOUT`, every token pushed since reset, oldest first (R37) -/
  bout : List BTok
  /-- `SOUT`, every token pushed since reset, oldest first (R38) -/
  sout : List STok
  /-- DESIGN CHOICE, the model's own field (notes/assumptions/1.md): the command words the host has pushed
  and the core has not consumed, in order (60_exceptions.md R199). -/
  port : List Word
  deriving DecidableEq, Repr

/-- The empty code: length 0, every bit 0 (R29, R30). -/
def Code.empty : Code := { len := 0#8, bits := 0#255 }

/-- An arena entry not in use: every field 0 (R25). -/
def Node.empty : Node :=
  { valid := false, leaf := false, inq := false, sym := 0#8, freq := 0#40, left := 0#9, right := 0#9 }

/-- "No tree": `ROOT = (0, 0)` (R27). -/
def Root.none : Root := { v := false, idx := 0#9 }

/-- The machine right after reset (10_state.md R43; 70_reset_and_hazards.md R210, R211). -/
def State.reset : State where
  freq := Vector.replicate 256 0#32
  node := Vector.replicate 511 Node.empty
  root := Root.none
  nleaf := 0#9
  nnode := 0#10
  code := Vector.replicate 256 Code.empty
  cbuf := Code.empty
  phase := .idle
  fault := false
  errcode := 0#8
  errcmd := 0#32
  erridx := 0#32
  cmdcnt := 0#32
  done := 0#32
  bout := []
  sout := []
  port := []

end Sys2Proof.Machine
end

