-- ==== Sys2Proof/Machine/Ops.lean ====
section
/-! DEFINITION. Machine/Ops.lean: the operations every command shares: the tables' accessors, bit
sequences, the output channels, taking a fault and the return from one (60_exceptions.md R184, R192),
and the common step (30_encoding.md R84). -/

namespace Sys2Proof.Machine

/-- What a command's meaning answers. -/
abbrev Answer := Host.Outcome State Fault Refusal

/-! ## Table accessors (10_state.md R20, R23, R25, R29) -/

/-- `FREQ[sym]`. -/
def freqAt (s : State) (sym : Sym) : Freq := s.freq[sym.toNat]'sym.isLt

/-- `FREQ[sym] <- v`. -/
def setFreq (sym : Sym) (v : Freq) (s : State) : State :=
  { s with freq := s.freq.set sym.toNat v sym.isLt }

/-- `CODE[sym]`. -/
def codeAt (s : State) (sym : Sym) : Code := s.code[sym.toNat]'sym.isLt

/-- `CODE[sym] <- c`. -/
def setCode (sym : Sym) (c : Code) (s : State) : State :=
  { s with code := s.code.set sym.toNat c sym.isLt }

/-- `NODE[i]` in an arena. DESIGN CHOICE: an index past the arena's end (511), which no run reaches, reads
as an entry not in use (notes/assumptions/9.md). -/
def nodeIn (ns : Vector Node 511) (i : Nat) : Node := ns[i]?.getD Node.empty

/-- `NODE[i]`. -/
def nodeAt (s : State) (i : Nat) : Node := nodeIn s.node i

/-- `NODE[i] <- n` in an arena; a write past the end writes nothing (notes/assumptions/9.md). -/
def putNode (ns : Vector Node 511) (i : Nat) (n : Node) : Vector Node 511 := ns.setIfInBounds i n

/-! ## Bit sequences (00_scope.md R9; 10_state.md R29, R30) -/

/-- `v[k] <- b` on a code's vector. -/
def setBit (v : CodeBits) (k : Nat) (b : Bool) : CodeBits :=
  if b then v ||| (1#255 <<< k) else v &&& ~~~(1#255 <<< k)

/-- Append one bit at the first free position, `len` (R131, R152 step 4). -/
def codeSnoc (c : Code) (b : Bool) : Code :=
  { len := c.len + 1#8, bits := setBit c.bits c.len.toNat b }

/-- The bit sequence a code holds, `b_0` first (R9). -/
def codeBits (c : Code) : Bits := (List.range c.len.toNat).map fun k => c.bits.getLsbD k

/-- A bit sequence packed by R9: the first bit least significant. -/
def packBits (bs : Bits) : Code := bs.foldl codeSnoc Code.empty

/-- A code or buffer that holds `MAXLEN` bits (R131, R152 step 3). -/
def codeFull (c : Code) : Bool := c.len == BitVec.ofNat 8 Config.maxlen

/-- No code: length 0 (R29). -/
def codeNone (c : Code) : Bool := c.len == 0#8

/-! ## Output channels (10_state.md R37, R38) -/

/-- `BOUT.push(t)`. -/
def pushB (t : BTok) (s : State) : State := { s with bout := s.bout ++ [t] }

/-- `SOUT.push(t)`. -/
def pushS (t : STok) (s : State) : State := { s with sout := s.sout ++ [t] }

/-- The token of one bit (R37, R141). -/
def bitTok (b : Bool) : BTok := if b then .b1 else .b0

/-! ## Taking a fault, and the return from one -/

/-- The fault codes of R180. -/
def causeCode : Cause → BitVec 8
  | .illegalCommand => 1#8
  | .badPhase => 2#8
  | .unknownSymbol => 3#8
  | .truncatedCode => 4#8
  | .freqOverflow => 5#8
  | .codeOverflow => 6#8
  | .ambiguousCode => 7#8

/-- `raise F(w, idx)` (R184): the record is written, the open frame ends in ABT, the phase is IDLE. -/
def raise (c : Cause) (w idx : Word) (s : State) : State :=
  { s with
    fault := true
    errcode := causeCode c
    errcmd := w
    erridx := idx
    bout := if s.phase = .enc then s.bout ++ [.abt] else s.bout
    sout := if s.phase = .dec then s.sout ++ [.abt] else s.sout
    phase := .idle }

/-- The return from a fault (R171, R192): the record is cleared and nothing is restored. -/
def clearRecord (s : State) : State :=
  { s with fault := false, errcode := 0#8, errcmd := 0#32, erridx := 0#32 }

/-! ## The common step (30_encoding.md R84) -/

/-- R186: the phases a command is legal in. -/
def legalIn (i : Instr) (p : Phase) : Bool :=
  match i with
  | .nop => true
  | .clrerr => true
  | .clrall => p == .idle
  | .clrfreq => p == .idle
  | .clrcode => p == .idle
  | .fsym _ => p == .idle
  | .ldfreql _ _ => p == .idle
  | .ldfreqh _ _ => p == .idle
  | .build => p == .idle
  | .clrc _ => p == .idle
  | .ldcbit _ _ => p == .idle
  | .encBegin => p == .idle
  | .encSym _ => p == .enc
  | .encEnd => p == .enc
  | .decBegin => p == .idle
  | .decBit _ => p == .dec
  | .decWord _ _ => p == .dec
  | .decEnd => p == .dec

/-- R84 step 1: `CMDCNT <- (CMDCNT + 1) mod 2^32` (R34). -/
def countWord (s : State) : State := { s with cmdcnt := s.cmdcnt + 1#32 }

/-- R84 steps 1 and 2 for a word other than CLRERR's: it is counted, and dropped while `FAULT = 1` (R185);
else `body` runs with the word's stream index, the count before the increment (R34). -/
def consume (body : Word → State → State) (s : State) : State :=
  if s.fault then countWord s else body s.cmdcnt (countWord s)

/-- R84 for a word that spells no command: `IllegalCommand` (R85, R181). -/
def consumeIllegal (w : Word) (s : State) : State :=
  consume (fun idx t => raise .illegalCommand w idx t) s

/-- R84 for the word of command `i`, whose own rule is `body` (given the word and its stream index).
A term no word spells (DEC_WORD with a count above 16) is illegal (R85; notes/assumptions/5.md). The word is
the command's encoding (notes/assumptions/4.md). -/
def runCommand (i : Instr) (body : Word → Word → State → State) (s : State) : State :=
  consume (fun idx t =>
    if i.wellFormed then
      if legalIn i t.phase then body (encode i) idx t else raise .badPhase (encode i) idx t
    else raise .illegalCommand (encode i) idx t) s

/-- The next command word and the state without it, if the host has pushed one (R199). -/
def fetch (s : State) : Option (Word × State) :=
  match s.port with
  | [] => none
  | w :: rest => some (w, { s with port := rest })

/-- Between commands the core is idle and keeps all state (R198; notes/assumptions/1.md). -/
def idleStep (s : State) : State := s

/-- A word placed first at the command port. -/
def placeWord (w : Word) (s : State) : State := { s with port := w :: s.port }

end Sys2Proof.Machine
end

