-- ==== Sys2Proof/Machine/CodeTable.lean ====
section
/-! DEFINITION. Machine/CodeTable.lean: CLRC, LDCBIT (42_code_table.md R130, R131), and the properties
of a table that rules of other families turn on (R133). -/

namespace Sys2Proof.Machine

/-- CLRC (R130). -/
def execClrc (sym : Sym) (s : State) : Answer :=
  .next (runCommand (.clrc sym) (fun _ _ t => setCode sym Code.empty t) s)

/-- LDCBIT (R131): append one bit; a code of 255 bits faults instead. -/
def execLdcbit (sym : Sym) (b : Bool) (s : State) : Answer :=
  .next (runCommand (.ldcbit sym b)
    (fun w idx t =>
      if codeFull (codeAt t sym) then raise .codeOverflow w idx t
      else setCode sym (codeSnoc (codeAt t sym) b) t) s)

/-- The code of a symbol as a bit sequence (R9, R29). -/
def codeOf (s : State) (sym : Sym) : Bits := codeBits (codeAt s sym)

/-- Symbol `sym` has a code (R29). -/
def hasCode (s : State) (sym : Sym) : Bool := !codeNone (codeAt s sym)

/-- R133: of two different symbols that both have codes, neither code is a prefix of the other. -/
def PrefixFree (s : State) : Prop :=
  ∀ a b : Sym, a ≠ b → hasCode s a = true → hasCode s b = true → ¬ codeOf s a <+: codeOf s b

/-- R133: two symbols have equal codes. -/
def HasDuplicate (s : State) : Prop :=
  ∃ a b : Sym, a ≠ b ∧ hasCode s a = true ∧ codeAt s a = codeAt s b

end Sys2Proof.Machine
end

