-- ==== Sys2Proof/Machine/Control.lean ====
section
/-! DEFINITION. Machine/Control.lean: NOP, CLRERR, CLRALL, CLRFREQ, CLRCODE (45_control.md R170 to R174). -/

namespace Sys2Proof.Machine

/-- Every `FREQ[s] <- 0` (R172, R173). -/
def clearFreq (s : State) : State := { s with freq := Vector.replicate 256 0#32 }

/-- Every `CODE[s] <- (len=0, bits=0)` (R111, R172, R174). -/
def clearCode (s : State) : State := { s with code := Vector.replicate 256 Code.empty }

/-- Every field of every `NODE[i] <- 0`, `ROOT <- (0, 0)`, `NLEAF <- 0`, `NNODE <- 0` (R111, R172). -/
def clearTree (s : State) : State :=
  { s with node := Vector.replicate 511 Node.empty, root := Root.none, nleaf := 0#9, nnode := 0#10 }

/-- NOP (R170): only the count of R84 step 1. -/
def execNop (s : State) : Answer := .next (runCommand .nop (fun _ _ t => t) s)

/-- CLRERR (R171): legal in every phase, and the one word R84 step 2 does not drop while `FAULT = 1`. -/
def execClrerr (s : State) : Answer := .next (clearRecord (countWord s))

/-- CLRALL (R172): every table, CBUF and DONE to their reset values. -/
def execClrall (s : State) : Answer :=
  .next (runCommand .clrall
    (fun _ _ t => { clearCode (clearTree (clearFreq t)) with cbuf := Code.empty, done := 0#32 }) s)

/-- CLRFREQ (R173). -/
def execClrfreq (s : State) : Answer := .next (runCommand .clrfreq (fun _ _ t => clearFreq t) s)

/-- CLRCODE (R174). -/
def execClrcode (s : State) : Answer := .next (runCommand .clrcode (fun _ _ t => clearCode t) s)

end Sys2Proof.Machine
end

