-- ==== Sys2Proof/Machine/Flags.lean ====
section
/-! DEFINITION. Machine/Flags.lean: the status flags, each a function of the state (10_state.md R36),
and the level output `fault_irq` (60_exceptions.md R188). HC1 has no arithmetic flags. -/

namespace Sys2Proof.Machine

/-- `TEMPTY`: every `CODE[s].len = 0` (R36). -/
def tempty (s : State) : Bool := s.code.toList.all codeNone

/-- `FEMPTY`: every `FREQ[s] = 0` (R36). -/
def fempty (s : State) : Bool := s.freq.toList.all fun v => v == 0#32

/-- `ROOTV` (R36). -/
def rootv (s : State) : Bool := s.root.v

/-- The 2-bit value of `PHASE` (R32). -/
def phaseBits : Phase → BitVec 2
  | .idle => 0#2
  | .enc => 1#2
  | .dec => 2#2

/-- The word `STATUS` (R36): 31:6 zero, FEMPTY, TEMPTY, ROOTV, FAULT, PHASE. -/
def statusWord (s : State) : Word :=
  0#26 ++ BitVec.ofBool (fempty s) ++ BitVec.ofBool (tempty s) ++ BitVec.ofBool (rootv s) ++
    BitVec.ofBool s.fault ++ phaseBits s.phase

/-- The output `fault_irq`, at all times the value of `FAULT` (R188). -/
def faultIrq (s : State) : Bool := s.fault

end Sys2Proof.Machine
end

