-- ==== Sys2Proof/Machine/Operands.lean ====
section
/-! DEFINITION. Machine/Operands.lean: operand assembly (30_encoding.md R87). Nothing is sign-extended
(R8). Symbol operands are used whole; bit operands are taken from `imm[0]` by the decoder. -/

namespace Sys2Proof.Machine

/-- LDFREQL's value, `zext_32(imm)` (R87, R102). -/
def lowCount (v : Imm) : Freq := v.setWidth 32

/-- LDFREQH's value, `(imm, old[15:0])` with `imm` above (R87, R103). -/
def highCount (v : Imm) (old : Freq) : Freq := v ++ old.setWidth 16

/-- DEC_WORD's bits `imm[0], imm[1], ..., imm[n-1]` in that order (R87, R155). -/
def wordBits (n : Sym) (v : Imm) : Bits := (List.range n.toNat).map fun k => v.getLsbD k

end Sys2Proof.Machine
end

