-- ==== Sys2Proof/Machine/Decoder.lean ====
section
/-! DEFINITION. Machine/Decoder.lean: the match, the step for one bit, and DEC_BEGIN, DEC_BIT, DEC_WORD,
DEC_END (44_decoder.md R150 to R156). -/

namespace Sys2Proof.Machine

/-- The symbols, from number `k` on, whose entry in a list of codes equals `q`. -/
def matchFrom (q : Code) : List Code → Nat → List Sym
  | [], _ => []
  | c :: cs, k =>
    if c.len = q.len ∧ c.bits = q.bits then BitVec.ofNat 8 k :: matchFrom q cs (k + 1)
    else matchFrom q cs (k + 1)

/-- `M(q)`, in ascending order (R151): the ReverseCodeTable evaluated on CODE. -/
def matchSyms (s : State) (q : Code) : List Sym := matchFrom q s.code.toList 0

/-- What `dec_bit` answers (R152): `ok`, or it has raised a fault. -/
inductive BitAnswer where
  | ok (s : State)
  | raised (s : State)
  deriving DecidableEq, Repr

/-- The state of either answer. -/
def bitState : BitAnswer → State
  | .ok s => s
  | .raised s => s

/-- `dec_bit` step 5 (R152, R153), on the state whose buffer holds the bit. -/
def decMatch (w idx : Word) (s : State) : BitAnswer :=
  match matchSyms s s.cbuf with
  | [] => .ok s
  | [a] => .ok { pushS (.sym a) s with cbuf := Code.empty }
  | _ :: _ :: _ => .raised (raise .ambiguousCode w idx s)

/-- `dec_bit(b)` for the command word `w` at stream index `idx` (R152). -/
def decBit (w idx : Word) (b : Bool) (s : State) : BitAnswer :=
  let t := { s with done := s.done + 1#32 }
  if tempty t then .ok t
  else if codeFull t.cbuf then .ok t
  else decMatch w idx { t with cbuf := codeSnoc t.cbuf b }

/-- The bit-input shifter (R155): the bits in order, the rest dropped when one raises. -/
def decBits (w idx : Word) : Bits → State → State
  | [], s => s
  | b :: bs, s =>
    match decBit w idx b s with
    | .ok t => decBits w idx bs t
    | .raised t => t

/-- DEC_BEGIN (R150). -/
def execDecBegin (s : State) : Answer :=
  .next (runCommand .decBegin (fun _ _ t => { t with phase := .dec, done := 0#32, cbuf := Code.empty }) s)

/-- DEC_BIT (R154). -/
def execDecBit (b : Bool) (s : State) : Answer :=
  .next (runCommand (.decBit b) (fun w idx t => bitState (decBit w idx b t)) s)

/-- DEC_WORD (R155). -/
def execDecWord (n : Sym) (imm : Imm) (s : State) : Answer :=
  .next (runCommand (.decWord n imm) (fun w idx t => decBits w idx (wordBits n imm) t) s)

/-- DEC_END (R156): a non-empty buffer faults; else the frame ends in EOF. -/
def execDecEnd (s : State) : Answer :=
  .next (runCommand .decEnd
    (fun w idx t =>
      if codeNone t.cbuf then { pushS .eof t with phase := .idle }
      else raise .truncatedCode w idx t) s)

end Sys2Proof.Machine
end

