-- ==== Sys2Proof/Machine/Encoder.lean ====
section
/-! DEFINITION. Machine/Encoder.lean: ENC_BEGIN, ENC_SYM, ENC_END (43_encoder.md R140 to R142). -/

namespace Sys2Proof.Machine

/-- ENC_BEGIN (R140). -/
def execEncBegin (s : State) : Answer :=
  .next (runCommand .encBegin (fun _ _ t => { t with phase := .enc, done := 0#32 }) s)

/-- The bit-output shifter (R141): one token per bit, first bit first. -/
def shiftOut (bs : Bits) (s : State) : State := bs.foldl (fun t b => pushB (bitTok b) t) s

/-- ENC_SYM (R141): a symbol with no code faults; else its bits go out and DONE counts it. -/
def execEncSym (sym : Sym) (s : State) : Answer :=
  .next (runCommand (.encSym sym)
    (fun w idx t =>
      if codeNone (codeAt t sym) then raise .unknownSymbol w idx t
      else
        let u := shiftOut (codeBits (codeAt t sym)) t
        { u with done := u.done + 1#32 }) s)

/-- ENC_END (R142). -/
def execEncEnd (s : State) : Answer :=
  .next (runCommand .encEnd (fun _ _ t => { pushB .eof t with phase := .idle }) s)

end Sys2Proof.Machine
end

