-- ==== Sys2Proof/Machine/Frequency.lean ====
section
/-! DEFINITION. Machine/Frequency.lean: FSYM, LDFREQL, LDFREQH (40_frequency.md R101 to R103). -/

namespace Sys2Proof.Machine

/-- FSYM (R101): count one occurrence; a count of `2^32 - 1` faults instead (R104). -/
def execFsym (sym : Sym) (s : State) : Answer :=
  .next (runCommand (.fsym sym)
    (fun w idx t =>
      if freqAt t sym = 0xFFFFFFFF#32 then raise .freqOverflow w idx t
      else setFreq sym (freqAt t sym + 1#32) t) s)

/-- LDFREQL (R102): the low half is loaded, the high half cleared. -/
def execLdfreql (sym : Sym) (v : Imm) (s : State) : Answer :=
  .next (runCommand (.ldfreql sym v) (fun _ _ t => setFreq sym (lowCount v) t) s)

/-- LDFREQH (R103): the high half is loaded, the low half kept. -/
def execLdfreqh (sym : Sym) (v : Imm) (s : State) : Answer :=
  .next (runCommand (.ldfreqh sym v) (fun _ _ t => setFreq sym (highCount v (freqAt t sym)) t) s)

end Sys2Proof.Machine
end

