-- ==== Sys2Proof/Machine/TreeBuilder.lean ====
section
/-! DEFINITION. Machine/TreeBuilder.lean: BUILD (41_tree_builder.md R110): clear, leaves, min-merge, root,
code walk, in that order inside one step. -/

namespace Sys2Proof.Machine

/-- R111: the arena, the root, the counts and the code table are cleared. -/
def stageClear (s : State) : State := clearCode (clearTree s)

/-! ## The priority queue (10_state.md R26; R112) -/

/-- Membership of the queue (R26). -/
def inQueue (n : Node) : Bool := n.valid && n.inq

/-- How many members the queue has. -/
def pqSize (ns : Vector Node 511) : Nat := ns.toList.countP inQueue

/-- R112: `lex(f, i) < lex(g, j)` on (frequency, arena index). -/
def before (f : NodeFreq) (i : Nat) (g : NodeFreq) (j : Nat) : Bool :=
  decide (f < g) || (f == g && decide (i < j))

/-- The better of a candidate and the node at index `i`, if that node is a member (R112). -/
def better (best : Option (Nat × NodeFreq)) (i : Nat) (n : Node) : Option (Nat × NodeFreq) :=
  if inQueue n then
    match best with
    | none => some (i, n.freq)
    | some (j, g) => if before n.freq i g j then some (i, n.freq) else some (j, g)
  else best

/-- The queue's minimum over a list of nodes numbered from `i`, given the best candidate before them. -/
def pqScan : List Node → Nat → Option (Nat × NodeFreq) → Option (Nat × NodeFreq)
  | [], _, best => best
  | n :: ns, i, best => pqScan ns (i + 1) (better best i n)

/-- The index of the member that comes before every other (R112). -/
def pqMin (ns : Vector Node 511) : Option Nat := (pqScan ns.toList 0 none).map (·.1)

/-- `extract_min` (R112): the minimum leaves the queue; `none` of an empty queue. -/
def extractMin (ns : Vector Node 511) : Option (Nat × Vector Node 511) :=
  match pqMin ns with
  | none => none
  | some m => some (m, putNode ns m { nodeIn ns m with inq := false })

/-! ## The stages -/

/-- The leaf of symbol `sym` (R113). -/
def leafNode (sym : Sym) (f : Freq) : Node :=
  { valid := true, leaf := true, inq := true, sym := sym, freq := f.setWidth 40, left := 0#9, right := 0#9 }

/-- One turn of R113's loop: a symbol with a count gets the next leaf. -/
def leafStep (sym : Sym) (f : Freq) (s : State) : State :=
  if f = 0#32 then s
  else { s with node := putNode s.node s.nleaf.toNat (leafNode sym f), nleaf := s.nleaf + 1#9 }

/-- R113's loop over the counts of the symbols from number `k` on, in ascending symbol order. -/
def leavesFrom : List Freq → Nat → State → State
  | [], _, s => s
  | f :: fs, k, s => leavesFrom fs (k + 1) (leafStep (BitVec.ofNat 8 k) f s)

/-- R113: one leaf per symbol present, in ascending symbol order. -/
def stageLeaves (s : State) : State :=
  let t := leavesFrom s.freq.toList 0 s
  { t with nnode := t.nleaf.setWidth 10 }

/-- The parent of nodes `a` (extracted first, so left) and `b` (R114); the sum is 40 bits (R118). -/
def parentNode (ns : Vector Node 511) (a b : Nat) : Node :=
  { valid := true, leaf := false, inq := true, sym := 0#8,
    freq := (nodeIn ns a).freq + (nodeIn ns b).freq,
    left := BitVec.ofNat 9 a, right := BitVec.ofNat 9 b }

/-- One round of R114: extract `a`, extract `b`, insert their parent at `NNODE`. -/
def mergeRound (s : State) : State :=
  match extractMin s.node with
  | none => s
  | some (a, ns₁) =>
    match extractMin ns₁ with
    | none => s
    | some (b, ns₂) =>
      { s with node := putNode ns₂ s.nnode.toNat (parentNode ns₂ a b), nnode := s.nnode + 1#10 }

/-- R114's loop, at most `fuel` rounds. -/
def mergeLoop : Nat → State → State
  | 0, s => s
  | fuel + 1, s => if 2 ≤ pqSize s.node then mergeLoop fuel (mergeRound s) else s

/-- R114: the loop runs `NLEAF - 1 <= 255` rounds (R115, R175), so 255 is no limit
(notes/assumptions/8.md). -/
def stageMerge (s : State) : State := mergeLoop (Config.nsym - 1) s

/-- R116: no leaf, no tree; else the root is the one member left in the queue. -/
def stageRoot (s : State) : State :=
  if s.nleaf = 0#9 then { s with root := Root.none }
  else { s with root := { v := true, idx := BitVec.ofNat 9 ((pqMin s.node).getD 0) } }

/-- R120: the walk from node `n` with the path taken so far; each leaf reached writes its code. `fuel`
bounds the depth. -/
def walk (ns : Vector Node 511) : Nat → Nat → Bits → Vector Code 256 → Vector Code 256
  | 0, _, _, code => code
  | fuel + 1, n, path, code =>
    let nd := nodeIn ns n
    if nd.leaf then code.set nd.sym.toNat (packBits path) nd.sym.isLt
    else walk ns fuel nd.right.toNat (path ++ [true]) (walk ns fuel nd.left.toNat (path ++ [false]) code)

/-- R117 and R120: no leaf, nothing; one leaf, the code "0"; else the walk from the root, whose paths
have at most 255 bits (R119), so a depth of 256 nodes is no limit (notes/assumptions/8.md). -/
def stageCodes (s : State) : State :=
  if s.nleaf = 0#9 then s
  else if s.nleaf = 1#9 then setCode (nodeAt s 0).sym { len := 1#8, bits := 0#255 } s
  else { s with code := walk s.node Config.nsym s.root.idx.toNat [] s.code }

/-- R110: the stages in their order. -/
def buildTree (s : State) : State := stageCodes (stageRoot (stageMerge (stageLeaves (stageClear s))))

/-- BUILD (R110): it raises nothing of its own. -/
def execBuild (s : State) : Answer := .next (runCommand .build (fun _ _ t => buildTree t) s)

end Sys2Proof.Machine
end

