-- ==== Sys2Proof/Machine/Dispatch.lean ====
section
/-! DEFINITION. Machine/Dispatch.lean: one arm per command; each calls the command's own meaning. -/

namespace Sys2Proof.Machine

def exec (i : Instr) (s : State) : Host.Outcome State Fault Refusal :=
  match i with
  | .nop => Sys2Proof.Machine.execNop s
  | .clrerr => Sys2Proof.Machine.execClrerr s
  | .clrall => Sys2Proof.Machine.execClrall s
  | .clrfreq => Sys2Proof.Machine.execClrfreq s
  | .clrcode => Sys2Proof.Machine.execClrcode s
  | .fsym sym => Sys2Proof.Machine.execFsym sym s
  | .ldfreql sym v => Sys2Proof.Machine.execLdfreql sym v s
  | .ldfreqh sym v => Sys2Proof.Machine.execLdfreqh sym v s
  | .build => Sys2Proof.Machine.execBuild s
  | .clrc sym => Sys2Proof.Machine.execClrc sym s
  | .ldcbit sym b => Sys2Proof.Machine.execLdcbit sym b s
  | .encBegin => Sys2Proof.Machine.execEncBegin s
  | .encSym sym => Sys2Proof.Machine.execEncSym sym s
  | .encEnd => Sys2Proof.Machine.execEncEnd s
  | .decBegin => Sys2Proof.Machine.execDecBegin s
  | .decBit b => Sys2Proof.Machine.execDecBit b s
  | .decWord n imm => Sys2Proof.Machine.execDecWord n imm s
  | .decEnd => Sys2Proof.Machine.execDecEnd s

end Sys2Proof.Machine
end

