-- ==== Sys2Proof/Machine/Step.lean ====
section
/-! DEFINITION. Machine/Step.lean: one step of the command sequencer (00_scope.md R11; 30_encoding.md R84). -/

namespace Sys2Proof.Machine

/-- R84 for one command word: it is counted; held, it is dropped; else decoded and run. All of that is in
`exec` for a word that spells a command and in `consumeIllegal` for one that spells none. -/
def stepWord (w : Word) (s : State) : Host.Outcome State Fault Refusal :=
  match decode w with
  | .command i => exec i s
  | .illegal _ => .next (consumeIllegal w s)

/-- One step: the next pushed word is consumed; with none pushed the core is idle (R198). -/
def step (s : State) : Host.Outcome State Fault Refusal :=
  match fetch s with
  | none => .next (idleStep s)
  | some (w, t) => stepWord w t

/-- The state whose next step consumes the given word: HC1 fetches nothing, so the word stands first at the
command port, as if the host had pushed it there (60_exceptions.md R199; notes/assumptions/2.md). -/
def State.withFetchWord (s : State) (nbits w : Nat) : State :=
  placeWord (tableWord nbits w) s

end Sys2Proof.Machine
end

