-- ==== Sys2Proof/Machine/Channels.lean ====
section
/-! DEFINITION. Machine/Channels.lean: what stands on the output channels' wires (10_state.md R37, R38),
their frames, and the result a frame means (R39). -/

namespace Sys2Proof.Machine

/-- The 2-bit wire code of a BOUT token (R37). -/
def btokWire : BTok → BitVec 2
  | .b0 => 0b00#2
  | .b1 => 0b01#2
  | .eof => 0b10#2
  | .abt => 0b11#2

/-- The 10-bit wire code of a SOUT token, kind above symbol (R38). -/
def stokWire : STok → BitVec 10
  | .sym s => 0b00#2 ++ s
  | .eof => 0b10#2 ++ 0x00#8
  | .abt => 0b11#2 ++ 0x00#8

/-- A frame that has its terminator: what it carried, and whether it ended in EOF or ABT (R39). -/
inductive Frame (α : Type) where
  | ended (items : List α)
  | aborted (items : List α)
  deriving DecidableEq, Repr

/-- The bit a BOUT token carries; a terminator carries none. -/
def btokBit : BTok → Option Bool
  | .b0 => some false
  | .b1 => some true
  | .eof => none
  | .abt => none

/-- The terminated frames of a BOUT history, given the bits since the last terminator (R39). -/
def bframesFrom : Bits → List BTok → List (Frame Bool)
  | _, [] => []
  | acc, .b0 :: ts => bframesFrom (acc ++ [false]) ts
  | acc, .b1 :: ts => bframesFrom (acc ++ [true]) ts
  | acc, .eof :: ts => .ended acc :: bframesFrom [] ts
  | acc, .abt :: ts => .aborted acc :: bframesFrom [] ts

/-- The terminated frames of `BOUT`, oldest first (R39). -/
def bframes (s : State) : List (Frame Bool) := bframesFrom [] s.bout

/-- The terminated frames of a SOUT history, given the symbols since the last terminator (R39). -/
def sframesFrom : List Sym → List STok → List (Frame Sym)
  | _, [] => []
  | acc, .sym a :: ts => sframesFrom (acc ++ [a]) ts
  | acc, .eof :: ts => .ended acc :: sframesFrom [] ts
  | acc, .abt :: ts => .aborted acc :: sframesFrom [] ts

/-- The terminated frames of `SOUT`, oldest first (R39). -/
def sframes (s : State) : List (Frame Sym) := sframesFrom [] s.sout

/-- The result of an encode (R39): the EncodedStream, or none, the bits of an aborted frame being void. -/
def encodeResult : Frame Bool → Option Bits
  | .ended bs => some bs
  | .aborted _ => none

/-- The result of a decode (R39): the symbols, marked failed (`true`) when the frame was aborted. -/
def decodeResult : Frame Sym → List Sym × Bool
  | .ended ss => (ss, false)
  | .aborted ss => (ss, true)

/-- No encode frame is open on the wire: nothing was pushed, or the last token is a terminator (R39). -/
def boutClosed (h : List BTok) : Bool :=
  match h.getLast? with
  | none => true
  | some .b0 => false
  | some .b1 => false
  | some .eof => true
  | some .abt => true

/-- No decode frame is open on the wire (R39). -/
def soutClosed (h : List STok) : Bool :=
  match h.getLast? with
  | none => true
  | some (.sym _) => false
  | some .eof => true
  | some .abt => true

end Sys2Proof.Machine
end

