-- ==== Sys2Proof/Machine/Readback.lean ====
section
/-! DEFINITION. Machine/Readback.lean: the readback space RB, a pure function of the state (20_memory.md
R60 to R66) with the status registers of 10_state.md R40. A read changes nothing (R63): it is no step. -/

namespace Sys2Proof.Machine

/-- The word `PARAM` (R40): NFW, FREQW, MAXLEN, SYMW from the top byte down. -/
def paramWord : Word :=
  BitVec.ofNat 8 Config.nfw ++ BitVec.ofNat 8 Config.freqw ++ BitVec.ofNat 8 Config.maxlen ++
    BitVec.ofNat 8 Config.symw

/-- Word `w` of a code's vector: bit `j` is position `32*w + j`; a position past 254 reads 0 (R40, R66). -/
def bitsWord (v : CodeBits) (w : Nat) : Word := v.extractLsb' (32 * w) 32

/-- The word `ROOT` (R40). -/
def rootWord (r : Root) : Word := BitVec.ofBool r.v ++ 0#22 ++ r.idx

/-- The status registers `0x0000..0x00FF` (R40); an unassigned address reads 0. -/
def statusReg (s : State) (a : Nat) : Word :=
  match a with
  | 0x00 => Config.idWord
  | 0x01 => paramWord
  | 0x02 => statusWord s
  | 0x03 => s.errcode.setWidth 32
  | 0x04 => s.errcmd
  | 0x05 => s.erridx
  | 0x06 => s.cmdcnt
  | 0x07 => s.done
  | 0x08 => rootWord s.root
  | 0x09 => s.nleaf.setWidth 32
  | 0x0A => s.nnode.setWidth 32
  | 0x0B => s.cbuf.len.setWidth 32
  | n => if 0x10 ≤ n ∧ n ≤ 0x17 then bitsWord s.cbuf.bits (n - 0x10) else 0#32

/-- Word `k` of a node's four (R66). -/
def nodeWord (n : Node) (k : Nat) : Word :=
  match k with
  | 0 => 0#16 ++ n.sym ++ 0#5 ++ BitVec.ofBool n.inq ++ BitVec.ofBool n.leaf ++ BitVec.ofBool n.valid
  | 1 => n.freq.extractLsb' 0 32
  | 2 => (n.freq.extractLsb' 32 8).setWidth 32
  | 3 => 0#7 ++ n.right ++ 0#7 ++ n.left
  | _ => 0#32

/-- `RB(a)` (R61) by the map of R66. -/
def readback (s : State) (a : RbAddr) : Word :=
  let n := a.toNat
  if n < 0x0100 then statusReg s n
  else if n < 0x0200 then freqAt s (BitVec.ofNat 8 (n - 0x0100))
  else if n < 0x0300 then (codeAt s (BitVec.ofNat 8 (n - 0x0200))).len.setWidth 32
  else if n < 0x0800 then 0#32
  else if n < 0x1000 then bitsWord (codeAt s (BitVec.ofNat 8 ((n - 0x0800) / 8))).bits ((n - 0x0800) % 8)
  else if n < 0x17FC then nodeWord (nodeAt s ((n - 0x1000) / 4)) ((n - 0x1000) % 4)
  else 0#32

/-- `MemRead(a, n)` (R10): the second argument is a count of words and is always 1. -/
def memRead (s : State) (a : RbAddr) : Word := readback s a

end Sys2Proof.Machine
end

