-- ==== Sys2Proof/Machine/HostPort.lean ====
section
/-! DEFINITION. Machine/HostPort.lean: the host's four moves (60_exceptions.md R199), all between steps, and
a run over a list of command words (00_scope.md R12). -/

namespace Sys2Proof.Machine

/-- The host's moves, complete (R199). -/
inductive HostMove where
  | push (w : Word)
  | read (a : RbAddr)
  | takeBits (n : Nat)
  | takeSymbols (n : Nat)
  | reset
  deriving DecidableEq, Repr

/-- What a move does to the state (R199): a push gives the port one more word, a read and a taking change
nothing (R63), reset gives every element its reset value and starts a new run (R210; notes/assumptions/3.md). -/
def hostMove : HostMove → State → State
  | .push w, s => { s with port := s.port ++ [w] }
  | .read _, s => s
  | .takeBits _, s => s
  | .takeSymbols _, s => s
  | .reset, _ => State.reset

/-- The word a move reads (R61). -/
def hostReads : HostMove → State → Option Word
  | .push _, _ => none
  | .read a, s => some (memRead s a)
  | .takeBits _, _ => none
  | .takeSymbols _, _ => none
  | .reset, _ => none

/-- A list of command words consumed in order (R12), each by its step (R84). -/
def runWords : List Word → State → Answer
  | [], s => .next s
  | w :: ws, s =>
    match stepWord w s with
    | .next t => runWords ws t
    | .fault r => .fault r
    | .refused r => .refused r

/-- R185: the word is dropped, FAULT being 1 and the word not CLRERR's. -/
def dropped (w : Word) (s : State) : Bool := s.fault && w != 0x01000000#32

/-- Whether consuming the words drops any (R200). -/
def dropsAny : List Word → State → Bool
  | [], _ => false
  | w :: ws, s =>
    dropped w s ||
      match stepWord w s with
      | .next t => dropsAny ws t
      | .fault _ => false
      | .refused _ => false

end Sys2Proof.Machine
end

