-- ==== Sys2Proof/Machine/Pseudo.lean ====
section
/-! DEFINITION. Machine/Pseudo.lean: the pseudo-instructions, each a fixed list of commands (30_encoding.md
R90), which are also the source's three operations (R91). -/

namespace Sys2Proof.Machine

/-- `COUNT "T"`. -/
def pseudoCount (t : List Sym) : List Instr := t.map .fsym

/-- `LDFREQ s, v`: the high half is omitted when it is 0. -/
def pseudoLdfreq (s : Sym) (v : Freq) : List Instr :=
  .ldfreql s (v.extractLsb' 0 16) ::
    if v.extractLsb' 16 16 = 0#16 then [] else [.ldfreqh s (v.extractLsb' 16 16)]

/-- `LDCODE s, "B"`. -/
def pseudoLdcode (s : Sym) (b : Bits) : List Instr := .clrc s :: b.map (.ldcbit s)

/-- `ENCODE "T"`, the source's `encode` (R91). -/
def pseudoEncode (t : List Sym) : List Instr := .encBegin :: (t.map .encSym ++ [.encEnd])

/-- `DECODE "B"`, the source's `decode` (R91). -/
def pseudoDecode (b : Bits) : List Instr := .decBegin :: (b.map .decBit ++ [.decEnd])

/-- `sum(c_k * 2^k)` over a chunk of bits (R90). -/
def chunkImm (c : Bits) : Imm := BitVec.ofNat 16 (c.foldr (fun b n => b.toNat + 2 * n) 0)

/-- The DEC_WORDs of successive chunks of up to 16 bits (R90); `fuel` chunks at most. -/
def pseudoChunks : Nat → Bits → List Instr
  | 0, _ => []
  | _ + 1, [] => []
  | fuel + 1, b :: bs =>
    let c := (b :: bs).take Config.maxWordBits
    .decWord (BitVec.ofNat 8 c.length) (chunkImm c) ::
      pseudoChunks fuel ((b :: bs).drop Config.maxWordBits)

/-- `DECODEW "B"`. -/
def pseudoDecodew (b : Bits) : List Instr := .decBegin :: (pseudoChunks b.length b ++ [.decEnd])

/-- `BUILDTABLE "T"`, the source's `buildCodeTable` (R91). -/
def pseudoBuildtable (t : List Sym) : List Instr := .clrall :: (pseudoCount t ++ [.build])

end Sys2Proof.Machine
end

