-- ==== Sys2Proof/Machine/TreeWalk.lean ====
section
/-! DEFINITION. Machine/TreeWalk.lean: the walk of the arena that 44_decoder.md R161 says decodes a built
table like the buffer does. The buffer form (Decoder.lean) is the definition; no command runs this. -/

namespace Sys2Proof.Machine

/-- One bit of the walk: the next node, and the symbol if that node is a leaf (R161). -/
def treeStep (s : State) (cur : NodeIdx) (b : Bool) : NodeIdx × Option Sym :=
  let nxt := if b then (nodeAt s cur.toNat).right else (nodeAt s cur.toNat).left
  if (nodeAt s nxt.toNat).leaf then (s.root.idx, some (nodeAt s nxt.toNat).sym) else (nxt, none)

/-- The walk over a bit sequence from node `cur`: the symbols emitted and the node it ends at (R161). -/
def treeDecode (s : State) : NodeIdx → Bits → List Sym × NodeIdx
  | cur, [] => ([], cur)
  | cur, b :: bs =>
    let (nxt, out) := treeStep s cur b
    let (rest, last) := treeDecode s nxt bs
    (out.toList ++ rest, last)

end Sys2Proof.Machine
end

