-- ==== Sys2Proof/Safety.lean ====
section
/-! DEFINITION. Safety.lean: the terms claims are stated in: a clean run and a run gone wrong (00_scope.md
R12; 60_exceptions.md R200), frames over the elements of R22, and the invariants the spec states. -/

namespace Sys2Proof.Safety

open Sys2Proof.Machine

/-- R12: a run is clean when its end state has `FAULT = 0` and `PHASE = IDLE`. -/
def Clean (s : State) : Prop := s.fault = false ∧ s.phase = .idle

/-- R200: a run from `s` over `ws` that ends in `t` has gone wrong. -/
def GoneWrong (ws : List Word) (s t : State) : Prop :=
  t.fault = true ∨ t.phase ≠ .idle ∨ dropsAny ws s = true

/-! ## Frames -/

/-- The elements of the state (R22), and the model's `port`. -/
inductive Elem where
  | freq | node | root | nleaf | nnode | code | cbuf | phase | fault | errcode | errcmd | erridx
  | cmdcnt | done | bout | sout | port
  deriving DecidableEq, Repr

/-- Two states agree on an element. -/
def Agree : Elem → State → State → Prop
  | .freq, s, t => t.freq = s.freq
  | .node, s, t => t.node = s.node
  | .root, s, t => t.root = s.root
  | .nleaf, s, t => t.nleaf = s.nleaf
  | .nnode, s, t => t.nnode = s.nnode
  | .code, s, t => t.code = s.code
  | .cbuf, s, t => t.cbuf = s.cbuf
  | .phase, s, t => t.phase = s.phase
  | .fault, s, t => t.fault = s.fault
  | .errcode, s, t => t.errcode = s.errcode
  | .errcmd, s, t => t.errcmd = s.errcmd
  | .erridx, s, t => t.erridx = s.erridx
  | .cmdcnt, s, t => t.cmdcnt = s.cmdcnt
  | .done, s, t => t.done = s.done
  | .bout, s, t => t.bout = s.bout
  | .sout, s, t => t.sout = s.sout
  | .port, s, t => t.port = s.port

/-- Every element but those listed is unchanged from `s` to `t`. -/
def UnchangedBut (es : List Elem) (s t : State) : Prop := ∀ e, e ∉ es → Agree e s t

/-- The elements the fault entry writes besides the open frame's channel (R184). -/
def faultElems : List Elem := [.phase, .fault, .errcode, .errcmd, .erridx, .bout, .sout]

/-- The fault record says fault `c` of word `w` at index `idx` (R184). -/
def Recorded (c : BitVec 8) (w idx : Word) (t : State) : Prop :=
  t.fault = true ∧ t.errcode = c ∧ t.errcmd = w ∧ t.erridx = idx

/-- The open frame of `s`, if one is open, ended in ABT between `s` and `t` after the channels had grown by
nothing else, and the phase is IDLE (R184). -/
def Aborted (s t : State) : Prop :=
  t.phase = .idle ∧
  t.bout = s.bout ++ (if s.phase = .enc then [BTok.abt] else []) ∧
  t.sout = s.sout ++ (if s.phase = .dec then [STok.abt] else [])

/-- R182, R184, R187: from `s` to `t`, one word was counted, fault `c` was taken of word `w` at that word's
stream index, and nothing else happened. -/
def FaultsOnly (c : BitVec 8) (w : Word) (s t : State) : Prop :=
  Recorded c w s.cmdcnt t ∧ Aborted s t ∧ t.cmdcnt = s.cmdcnt + 1#32 ∧
  UnchangedBut (.cmdcnt :: faultElems) s t

/-- With `FAULT = 0` and the operation `p` open: where R84 reaches a command of that phase. -/
def Ready (p : Phase) (s : State) : Prop := s.fault = false ∧ s.phase = p

/-- R182, R186: with `FAULT = 0` and in any phase but `p`, the command takes BadPhase and does nothing else. -/
def BadPhaseBut (p : Phase) (i : Instr) : Prop :=
  ∀ s, s.fault = false → s.phase ≠ p → ∃ t, exec i s = .next t ∧ FaultsOnly 2#8 (encode i) s t

/-- R85, R181: with `FAULT = 0`, in any phase, the word takes IllegalCommand and does nothing else. -/
def IllegalWord (w : Word) : Prop :=
  ∀ s, s.fault = false → ∃ t, stepWord w s = .next t ∧ FaultsOnly 1#8 w s t

/-- R81, R85: a command with no operand: only its one word is legal among those of its opcode. -/
def OnlyWordOfOp (op : BitVec 8) : Prop :=
  ∀ w, opField w = op → (symField w ≠ 0#8 ∨ immField w ≠ 0#16) → IllegalWord w

/-- The elements a command may write besides CMDCNT and, when it faults, `faultElems`: R22's column
"Written by", command by command. -/
def writesOf : Instr → List Elem
  | .nop => []
  | .clrerr => [.fault, .errcode, .errcmd, .erridx]
  | .clrall => [.freq, .node, .root, .nleaf, .nnode, .code, .cbuf, .done]
  | .clrfreq => [.freq]
  | .clrcode => [.code]
  | .fsym _ => [.freq]
  | .ldfreql _ _ => [.freq]
  | .ldfreqh _ _ => [.freq]
  | .build => [.node, .root, .nleaf, .nnode, .code]
  | .clrc _ => [.code]
  | .ldcbit _ _ => [.code]
  | .encBegin => [.phase, .done]
  | .encSym _ => [.done, .bout]
  | .encEnd => [.phase, .bout]
  | .decBegin => [.cbuf, .phase, .done]
  | .decBit _ => [.cbuf, .done, .sout]
  | .decWord _ _ => [.cbuf, .done, .sout]
  | .decEnd => [.phase, .sout]

/-- R66, R70: the readback addresses, from the tables' start `0x0100` on, of the entries a command stores to. -/
def storesAt (i : Instr) (a : Nat) : Prop :=
  match i with
  | .nop => False
  | .clrerr => False
  | .clrall => True
  | .clrfreq => 0x0100 ≤ a ∧ a < 0x0200
  | .clrcode => (0x0200 ≤ a ∧ a < 0x0300) ∨ (0x0800 ≤ a ∧ a < 0x1000)
  | .fsym sym => a = 0x0100 + sym.toNat
  | .ldfreql sym _ => a = 0x0100 + sym.toNat
  | .ldfreqh sym _ => a = 0x0100 + sym.toNat
  | .build => 0x0200 ≤ a
  | .clrc sym => a = 0x0200 + sym.toNat ∨ (0x0800 + 8 * sym.toNat ≤ a ∧ a < 0x0808 + 8 * sym.toNat)
  | .ldcbit sym _ => a = 0x0200 + sym.toNat ∨ (0x0800 + 8 * sym.toNat ≤ a ∧ a < 0x0808 + 8 * sym.toNat)
  | .encBegin => False
  | .encSym _ => False
  | .encEnd => False
  | .decBegin => False
  | .decBit _ => False
  | .decWord _ _ => False
  | .decEnd => False

/-- R180, R190 (4): the fault a command has of its own, by code; 0 for a command that has none. -/
def ownFault : Instr → BitVec 8
  | .fsym _ => 5#8
  | .ldcbit _ _ => 6#8
  | .encSym _ => 3#8
  | .decBit _ => 7#8
  | .decWord _ _ => 7#8
  | .decEnd => 4#8
  | .nop => 0#8
  | .clrerr => 0#8
  | .clrall => 0#8
  | .clrfreq => 0#8
  | .clrcode => 0#8
  | .ldfreql _ _ => 0#8
  | .ldfreqh _ _ => 0#8
  | .build => 0#8
  | .clrc _ => 0#8
  | .encBegin => 0#8
  | .encEnd => 0#8
  | .decBegin => 0#8

/-! ## The decoder's buffer and the tree, as bit sequences -/

/-- R151: `M(q)` has no member. -/
def NoMatch (s : State) (q : Code) : Prop := ∀ a : Sym, codeAt s a ≠ q

/-- R151: `M(q) = (a)`. -/
def OneMatch (s : State) (q : Code) (a : Sym) : Prop := ∀ b : Sym, codeAt s b = q ↔ b = a

/-- R151: `M(q)` has two or more members. -/
def ManyMatch (s : State) (q : Code) : Prop := ∃ a b : Sym, a ≠ b ∧ codeAt s a = q ∧ codeAt s b = q

/-- R29: the child of node `n` on a bit, 0 = left, 1 = right. -/
def child (s : State) (n : Nat) (b : Bool) : Nat :=
  if b then (nodeAt s n).right.toNat else (nodeAt s n).left.toNat

/-- R120: the bits lead from node `n` through internal nodes to the leaf of a symbol. -/
def LeadsTo (s : State) : Nat → Bits → Sym → Prop
  | n, [], a => (nodeAt s n).valid = true ∧ (nodeAt s n).leaf = true ∧ (nodeAt s n).sym = a
  | n, b :: bs, a => (nodeAt s n).valid = true ∧ (nodeAt s n).leaf = false ∧ LeadsTo s (child s n b) bs a

/-- R112: node `i` comes before node `j`. -/
def Before (s : State) (i j : Nat) : Prop :=
  (nodeAt s i).freq.toNat < (nodeAt s j).freq.toNat ∨
    ((nodeAt s i).freq.toNat = (nodeAt s j).freq.toNat ∧ i < j)

/-- The symbols in ascending order (R6). -/
def allSyms : List Sym := (List.range Config.nsym).map (BitVec.ofNat 8)

/-- R113: the symbols of the frequency table, ascending. -/
def present (s : State) : List Sym := allSyms.filter fun a => freqAt s a != 0#32

/-- The sum of all counts (R104, R118). -/
def totalCount (s : State) : Nat := (allSyms.map fun a => (freqAt s a).toNat).sum

/-- The tokens of a bit sequence (R37, R141). -/
def bitToks (bs : Bits) : List BTok := bs.map bitTok

/-- `CODE[t_0] ++ CODE[t_1] ++ ...` (R145). -/
def codesOf (s : State) (ts : List Sym) : Bits := ts.flatMap (codeOf s)

/-! ## Invariants -/

/-- R30: every bit at a position at or past the length is 0. -/
def CodeCanonical (c : Code) : Prop := ∀ k, c.len.toNat ≤ k → c.bits.getLsbD k = false

/-- R30, of every entry of CODE and of CBUF. -/
def CodesCanonical (s : State) : Prop := (∀ a : Sym, CodeCanonical (codeAt s a)) ∧ CodeCanonical s.cbuf

/-- R33, R171: while `FAULT = 0` the ERR registers are 0; after any fault the phase is IDLE. -/
def RecordConsistent (s : State) : Prop :=
  (s.fault = false → s.errcode = 0#8 ∧ s.errcmd = 0#32 ∧ s.erridx = 0#32) ∧
  (s.fault = true → s.phase = .idle ∧ 1 ≤ s.errcode.toNat ∧ s.errcode.toNat ≤ 7)

/-- R39: outside phase ENC no BOUT frame is open on the wire, and outside phase DEC no SOUT frame. -/
def FramesClosed (s : State) : Prop :=
  (s.phase ≠ .enc → boutClosed s.bout = true) ∧ (s.phase ≠ .dec → soutClosed s.sout = true)

/-- R25, R28: the counts agree with each other and with the valid bits, and an entry not in use is all 0. -/
def ArenaCounts (s : State) : Prop :=
  s.nleaf.toNat ≤ 256 ∧
  s.nnode.toNat = (if s.nleaf = 0#9 then 0 else 2 * s.nleaf.toNat - 1) ∧
  (∀ i, i < 511 → ((nodeAt s i).valid = true ↔ i < s.nnode.toNat)) ∧
  (∀ i, s.nnode.toNat ≤ i → nodeAt s i = Node.empty)

/-- R42: leaves first in ascending order of symbol, then internal nodes whose children have lower and
different indexes; every node but the root is the child of exactly one internal node, the root of none. -/
def TreeShape (s : State) : Prop :=
  (∀ i, i < s.nleaf.toNat → (nodeAt s i).leaf = true ∧ (nodeAt s i).left = 0#9 ∧ (nodeAt s i).right = 0#9) ∧
  (∀ i j, i < j → j < s.nleaf.toNat → (nodeAt s i).sym.toNat < (nodeAt s j).sym.toNat) ∧
  (∀ k, s.nleaf.toNat ≤ k → k < s.nnode.toNat →
    (nodeAt s k).leaf = false ∧ (nodeAt s k).sym = 0#8 ∧
    (nodeAt s k).left.toNat < k ∧ (nodeAt s k).right.toNat < k ∧ (nodeAt s k).left ≠ (nodeAt s k).right) ∧
  (∀ c, c + 1 < s.nnode.toNat → ∃ p, (s.nleaf.toNat ≤ p ∧ p < s.nnode.toNat ∧
    ((nodeAt s p).left.toNat = c ∨ (nodeAt s p).right.toNat = c)) ∧
    ∀ q, s.nleaf.toNat ≤ q → q < s.nnode.toNat →
      ((nodeAt s q).left.toNat = c ∨ (nodeAt s q).right.toNat = c) → q = p) ∧
  (∀ q, s.nleaf.toNat ≤ q → q < s.nnode.toNat →
    (nodeAt s q).left.toNat + 1 ≠ s.nnode.toNat ∧ (nodeAt s q).right.toNat + 1 ≠ s.nnode.toNat)

/-- R25, R114: an internal node's frequency is the exact sum of its two children's. -/
def SumsExact (s : State) : Prop :=
  ∀ k, s.nleaf.toNat ≤ k → k < s.nnode.toNat →
    (nodeAt s k).freq.toNat =
      (nodeAt s (nodeAt s k).left.toNat).freq.toNat + (nodeAt s (nodeAt s k).right.toNat).freq.toNat

/-- R27, R116: no leaf, no root; else the root is the last node, which alone is in the queue. -/
def RootLast (s : State) : Prop :=
  (s.nleaf = 0#9 → s.root = Root.none) ∧
  (s.nleaf ≠ 0#9 → s.root.v = true ∧ s.root.idx.toNat + 1 = s.nnode.toNat ∧
    ∀ i, i < s.nnode.toNat → ((nodeAt s i).inq = true ↔ i + 1 = s.nnode.toNat))

/-- R25 to R28, R42, R116: what holds of the arena at reset, after BUILD and after CLRALL, the only commands
that write it (R22), and so always. -/
def ArenaSound (s : State) : Prop := ArenaCounts s ∧ TreeShape s ∧ SumsExact s ∧ RootLast s

end Sys2Proof.Safety
end

