-- ==== Sys2Proof/Certificates/Slice0/Obligations.lean ====
section
/-! DEFINITION. Certificates/Slice0/Obligations.lean: the statements for the provers, from the spec's
numbered rules. Each docstring names the rules it is about. -/

open Sys2Proof Sys2Proof.Machine Sys2Proof.Safety

/-- Reset leaves every element of R22 at its reset value (R43). -/
def Obligations.ResetHoldsSpecValues : Prop :=
  (∀ a : Sym, freqAt State.reset a = 0#32) ∧
  (∀ i, i < 511 → nodeAt State.reset i =
    { valid := false, leaf := false, inq := false, sym := 0#8, freq := 0#40, left := 0#9, right := 0#9 }) ∧
  State.reset.root = { v := false, idx := 0#9 } ∧
  State.reset.nleaf = 0#9 ∧ State.reset.nnode = 0#10 ∧
  (∀ a : Sym, codeAt State.reset a = { len := 0#8, bits := 0#255 }) ∧
  State.reset.cbuf = { len := 0#8, bits := 0#255 } ∧
  State.reset.phase = .idle ∧ State.reset.fault = false ∧ State.reset.errcode = 0#8 ∧
  State.reset.errcmd = 0#32 ∧ State.reset.erridx = 0#32 ∧ State.reset.cmdcnt = 0#32 ∧
  State.reset.done = 0#32 ∧ State.reset.bout = [] ∧ State.reset.sout = []

/-- What the host reads after reset (R211 (70_reset_and_hazards.md), but for what it says is absent: vector, entry point, mask). -/
def Obligations.ResetReadback : Prop :=
  State.reset.phase = .idle ∧ State.reset.fault = false ∧ faultIrq State.reset = false ∧
  tempty State.reset = true ∧ fempty State.reset = true ∧ State.reset.cmdcnt = 0#32 ∧
  memRead State.reset 0x0000#16 = 0x48554631#32 ∧
  memRead State.reset 0x0001#16 = 0x2820FF08#32 ∧
  memRead State.reset 0x0002#16 = 0x00000030#32 ∧
  ∀ a : RbAddr, a ≠ 0x0000#16 → a ≠ 0x0001#16 → a ≠ 0x0002#16 → memRead State.reset a = 0#32

/-- A step runs the command the next pushed word spells (30_encoding.md R84, 60_exceptions.md R199). -/
def Obligations.StepRunsDecodedCommand : Prop :=
  ∀ (s : State) (w : Word) (rest : List Word) (i : Instr),
    s.port = w :: rest → decode w = .command i → step s = exec i { s with port := rest }

/-- With no word pushed a step changes nothing (the model's choice, log entry 1) (60_exceptions.md R198, R199). -/
def Obligations.StepWithoutWordKeepsState : Prop :=
  ∀ s : State, (s.port = [] → step s = .next s) ∧
    ∀ w rest, s.port = w :: rest → step s = stepWord w { s with port := rest }

/-- The words the spec spells out decode to their commands (30_encoding.md R81, R89). -/
def Obligations.SpecWordsDecode : Prop :=
  decode 0x10610000#32 = .command (.fsym 0x61#8) ∧
  decode 0x11410003#32 = .command (.ldfreql 0x41#8 3#16) ∧
  decode 0x31620001#32 = .command (.ldcbit 0x62#8 true) ∧
  decode 0x51000001#32 = .command (.decBit true) ∧
  decode 0x520B0785#32 = .command (.decWord 11#8 0x0785#16) ∧
  decode 0x20000000#32 = .command .build ∧
  decode 0x41610000#32 = .command (.encSym 0x61#8) ∧
  decode 0x01000000#32 = .command .clrerr

/-- Decoding an encoded well-formed command gives it back (30_encoding.md R81, R83). -/
def Obligations.DecodeEncodeAgree : Prop :=
  ∀ i : Instr, i.wellFormed = true → decode (encode i) = .command i

/-- A word that spells a command is that command's encoding (30_encoding.md R81, R83). -/
def Obligations.DecodedCommandHasItsWord : Prop :=
  ∀ (w : Word) (i : Instr), decode w = .command i → i.wellFormed = true ∧ encode i = w

/-- Decoding is by the mask and match table, whose rows are disjoint (R83). -/
def Obligations.MaskAndMatchTable : Prop :=
  rows.map (fun r => (r.mask, r.pat)) =
    [(0xFFFFFFFF#32, 0x00000000#32), (0xFFFFFFFF#32, 0x01000000#32), (0xFFFFFFFF#32, 0x02000000#32),
     (0xFFFFFFFF#32, 0x03000000#32), (0xFFFFFFFF#32, 0x04000000#32), (0xFF00FFFF#32, 0x10000000#32),
     (0xFF000000#32, 0x11000000#32), (0xFF000000#32, 0x12000000#32), (0xFFFFFFFF#32, 0x20000000#32),
     (0xFF00FFFF#32, 0x30000000#32), (0xFF00FFFE#32, 0x31000000#32), (0xFFFFFFFF#32, 0x40000000#32),
     (0xFF00FFFF#32, 0x41000000#32), (0xFFFFFFFF#32, 0x42000000#32), (0xFFFFFFFF#32, 0x50000000#32),
     (0xFFFFFFFE#32, 0x51000000#32), (0xFFE00000#32, 0x52000000#32), (0xFFFFFFFF#32, 0x53000000#32)] ∧
  rows.Pairwise (fun r q => ∀ w : Word, w &&& r.mask = r.pat → w &&& q.mask ≠ q.pat) ∧
  (∀ r ∈ rows, ∀ w : Word,
    (w &&& r.mask = r.pat ∧ (r.pat = 0x52000000#32 → (symField w).toNat ≤ 16)) →
      decode w = .command (rowCommand r w)) ∧
  (∀ w : Word, (∀ r ∈ rows, ¬ (w &&& r.mask = r.pat ∧
    (r.pat = 0x52000000#32 → (symField w).toNat ≤ 16))) → ∃ why, decode w = .illegal why)

/-- A word that spells no command takes IllegalCommand and does nothing else (R181). -/
def Obligations.IllegalWordsTakeIllegalCommand : Prop :=
  (∀ w : Word, (∃ why, decode w = .illegal why) → IllegalWord w) ∧
  (∀ w : Word, opField w ∉ [0x00#8, 0x01#8, 0x02#8, 0x03#8, 0x04#8, 0x10#8, 0x11#8, 0x12#8, 0x20#8, 0x30#8,
      0x31#8, 0x40#8, 0x41#8, 0x42#8, 0x50#8, 0x51#8, 0x52#8, 0x53#8] → decode w = .illegal .unassignedOp) ∧
  (∀ w : Word, opField w = 0x52#8 → 16 < (symField w).toNat → decode w = .illegal .badCount)

/-- While FAULT = 1 every word but CLRERR's is counted and dropped (R185). -/
def Obligations.HeldCoreDropsWords : Prop :=
  ∀ (s : State) (w : Word), s.fault = true → ∃ t, stepWord w s = .next t ∧ t.cmdcnt = s.cmdcnt + 1#32 ∧
    (w ≠ 0x01000000#32 → UnchangedBut [.cmdcnt] s t) ∧
    (w = 0x01000000#32 → t.fault = false ∧ t.errcode = 0#8 ∧ t.errcmd = 0#32 ∧ t.erridx = 0#32 ∧
      UnchangedBut [.cmdcnt, .fault, .errcode, .errcmd, .erridx] s t)

/-- Every consumed word completes and advances CMDCNT by one (R34). -/
def Obligations.EveryWordIsCounted : Prop :=
  (∀ (w : Word) (s : State), ∃ t, stepWord w s = .next t ∧ t.cmdcnt = s.cmdcnt + 1#32 ∧
    (s.fault = false → t.fault = true → t.erridx = s.cmdcnt)) ∧
  State.reset.cmdcnt = 0#32 ∧
  (∀ (ws : List Word) (s : State), ∃ t, runWords ws s = .next t ∧
    t.cmdcnt = s.cmdcnt + BitVec.ofNat 32 ws.length)

/-- Taking a fault writes the record, aborts the open frame and returns to IDLE (60_exceptions.md R180, R184). -/
def Obligations.FaultEntry : Prop :=
  (∀ (c : Cause) (w idx : Word) (s : State),
    Recorded (causeCode c) w idx (raise c w idx s) ∧ Aborted s (raise c w idx s) ∧
    UnchangedBut faultElems s (raise c w idx s)) ∧
  causeCode .illegalCommand = 1#8 ∧ causeCode .badPhase = 2#8 ∧ causeCode .unknownSymbol = 3#8 ∧
  causeCode .truncatedCode = 4#8 ∧ causeCode .freqOverflow = 5#8 ∧ causeCode .codeOverflow = 6#8 ∧
  causeCode .ambiguousCode = 7#8

/-- BadPhase is taken exactly in the phases R186 does not allow (R182, R186). -/
def Obligations.BadPhaseExactly : Prop :=
  (∀ p, legalIn .nop p = true ∧ legalIn .clrerr p = true) ∧
  (∀ i ∈ [Instr.clrall, .clrfreq, .clrcode, .build, .encBegin, .decBegin], ∀ p, legalIn i p = true ↔ p = .idle) ∧
  (∀ (a : Sym) (v : Imm) (b : Bool) (p : Phase),
    (legalIn (.fsym a) p = true ↔ p = .idle) ∧ (legalIn (.ldfreql a v) p = true ↔ p = .idle) ∧
    (legalIn (.ldfreqh a v) p = true ↔ p = .idle) ∧ (legalIn (.clrc a) p = true ↔ p = .idle) ∧
    (legalIn (.ldcbit a b) p = true ↔ p = .idle) ∧ (legalIn (.encSym a) p = true ↔ p = .enc) ∧
    (legalIn .encEnd p = true ↔ p = .enc) ∧ (legalIn (.decBit b) p = true ↔ p = .dec) ∧
    (legalIn (.decWord a v) p = true ↔ p = .dec) ∧ (legalIn .decEnd p = true ↔ p = .dec)) ∧
  (∀ (i : Instr) (s : State), i.wellFormed = true → s.fault = false → ∃ t, exec i s = .next t ∧
    (legalIn i s.phase = false → FaultsOnly 2#8 (encode i) s t) ∧
    (legalIn i s.phase = true → ¬ (t.fault = true ∧ t.errcode = 2#8)))

/-- NOP changes CMDCNT and nothing else, in every phase, held or not (R170). -/
def Obligations.NopOnlyCounts : Prop :=
  encode .nop = 0x00000000#32 ∧ OnlyWordOfOp 0x00#8 ∧
  ∀ s : State, ∃ t, exec .nop s = .next t ∧ t.cmdcnt = s.cmdcnt + 1#32 ∧ UnchangedBut [.cmdcnt] s t

/-- CLRERR clears the fault record and restores nothing else, in every state (R171). -/
def Obligations.ClrerrAcknowledges : Prop :=
  encode .clrerr = 0x01000000#32 ∧ OnlyWordOfOp 0x01#8 ∧
  ∀ s : State, ∃ t, exec .clrerr s = .next t ∧
    t.fault = false ∧ t.errcode = 0#8 ∧ t.errcmd = 0#32 ∧ t.erridx = 0#32 ∧ t.cmdcnt = s.cmdcnt + 1#32 ∧
    UnchangedBut [.cmdcnt, .fault, .errcode, .errcmd, .erridx] s t ∧
    (RecordConsistent s → s.fault = false → UnchangedBut [.cmdcnt] s t) ∧
    (RecordConsistent s → s.fault = true → t.phase = .idle)

/-- CLRALL returns every table to its reset value (R172). -/
def Obligations.ClrallEmptiesTables : Prop :=
  encode .clrall = 0x02000000#32 ∧ OnlyWordOfOp 0x02#8 ∧ BadPhaseBut .idle .clrall ∧
  ∀ s : State, Ready .idle s → ∃ t, exec .clrall s = .next t ∧
    (∀ a : Sym, freqAt t a = 0#32) ∧ (∀ i, nodeAt t i = Node.empty) ∧ t.root = Root.none ∧
    t.nleaf = 0#9 ∧ t.nnode = 0#10 ∧ (∀ a : Sym, codeAt t a = Code.empty) ∧ t.cbuf = Code.empty ∧
    t.done = 0#32 ∧ t.cmdcnt = s.cmdcnt + 1#32 ∧
    rootv t = false ∧ tempty t = true ∧ fempty t = true ∧
    UnchangedBut [.freq, .node, .root, .nleaf, .nnode, .code, .cbuf, .done, .cmdcnt] s t ∧
    (RecordConsistent s → t = { State.reset with
      cmdcnt := s.cmdcnt + 1#32, bout := s.bout, sout := s.sout, port := s.port })

/-- CLRFREQ empties FREQ alone and CLRCODE empties CODE alone (R173, R174). -/
def Obligations.ClrfreqAndClrcodeEmptyOneTable : Prop :=
  encode .clrfreq = 0x03000000#32 ∧ encode .clrcode = 0x04000000#32 ∧
  OnlyWordOfOp 0x03#8 ∧ OnlyWordOfOp 0x04#8 ∧ BadPhaseBut .idle .clrfreq ∧ BadPhaseBut .idle .clrcode ∧
  (∀ s : State, Ready .idle s → ∃ t, exec .clrfreq s = .next t ∧ (∀ a : Sym, freqAt t a = 0#32) ∧
    fempty t = true ∧ t.cmdcnt = s.cmdcnt + 1#32 ∧ UnchangedBut [.freq, .cmdcnt] s t) ∧
  (∀ s : State, Ready .idle s → ∃ t, exec .clrcode s = .next t ∧ (∀ a : Sym, codeAt t a = Code.empty) ∧
    tempty t = true ∧ t.cmdcnt = s.cmdcnt + 1#32 ∧ UnchangedBut [.code, .cmdcnt] s t)

/-- FSYM adds one to its symbol's count, or takes FreqOverflow at the top (R101). -/
def Obligations.FsymCountsOrOverflows : Prop :=
  ∀ a : Sym, encode (.fsym a) = BitVec.ofNat 32 (0x10000000 + a.toNat * 2 ^ 16) ∧
  (∀ w, opField w = 0x10#8 → immField w ≠ 0#16 → IllegalWord w) ∧ BadPhaseBut .idle (.fsym a) ∧
  (∀ s : State, Ready .idle s → freqAt s a ≠ 0xFFFFFFFF#32 → ∃ t, exec (.fsym a) s = .next t ∧
    (freqAt t a).toNat = (freqAt s a).toNat + 1 ∧ (∀ b : Sym, b ≠ a → freqAt t b = freqAt s b) ∧
    fempty t = false ∧ t.cmdcnt = s.cmdcnt + 1#32 ∧ UnchangedBut [.freq, .cmdcnt] s t) ∧
  (∀ s : State, Ready .idle s → freqAt s a = 0xFFFFFFFF#32 → ∃ t, exec (.fsym a) s = .next t ∧
    FaultsOnly 5#8 (encode (.fsym a)) s t)

/-- LDFREQL loads the low half of a count and clears the high half (R102). -/
def Obligations.LdfreqlLoadsLowHalf : Prop :=
  ∀ (a : Sym) (v : Imm), encode (.ldfreql a v) = BitVec.ofNat 32 (0x11000000 + a.toNat * 2 ^ 16 + v.toNat) ∧
  (∀ w, opField w = 0x11#8 → decode w = .command (.ldfreql (symField w) (immField w))) ∧
  BadPhaseBut .idle (.ldfreql a v) ∧
  (∀ s : State, Ready .idle s → ∃ t, exec (.ldfreql a v) s = .next t ∧
    (freqAt t a).toNat = v.toNat ∧ (∀ b : Sym, b ≠ a → freqAt t b = freqAt s b) ∧
    (fempty t = true ↔ ∀ b : Sym, freqAt t b = 0#32) ∧
    t.cmdcnt = s.cmdcnt + 1#32 ∧ UnchangedBut [.freq, .cmdcnt] s t)

/-- LDFREQH loads the high half of a count and keeps the low half (R103). -/
def Obligations.LdfreqhLoadsHighHalf : Prop :=
  ∀ (a : Sym) (v : Imm), encode (.ldfreqh a v) = BitVec.ofNat 32 (0x12000000 + a.toNat * 2 ^ 16 + v.toNat) ∧
  (∀ w, opField w = 0x12#8 → decode w = .command (.ldfreqh (symField w) (immField w))) ∧
  BadPhaseBut .idle (.ldfreqh a v) ∧
  (∀ s : State, Ready .idle s → ∃ t, exec (.ldfreqh a v) s = .next t ∧
    (freqAt t a).toNat = v.toNat * 65536 + (freqAt s a).toNat % 65536 ∧
    (∀ b : Sym, b ≠ a → freqAt t b = freqAt s b) ∧
    (fempty t = true ↔ ∀ b : Sym, freqAt t b = 0#32) ∧
    t.cmdcnt = s.cmdcnt + 1#32 ∧ UnchangedBut [.freq, .cmdcnt] s t)

/-- CLRC removes one symbol's code and touches no other entry (R130). -/
def Obligations.ClrcRemovesOneCode : Prop :=
  ∀ a : Sym, encode (.clrc a) = BitVec.ofNat 32 (0x30000000 + a.toNat * 2 ^ 16) ∧
  (∀ w, opField w = 0x30#8 → immField w ≠ 0#16 → IllegalWord w) ∧ BadPhaseBut .idle (.clrc a) ∧
  (∀ s : State, Ready .idle s → ∃ t, exec (.clrc a) s = .next t ∧
    codeAt t a = Code.empty ∧ (∀ b : Sym, b ≠ a → codeAt t b = codeAt s b) ∧
    (tempty t = true ↔ ∀ b : Sym, b ≠ a → hasCode s b = false) ∧
    t.cmdcnt = s.cmdcnt + 1#32 ∧ UnchangedBut [.code, .cmdcnt] s t ∧
    (codeAt s a = Code.empty → UnchangedBut [.cmdcnt] s t))

/-- LDCBIT appends one bit to a code, or takes CodeOverflow at 255 bits (R131). -/
def Obligations.LdcbitAppendsOrOverflows : Prop :=
  ∀ (a : Sym) (b : Bool), encode (.ldcbit a b) = BitVec.ofNat 32 (0x31000000 + a.toNat * 2 ^ 16 + b.toNat) ∧
  (∀ w, opField w = 0x31#8 → (immField w).toNat / 2 ≠ 0 → IllegalWord w) ∧ BadPhaseBut .idle (.ldcbit a b) ∧
  (∀ s : State, Ready .idle s → (codeAt s a).len ≠ 255#8 → ∃ t, exec (.ldcbit a b) s = .next t ∧
    codeOf t a = codeOf s a ++ [b] ∧ (codeAt t a).len.toNat = (codeAt s a).len.toNat + 1 ∧
    (∀ k, k ≠ (codeAt s a).len.toNat → (codeAt t a).bits.getLsbD k = (codeAt s a).bits.getLsbD k) ∧
    (∀ c : Sym, c ≠ a → codeAt t c = codeAt s c) ∧ tempty t = false ∧
    t.cmdcnt = s.cmdcnt + 1#32 ∧ UnchangedBut [.code, .cmdcnt] s t) ∧
  (∀ s : State, Ready .idle s → (codeAt s a).len = 255#8 → ∃ t, exec (.ldcbit a b) s = .next t ∧
    FaultsOnly 6#8 (encode (.ldcbit a b)) s t)

/-- ENC_BEGIN opens an encode frame (R140). -/
def Obligations.EncBeginOpensFrame : Prop :=
  encode .encBegin = 0x40000000#32 ∧ OnlyWordOfOp 0x40#8 ∧ BadPhaseBut .idle .encBegin ∧
  ∀ s : State, Ready .idle s → ∃ t, exec .encBegin s = .next t ∧ t.phase = .enc ∧ t.done = 0#32 ∧
    t.cmdcnt = s.cmdcnt + 1#32 ∧ (statusWord t).extractLsb' 0 2 = 1#2 ∧
    UnchangedBut [.phase, .done, .cmdcnt] s t

/-- ENC_SYM pushes its symbol's code, or takes UnknownSymbol (R141). -/
def Obligations.EncSymPushesCode : Prop :=
  ∀ a : Sym, encode (.encSym a) = BitVec.ofNat 32 (0x41000000 + a.toNat * 2 ^ 16) ∧
  (∀ w, opField w = 0x41#8 → immField w ≠ 0#16 → IllegalWord w) ∧ BadPhaseBut .enc (.encSym a) ∧
  (∀ s : State, Ready .enc s → (codeAt s a).len ≠ 0#8 → ∃ t, exec (.encSym a) s = .next t ∧
    t.bout = s.bout ++ bitToks (codeOf s a) ∧ (codeOf s a).length = (codeAt s a).len.toNat ∧
    (∀ k, k < (codeAt s a).len.toNat → (codeOf s a)[k]? = some ((codeAt s a).bits.getLsbD k)) ∧
    t.done = s.done + 1#32 ∧ t.cmdcnt = s.cmdcnt + 1#32 ∧ UnchangedBut [.bout, .done, .cmdcnt] s t) ∧
  (∀ s : State, Ready .enc s → (codeAt s a).len = 0#8 → ∃ t, exec (.encSym a) s = .next t ∧
    FaultsOnly 3#8 (encode (.encSym a)) s t)

/-- ENC_END pushes EOF and returns to IDLE (R142). -/
def Obligations.EncEndClosesFrame : Prop :=
  encode .encEnd = 0x42000000#32 ∧ OnlyWordOfOp 0x42#8 ∧ BadPhaseBut .enc .encEnd ∧
  ∀ s : State, Ready .enc s → ∃ t, exec .encEnd s = .next t ∧ t.bout = s.bout ++ [.eof] ∧ t.phase = .idle ∧
    t.cmdcnt = s.cmdcnt + 1#32 ∧ (statusWord t).extractLsb' 0 2 = 0#2 ∧
    UnchangedBut [.bout, .phase, .cmdcnt] s t

/-- DEC_BEGIN opens a decode frame with an empty buffer (R150). -/
def Obligations.DecBeginOpensFrame : Prop :=
  encode .decBegin = 0x50000000#32 ∧ OnlyWordOfOp 0x50#8 ∧ BadPhaseBut .idle .decBegin ∧
  ∀ s : State, Ready .idle s → ∃ t, exec .decBegin s = .next t ∧ t.phase = .dec ∧ t.done = 0#32 ∧
    t.cbuf = Code.empty ∧ t.cmdcnt = s.cmdcnt + 1#32 ∧ (statusWord t).extractLsb' 0 2 = 2#2 ∧
    UnchangedBut [.phase, .done, .cbuf, .cmdcnt] s t

/-- DEC_BIT counts, appends and matches one bit (R152, R154). -/
def Obligations.DecBitAppendsAndMatches : Prop :=
  ∀ b : Bool, encode (.decBit b) = BitVec.ofNat 32 (0x51000000 + b.toNat) ∧
  (∀ w, opField w = 0x51#8 → (symField w ≠ 0#8 ∨ (immField w).toNat / 2 ≠ 0) → IllegalWord w) ∧
  BadPhaseBut .dec (.decBit b) ∧
  (∀ q : Code, q.len ≠ 255#8 → codeBits (codeSnoc q b) = codeBits q ++ [b] ∧
    ∀ k, k ≠ q.len.toNat → (codeSnoc q b).bits.getLsbD k = q.bits.getLsbD k) ∧
  ∀ s : State, Ready .dec s → ∃ t, exec (.decBit b) s = .next t ∧
    t.cmdcnt = s.cmdcnt + 1#32 ∧ t.done = s.done + 1#32 ∧
    ((∀ a : Sym, hasCode s a = false) → UnchangedBut [.cmdcnt, .done] s t) ∧
    ((∃ a : Sym, hasCode s a = true) → s.cbuf.len = 255#8 → UnchangedBut [.cmdcnt, .done] s t) ∧
    ((∃ a : Sym, hasCode s a = true) → s.cbuf.len ≠ 255#8 →
      (∀ a : Sym, OneMatch s (codeSnoc s.cbuf b) a → t.cbuf = Code.empty ∧ t.sout = s.sout ++ [.sym a] ∧
        UnchangedBut [.cmdcnt, .done, .cbuf, .sout] s t) ∧
      (NoMatch s (codeSnoc s.cbuf b) → t.cbuf = codeSnoc s.cbuf b ∧
        UnchangedBut [.cmdcnt, .done, .cbuf] s t) ∧
      (ManyMatch s (codeSnoc s.cbuf b) → t.cbuf = codeSnoc s.cbuf b ∧
        Recorded 7#8 (encode (.decBit b)) s.cmdcnt t ∧ Aborted s t ∧
        UnchangedBut ([.cmdcnt, .done, .cbuf] ++ faultElems) s t))

/-- DEC_WORD does what its bits' DEC_BITs do, stopping at a fault (R155). -/
def Obligations.DecWordIsItsBits : Prop :=
  ∀ (n : Sym) (v : Imm), n.toNat ≤ 16 →
  encode (.decWord n v) = BitVec.ofNat 32 (0x52000000 + n.toNat * 2 ^ 16 + v.toNat) ∧
  (∀ w, opField w = 0x52#8 → 16 < (symField w).toNat → IllegalWord w) ∧ BadPhaseBut .dec (.decWord n v) ∧
  ((wordBits n v).length = n.toNat ∧ ∀ k, k < n.toNat → (wordBits n v)[k]? = some (v.getLsbD k)) ∧
  ∀ s : State, Ready .dec s → ∃ t, exec (.decWord n v) s = .next t ∧ t.cmdcnt = s.cmdcnt + 1#32 ∧
    (n = 0#8 → UnchangedBut [.cmdcnt] s t) ∧
    (∀ u, runWords ((wordBits n v).map fun b => encode (.decBit b)) s = .next u → u.fault = false →
      UnchangedBut [.cmdcnt] u t) ∧
    (∀ (k : Nat) (u₀ u : State), k < n.toNat →
      runWords (((wordBits n v).take k).map fun b => encode (.decBit b)) s = .next u₀ → u₀.fault = false →
      runWords (((wordBits n v).take (k + 1)).map fun b => encode (.decBit b)) s = .next u → u.fault = true →
      Recorded 7#8 (encode (.decWord n v)) s.cmdcnt t ∧ UnchangedBut [.cmdcnt, .errcmd, .erridx] u t) ∧
    (∀ (v' : Imm) (t' : State), (∀ k, k < n.toNat → v'.getLsbD k = v.getLsbD k) →
      exec (.decWord n v') s = .next t' → UnchangedBut [.errcmd] t t')

/-- DEC_END pushes EOF on an empty buffer and takes TruncatedCode otherwise (R156). -/
def Obligations.DecEndClosesOrTruncates : Prop :=
  encode .decEnd = 0x53000000#32 ∧ OnlyWordOfOp 0x53#8 ∧ BadPhaseBut .dec .decEnd ∧
  (∀ s : State, Ready .dec s → s.cbuf.len = 0#8 → ∃ t, exec .decEnd s = .next t ∧
    t.sout = s.sout ++ [.eof] ∧ t.phase = .idle ∧ t.cmdcnt = s.cmdcnt + 1#32 ∧
    UnchangedBut [.sout, .phase, .cmdcnt] s t) ∧
  (∀ s : State, Ready .dec s → s.cbuf.len ≠ 0#8 → ∃ t, exec .decEnd s = .next t ∧
    FaultsOnly 4#8 (encode .decEnd) s t)

/-- BUILD completes in phase IDLE without a fault and writes only the tree and the codes (41_tree_builder.md R110). -/
def Obligations.BuildCompletes : Prop :=
  encode .build = 0x20000000#32 ∧ OnlyWordOfOp 0x20#8 ∧ BadPhaseBut .idle .build ∧
  ∀ s : State, Ready .idle s → ∃ t, exec .build s = .next t ∧ t.fault = false ∧
    t.cmdcnt = s.cmdcnt + 1#32 ∧ (rootv t = true ↔ ∃ a : Sym, freqAt s a ≠ 0#32) ∧
    (tempty t = true ↔ ∀ a : Sym, freqAt s a = 0#32) ∧
    UnchangedBut [.node, .root, .nleaf, .nnode, .code, .cmdcnt] s t

/-- BUILD on an empty table makes no tree, and on one symbol the code "0" (41_tree_builder.md R116, R117). -/
def Obligations.BuildSmallTables : Prop :=
  ∀ s t : State, Ready .idle s → exec .build s = .next t →
    ((∀ a : Sym, freqAt s a = 0#32) → (∀ i, nodeAt t i = Node.empty) ∧ t.root = Root.none ∧
      t.nleaf = 0#9 ∧ t.nnode = 0#10 ∧ ∀ a : Sym, codeAt t a = Code.empty) ∧
    (∀ a : Sym, freqAt s a ≠ 0#32 → (∀ b : Sym, b ≠ a → freqAt s b = 0#32) →
      nodeAt t 0 =
        ⟨true, true, true, a, BitVec.ofNat 40 (freqAt s a).toNat, 0#9, 0#9⟩ ∧
      t.root = { v := true, idx := 0#9 } ∧ t.nleaf = 1#9 ∧ t.nnode = 1#10 ∧
      codeOf t a = [false] ∧ codeAt t a = { len := 1#8, bits := 0#255 } ∧
      ∀ b : Sym, b ≠ a → codeAt t b = Code.empty)

/-- BUILD makes one leaf per symbol present, in ascending symbol order (41_tree_builder.md R113, 10_state.md R28). -/
def Obligations.BuildMakesLeavesInOrder : Prop :=
  ∀ s t : State, Ready .idle s → exec .build s = .next t →
    t.nleaf.toNat = (present s).length ∧
    t.nnode.toNat = (if t.nleaf = 0#9 then 0 else 2 * t.nleaf.toNat - 1) ∧
    ∀ i, i < t.nleaf.toNat → (present s)[i]? = some (nodeAt t i).sym ∧
      (nodeAt t i).valid = true ∧ (nodeAt t i).leaf = true ∧
      (nodeAt t i).freq.toNat = (freqAt s (nodeAt t i).sym).toNat

/-- Every internal node joins the two nodes that come first in the queue at its round (41_tree_builder.md R112, R114, R115). -/
def Obligations.BuildMergesTwoLowest : Prop :=
  ∀ s t : State, Ready .idle s → exec .build s = .next t →
    ∀ k, t.nleaf.toNat ≤ k → k < t.nnode.toNat →
      (nodeAt t k).left.toNat < k ∧ (nodeAt t k).right.toNat < k ∧
      (∀ q, t.nleaf.toNat ≤ q → q < k →
        (nodeAt t q).left ≠ (nodeAt t k).left ∧ (nodeAt t q).left ≠ (nodeAt t k).right ∧
        (nodeAt t q).right ≠ (nodeAt t k).left ∧ (nodeAt t q).right ≠ (nodeAt t k).right) ∧
      Before t (nodeAt t k).left.toNat (nodeAt t k).right.toNat ∧
      (∀ j, j < k → j ≠ (nodeAt t k).left.toNat → j ≠ (nodeAt t k).right.toNat →
        (∀ q, t.nleaf.toNat ≤ q → q < k → (nodeAt t q).left.toNat ≠ j ∧ (nodeAt t q).right.toNat ≠ j) →
        Before t (nodeAt t k).right.toNat j) ∧
      (nodeAt t k).freq.toNat =
        (nodeAt t (nodeAt t k).left.toNat).freq.toNat + (nodeAt t (nodeAt t k).right.toNat).freq.toNat

/-- The root is the last node, alone in the queue, and its frequency is the sum of all counts (41_tree_builder.md R116, R118). -/
def Obligations.BuildRootCountsEverything : Prop :=
  ∀ s t : State, Ready .idle s → exec .build s = .next t → (∃ a : Sym, freqAt s a ≠ 0#32) →
    t.root.v = true ∧ t.root.idx.toNat + 1 = t.nnode.toNat ∧ t.root.idx.toNat + 2 = 2 * t.nleaf.toNat ∧
    (∀ i, i < 511 → ((nodeAt t i).inq = true ↔ i = t.root.idx.toNat)) ∧
    (nodeAt t t.root.idx.toNat).freq.toNat = totalCount s ∧ totalCount s < 2 ^ 40

/-- With two or more symbols every code is the path from the root to its symbol's leaf (41_tree_builder.md R119, R120). -/
def Obligations.BuildCodesArePaths : Prop :=
  ∀ s t : State, Ready .idle s → exec .build s = .next t → 2 ≤ t.nleaf.toNat →
    (∀ a : Sym, freqAt s a ≠ 0#32 → LeadsTo t t.root.idx.toNat (codeOf t a) a ∧ CodeCanonical (codeAt t a)) ∧
    (∀ a : Sym, freqAt s a = 0#32 → codeAt t a = Code.empty)

/-- What BUILD writes is a function of FREQ alone (R121). -/
def Obligations.BuildDependsOnFreqAlone : Prop :=
  (∀ s s' t t' : State, Ready .idle s → Ready .idle s' → s.freq = s'.freq →
    exec .build s = .next t → exec .build s' = .next t' →
    t.node = t'.node ∧ t.root = t'.root ∧ t.nleaf = t'.nleaf ∧ t.nnode = t'.nnode ∧ t.code = t'.code) ∧
  (∀ s t u : State, Ready .idle s → exec .build s = .next t → exec .build t = .next u →
    UnchangedBut [.cmdcnt] t u)

/-- A built code table is prefix-free and covers exactly the symbols present (41_tree_builder.md R122 (a), (c)). -/
def Obligations.BuiltTableIsPrefixFreeAndCovers : Prop :=
  ∀ s t : State, Ready .idle s → exec .build s = .next t →
    PrefixFree t ∧ ∀ a : Sym, (hasCode t a = true ↔ freqAt s a ≠ 0#32)

/-- With two or more symbols every 255-bit sequence starts with exactly one code (41_tree_builder.md R122 (d)). -/
def Obligations.BuiltTableIsComplete : Prop :=
  ∀ s t : State, Ready .idle s → exec .build s = .next t → 2 ≤ t.nleaf.toNat →
    ∀ bs : Bits, bs.length = 255 → ∃ a : Sym, (hasCode t a = true ∧ codeOf t a <+: bs) ∧
      ∀ b : Sym, hasCode t b = true → codeOf t b <+: bs → b = a

/-- No prefix-free code of the symbols present has a shorter total length than a built table (41_tree_builder.md R122 (b)). -/
def Obligations.BuiltTableIsOptimal : Prop :=
  ∀ s t : State, Ready .idle s → exec .build s = .next t → ∀ c : Sym → Bits,
    (∀ a : Sym, freqAt s a ≠ 0#32 → c a ≠ []) →
    (∀ a b : Sym, a ≠ b → freqAt s a ≠ 0#32 → freqAt s b ≠ 0#32 → ¬ c a <+: c b) →
    (allSyms.map fun a => (freqAt s a).toNat * (codeOf t a).length).sum ≤
      (allSyms.map fun a => (freqAt s a).toNat * (c a).length).sum

/-- On a built table the buffer decoder emits what the walk of the arena emits (R161). -/
def Obligations.BufferDecodeIsTreeWalk : Prop :=
  ∀ s t : State, Ready .idle s → exec .build s = .next t → 2 ≤ t.nleaf.toNat →
    ∀ bs : Bits, ∃ u, runWords ((Instr.decBegin :: bs.map Instr.decBit).map encode) t = .next u ∧
      u.fault = false ∧
      u.sout = t.sout ++ (treeDecode t t.root.idx bs).1.map STok.sym ∧
      (u.cbuf.len = 0#8 ↔ (treeDecode t t.root.idx bs).2 = t.root.idx)

/-- Every step keeps the bits above a code's length at 0 (R30). -/
def Obligations.StepKeepsCodesCanonical : Prop :=
  ∀ s t : State, CodesCanonical s → step s = .next t → CodesCanonical t ∧
    ∀ (a b : Sym), (codeAt t a = codeAt t b ↔ codeOf t a = codeOf t b)

/-- Every step keeps the fault record consistent with FAULT and PHASE (10_state.md R33, 60_exceptions.md R184, R192). -/
def Obligations.StepKeepsRecordConsistent : Prop :=
  ∀ s t : State, RecordConsistent s → step s = .next t → RecordConsistent t

/-- Every step keeps frames closed outside their phase (10_state.md R39). -/
def Obligations.StepKeepsFramesClosed : Prop :=
  ∀ s t : State, FramesClosed s → step s = .next t → FramesClosed t

/-- Every step keeps the node arena a well-shaped tree (10_state.md R25 to R28, 10_state.md R42, 41_tree_builder.md R116). -/
def Obligations.StepKeepsArenaSound : Prop :=
  ∀ s t : State, ArenaSound s → step s = .next t → ArenaSound t

/-- The reset state meets the four invariants (10_state.md R30, R33, R39, R42, R43). -/
def Obligations.ResetMeetsInvariants : Prop :=
  CodesCanonical State.reset ∧ RecordConsistent State.reset ∧ FramesClosed State.reset ∧ ArenaSound State.reset

/-- Each element of the state is written only by the commands R22 lists (10_state.md R22). -/
def Obligations.OnlyTheListedCommandsWrite : Prop :=
  ∀ (i : Instr) (s t : State), exec i s = .next t →
    (t.fault = s.fault ∨ i = .clrerr → UnchangedBut (.cmdcnt :: writesOf i) s t) ∧
    UnchangedBut (.cmdcnt :: writesOf i ++ faultElems) s t

/-- A faulting command has no effect but the fault's, decoded bits excepted (R187). -/
def Obligations.FaultsArePrecise : Prop :=
  ∀ (w : Word) (s t : State), stepWord w s = .next t → s.fault = false → t.fault = true →
    Recorded t.errcode w s.cmdcnt t ∧ t.phase = .idle ∧ t.cmdcnt = s.cmdcnt + 1#32 ∧
    ((∀ b, decode w ≠ .command (.decBit b)) → (∀ n v, decode w ≠ .command (.decWord n v)) →
      FaultsOnly t.errcode w s t) ∧
    (s.phase ≠ .dec → FaultsOnly t.errcode w s t) ∧
    (∀ b, decode w = .command (.decBit b) → s.phase = .dec →
      t.done = s.done + 1#32 ∧ t.cbuf = codeSnoc s.cbuf b ∧ t.sout = s.sout ++ [.abt]) ∧
    (∀ n v, decode w = .command (.decWord n v) → s.phase = .dec →
      ∃ (k : Nat) (u₀ u : State), k < n.toNat ∧
        runWords (((wordBits n v).take k).map fun b => encode (.decBit b)) s = .next u₀ ∧ u₀.fault = false ∧
        runWords (((wordBits n v).take (k + 1)).map fun b => encode (.decBit b)) s = .next u ∧ u.fault = true ∧
        t.done = u.done ∧ t.cbuf = u.cbuf ∧ t.sout = u.sout) ∧
    UnchangedBut ([.cmdcnt, .done, .cbuf] ++ faultElems) s t

/-- One word reports at most one fault, in the order of R190 (R190). -/
def Obligations.FaultPriority : Prop :=
  ∀ (w : Word) (s t : State), stepWord w s = .next t →
    (s.fault = true → w ≠ 0x01000000#32 → UnchangedBut [.cmdcnt] s t) ∧
    (s.fault = false → (∃ why, decode w = .illegal why) → t.fault = true ∧ t.errcode = 1#8) ∧
    (s.fault = false → ∀ i, decode w = .command i →
      (legalIn i s.phase = false → t.fault = true ∧ t.errcode = 2#8) ∧
      (legalIn i s.phase = true → t.fault = true → t.errcode = ownFault i ∧ ownFault i ≠ 0#8))

/-- CMDCNT - ERRIDX - 1 counts the words dropped since the fault (R193). -/
def Obligations.DroppedWordsAreCounted : Prop :=
  ∀ (w : Word) (s t : State), stepWord w s = .next t → s.fault = false → t.fault = true →
    ∀ ws : List Word, (∀ x ∈ ws, x ≠ 0x01000000#32) → ∃ u, runWords ws t = .next u ∧
      Recorded t.errcode w s.cmdcnt u ∧
      u.cmdcnt - u.erridx - 1#32 = BitVec.ofNat 32 ws.length ∧ UnchangedBut [.cmdcnt] t u

/-- The status registers and flags read what R36 and R40 say (R36). -/
def Obligations.StatusRegistersRead : Prop :=
  statusWord State.reset = 0x00000030#32 ∧
  ∀ s : State,
  memRead s 0x0000#16 = 0x48554631#32 ∧ memRead s 0x0001#16 = 0x2820FF08#32 ∧
  (let st := memRead s 0x0002#16
   (st.extractLsb' 0 2 = (match s.phase with | .idle => 0#2 | .enc => 1#2 | .dec => 2#2)) ∧
   st.getLsbD 2 = s.fault ∧ st.getLsbD 3 = s.root.v ∧
   (st.getLsbD 4 = true ↔ ∀ a : Sym, (codeAt s a).len = 0#8) ∧
   (st.getLsbD 5 = true ↔ ∀ a : Sym, freqAt s a = 0#32) ∧ ∀ j, 6 ≤ j → st.getLsbD j = false) ∧
  (memRead s 0x0003#16).toNat = s.errcode.toNat ∧ memRead s 0x0004#16 = s.errcmd ∧
  memRead s 0x0005#16 = s.erridx ∧ memRead s 0x0006#16 = s.cmdcnt ∧ memRead s 0x0007#16 = s.done ∧
  (memRead s 0x0008#16).extractLsb' 0 9 = s.root.idx ∧ (memRead s 0x0008#16).extractLsb' 9 22 = 0#22 ∧
  (memRead s 0x0008#16).getLsbD 31 = s.root.v ∧
  (memRead s 0x0009#16).toNat = s.nleaf.toNat ∧ (memRead s 0x000A#16).toNat = s.nnode.toNat ∧
  (memRead s 0x000B#16).toNat = s.cbuf.len.toNat ∧
  (∀ w j, w < 8 → j < 32 →
    (memRead s (BitVec.ofNat 16 (0x0010 + w))).getLsbD j = s.cbuf.bits.getLsbD (32 * w + j)) ∧
  (∀ a : RbAddr, (0x000C#16 ≤ a ∧ a ≤ 0x000F#16) ∨ (0x0018#16 ≤ a ∧ a ≤ 0x00FF#16) → memRead s a = 0#32)

/-- The tables read back by the map of R66 (20_memory.md R61, R66). -/
def Obligations.TablesReadByTheMap : Prop :=
  ∀ s : State,
  (∀ a : Sym, memRead s (BitVec.ofNat 16 (0x0100 + a.toNat)) = freqAt s a) ∧
  (∀ a : Sym, (memRead s (BitVec.ofNat 16 (0x0200 + a.toNat))).toNat = (codeAt s a).len.toNat) ∧
  (∀ (a : Sym) (w j : Nat), w < 8 → j < 32 →
    (memRead s (BitVec.ofNat 16 (0x0800 + 8 * a.toNat + w))).getLsbD j =
      (codeAt s a).bits.getLsbD (32 * w + j)) ∧
  (∀ i, i < 511 →
    let w₀ := memRead s (BitVec.ofNat 16 (0x1000 + 4 * i))
    let w₃ := memRead s (BitVec.ofNat 16 (0x1000 + 4 * i + 3))
    (w₀.getLsbD 0 = (nodeAt s i).valid ∧ w₀.getLsbD 1 = (nodeAt s i).leaf ∧ w₀.getLsbD 2 = (nodeAt s i).inq ∧
      w₀.extractLsb' 3 5 = 0#5 ∧ w₀.extractLsb' 8 8 = (nodeAt s i).sym ∧ w₀.extractLsb' 16 16 = 0#16) ∧
    (memRead s (BitVec.ofNat 16 (0x1000 + 4 * i + 1))).toNat = (nodeAt s i).freq.toNat % 2 ^ 32 ∧
    (memRead s (BitVec.ofNat 16 (0x1000 + 4 * i + 2))).toNat = (nodeAt s i).freq.toNat / 2 ^ 32 ∧
    (w₃.extractLsb' 0 9 = (nodeAt s i).left ∧ w₃.extractLsb' 9 7 = 0#7 ∧
      w₃.extractLsb' 16 9 = (nodeAt s i).right ∧ w₃.extractLsb' 25 7 = 0#7)) ∧
  (∀ a : RbAddr, (0x0300#16 ≤ a ∧ a ≤ 0x07FF#16) ∨ 0x17FC#16 ≤ a → memRead s a = 0#32)

/-- A command changes the readback of no table entry it does not store to (20_memory.md R62, R66, R70). -/
def Obligations.StoresChangeOnlyTheirReadback : Prop :=
  (∀ (i : Instr) (s t : State) (a : RbAddr), exec i s = .next t → 0x0100 ≤ a.toNat → ¬ storesAt i a.toNat →
    memRead t a = memRead s a) ∧
  (∀ (w : Word) (s t : State) (a : RbAddr), stepWord w s = .next t → (∃ why, decode w = .illegal why) →
    0x0100 ≤ a.toNat → memRead t a = memRead s a)

/-- A push waits at the port (log entry 1), a read and a taking change nothing, reset resets and drops waiting words (log entry 3) (60_exceptions.md R199, 20_memory.md R63, 70_reset_and_hazards.md R210). -/
def Obligations.HostMovesActAsListed : Prop :=
  ∀ s : State, (∀ w, (hostMove (.push w) s).port = s.port ++ [w] ∧ UnchangedBut [.port] s (hostMove (.push w) s)) ∧
    (∀ a, hostMove (.read a) s = s ∧ hostReads (.read a) s = some (memRead s a)) ∧
    (∀ n, hostMove (.takeBits n) s = s ∧ hostMove (.takeSymbols n) s = s) ∧
    hostMove .reset s = State.reset

/-- CLRFREQ and one FSYM per symbol give the count of each symbol (40_frequency.md R100). -/
def Obligations.CountingGivesTheFrequencies : Prop :=
  ∀ (s : State) (ts : List Sym), Ready .idle s → (∀ a : Sym, ts.count a < 2 ^ 32) →
    ∃ t, runWords ((Instr.clrfreq :: pseudoCount ts).map encode) s = .next t ∧ Clean t ∧
      ∀ a : Sym, (freqAt t a).toNat = ts.count a

/-- An encode frame carries the codes in order, then EOF, or ABT at the first unknown symbol (R145). -/
def Obligations.FrameEquation : Prop :=
  ∀ s : State, Ready .idle s →
  (∀ ts : List Sym, (∀ a ∈ ts, hasCode s a = true) → ∃ t, runWords ((pseudoEncode ts).map encode) s = .next t ∧
    t.bout = s.bout ++ (bitToks (codesOf s ts) ++ [.eof]) ∧ Clean t ∧
    (codesOf s ts).length = (ts.map fun a => (codeAt s a).len.toNat).sum ∧
    t.done = BitVec.ofNat 32 ts.length ∧ UnchangedBut [.bout, .done, .cmdcnt] s t) ∧
  (∀ (pre post : List Sym) (a : Sym), (∀ b ∈ pre, hasCode s b = true) → hasCode s a = false →
    ∃ u t, runWords ((Instr.encBegin :: (pre ++ [a]).map Instr.encSym).map encode) s = .next u ∧
    u.fault = true ∧
    runWords ((pseudoEncode (pre ++ a :: post)).map encode) s = .next t ∧ UnchangedBut [.cmdcnt] u t ∧
    t.bout = s.bout ++ (bitToks (codesOf s pre) ++ [.abt]) ∧
    Recorded 3#8 (encode (.encSym a)) (s.cmdcnt + 1#32 + BitVec.ofNat 32 pre.length) t ∧
    t.done = BitVec.ofNat 32 pre.length ∧
    t.cmdcnt = s.cmdcnt + BitVec.ofNat 32 (pre.length + post.length + 3))

/-- With an empty code table every bit is counted and discarded and the frame ends cleanly (R159). -/
def Obligations.EmptyTableDecodesToNothing : Prop :=
  ∀ (s : State) (bs : Bits), Ready .idle s → (∀ a : Sym, hasCode s a = false) →
    ∃ t, runWords ((pseudoDecode bs).map encode) s = .next t ∧ Clean t ∧ t.sout = s.sout ++ [.eof] ∧
      t.cbuf = Code.empty ∧ t.done = BitVec.ofNat 32 bs.length ∧
      UnchangedBut [.sout, .cbuf, .done, .cmdcnt] s t

/-- Bits that reach a full buffer are discarded and the frame ends in TruncatedCode (44_decoder.md R152, R156, R160). -/
def Obligations.FullBufferEndsTruncated : Prop :=
  ∀ (s : State) (bs : Bits), Ready .dec s → s.cbuf.len = 255#8 →
    ∃ t, runWords ((bs.map Instr.decBit ++ [Instr.decEnd]).map encode) s = .next t ∧
      t.sout = s.sout ++ [.abt] ∧ t.cbuf = s.cbuf ∧ t.done = s.done + BitVec.ofNat 32 bs.length ∧
      Recorded 4#8 0x53000000#32 (s.cmdcnt + BitVec.ofNat 32 bs.length) t

/-- A prefix-free table has no duplicate and never takes AmbiguousCode (42_code_table.md R133, 44_decoder.md R153). -/
def Obligations.PrefixFreeTableIsNeverAmbiguous : Prop :=
  ∀ s : State, CodesCanonical s → PrefixFree s → ¬ HasDuplicate s ∧
    ∀ (w : Word) (t : State), s.fault = false → stepWord w s = .next t → ¬ (t.fault = true ∧ t.errcode = 7#8)

/-- With a prefix-free table, decoding an encode frame gives the symbols back (44_decoder.md R158). -/
def Obligations.RoundTripPrefixFreeTable : Prop :=
  ∀ (s : State) (ts : List Sym), Ready .idle s → CodesCanonical s → PrefixFree s →
    (∀ a ∈ ts, hasCode s a = true) →
    ∃ (bs : Bits) (t u v : State), runWords ((pseudoEncode ts).map encode) s = .next t ∧ Clean t ∧
      t.bout = s.bout ++ (bitToks bs ++ [.eof]) ∧
      runWords ((pseudoDecode bs).map encode) t = .next u ∧ Clean u ∧
      u.sout = t.sout ++ (ts.map STok.sym ++ [.eof]) ∧
      runWords ((pseudoDecodew bs).map encode) t = .next v ∧ Clean v ∧
      v.sout = t.sout ++ (ts.map STok.sym ++ [.eof])

/-- From reset: build the table of a sequence, encode it, decode it, and get it back (44_decoder.md R158). -/
def Obligations.RoundTripFromReset : Prop :=
  ∀ ts : List Sym, (∀ a : Sym, ts.count a < 2 ^ 32) →
    ∃ (bs : Bits) (t u v : State), runWords ((pseudoBuildtable ts ++ pseudoEncode ts).map encode) State.reset = .next t ∧ Clean t ∧
      t.bout = bitToks bs ++ [.eof] ∧
      runWords ((pseudoDecode bs).map encode) t = .next u ∧ Clean u ∧
      u.sout = ts.map STok.sym ++ [.eof] ∧
      runWords ((pseudoDecodew bs).map encode) t = .next v ∧ Clean v ∧
      v.sout = ts.map STok.sym ++ [.eof]
end

