-- ==== Sys2Proof/Laws/BitSeq.lean ====
section
/-! SUPPORT. Laws/BitSeq.lean: codes and the candidate buffer as bit sequences (00_scope.md R9; 10_state.md
R29, R30). -/

namespace Sys2Proof.Machine

open Sys2Proof.Safety

/-- The vector with one bit set, at position `k`. -/
theorem getLsbD_one_shiftLeft (k j : Nat) (hk : k < 255) : (1#255 <<< k).getLsbD j = decide (j = k) := by
  rw [BitVec.getLsbD_shiftLeft, BitVec.getLsbD_one]
  by_cases h : j = k
  · simp [h, hk]
  · by_cases h' : j < k
    · simp [h, h']
    · have : j - k ≠ 0 := by omega
      simp [h, this]

/-- `v[k] <- b` sets position `k` and no other. -/
theorem getLsbD_setBit (v : CodeBits) (k : Nat) (b : Bool) (j : Nat) (hk : k < 255) :
    (setBit v k b).getLsbD j = if j = k then b else v.getLsbD j := by
  have h₁ := getLsbD_one_shiftLeft k j hk
  by_cases h : j = k
  · subst h
    cases b <;> simp [setBit, h₁]
  · cases b
    · by_cases hj : j < 255
      · rw [setBit, if_neg (by decide), BitVec.getLsbD_and, BitVec.getLsbD_not, h₁]
        simp [h, hj]
      · rw [BitVec.getLsbD_of_ge _ j (by omega), if_neg h, BitVec.getLsbD_of_ge v j (by omega)]
    · rw [setBit, if_pos rfl, BitVec.getLsbD_or, h₁]
      simp [h]

@[simp] theorem codeSnoc_len (c : Code) (b : Bool) : (codeSnoc c b).len = c.len + 1#8 := rfl

theorem codeSnoc_len_toNat (c : Code) (b : Bool) (h : c.len ≠ 255#8) :
    (codeSnoc c b).len.toNat = c.len.toNat + 1 := by
  have hlt : c.len.toNat < 255 := by
    have := c.len.isLt
    have : c.len.toNat ≠ 255 := fun e => h (BitVec.eq_of_toNat_eq (by simpa using e))
    omega
  simp [BitVec.toNat_add]
  omega

theorem len_lt_of_ne {c : Code} (h : c.len ≠ 255#8) : c.len.toNat < 255 := by
  have := c.len.isLt
  have : c.len.toNat ≠ 255 := fun e => h (BitVec.eq_of_toNat_eq (by simpa using e))
  omega

theorem codeSnoc_getLsbD (c : Code) (b : Bool) (h : c.len ≠ 255#8) (j : Nat) :
    (codeSnoc c b).bits.getLsbD j = if j = c.len.toNat then b else c.bits.getLsbD j :=
  getLsbD_setBit _ _ _ _ (len_lt_of_ne h)

@[simp] theorem codeBits_length (c : Code) : (codeBits c).length = c.len.toNat := by simp [codeBits]

theorem codeBits_getElem? (c : Code) (k : Nat) (h : k < c.len.toNat) :
    (codeBits c)[k]? = some (c.bits.getLsbD k) := by simp [codeBits, h]

@[simp] theorem codeBits_empty : codeBits Code.empty = [] := rfl

/-- Appending a bit to a code appends it to its sequence. -/
theorem codeBits_codeSnoc (c : Code) (b : Bool) (h : c.len ≠ 255#8) :
    codeBits (codeSnoc c b) = codeBits c ++ [b] := by
  rw [codeBits, codeSnoc_len_toNat c b h, List.range_succ, List.map_append, codeBits]
  congr 1
  · apply List.map_congr_left
    intro k hk
    rw [codeSnoc_getLsbD c b h, if_neg (by simp at hk; omega)]
  · simp only [List.map_cons, List.map_nil]
    rw [codeSnoc_getLsbD c b h, if_pos rfl]

theorem codeCanonical_empty : CodeCanonical Code.empty := by
  intro k _
  simp [Code.empty]

/-- R30: appending keeps the bits above the length at 0. -/
theorem codeCanonical_codeSnoc {c : Code} (hc : CodeCanonical c) (b : Bool) (h : c.len ≠ 255#8) :
    CodeCanonical (codeSnoc c b) := by
  intro k hk
  rw [codeSnoc_len_toNat c b h] at hk
  rw [codeSnoc_getLsbD c b h, if_neg (by omega)]
  exact hc k (by omega)

/-- R30: canonical codes are equal exactly when their bit sequences are. -/
theorem codeBits_inj {c d : Code} (hc : CodeCanonical c) (hd : CodeCanonical d) :
    codeBits c = codeBits d ↔ c = d := by
  refine ⟨fun h => ?_, fun h => by rw [h]⟩
  have hl : c.len.toNat = d.len.toNat := by simpa using congrArg List.length h
  have hb : c.bits = d.bits := by
    apply BitVec.eq_of_getLsbD_eq
    intro k _
    by_cases hk : k < c.len.toNat
    · have := congrArg (fun l => l[k]?) h
      simpa [codeBits_getElem? c k hk, codeBits_getElem? d k (hl ▸ hk)] using this
    · rw [hc k (by omega), hd k (by omega)]
  cases c; cases d
  simp only [Code.mk.injEq]
  exact ⟨BitVec.eq_of_toNat_eq hl, hb⟩

theorem foldl_codeSnoc (bs : Bits) (c : Code) (hc : CodeCanonical c) (h : c.len.toNat + bs.length ≤ 255) :
    codeBits (bs.foldl codeSnoc c) = codeBits c ++ bs ∧ CodeCanonical (bs.foldl codeSnoc c) ∧
      (bs.foldl codeSnoc c).len.toNat = c.len.toNat + bs.length := by
  induction bs generalizing c with
  | nil => simpa using hc
  | cons b bs ih =>
    have hne : c.len ≠ 255#8 := by
      intro e
      simp [e] at h
    have hl := codeSnoc_len_toNat c b hne
    have := ih (codeSnoc c b) (codeCanonical_codeSnoc hc b hne) (by simp at h; omega)
    rw [List.foldl_cons, this.1, codeBits_codeSnoc c b hne]
    refine ⟨by simp, this.2.1, ?_⟩
    rw [this.2.2, hl, List.length_cons]
    omega

/-- R9: packing a sequence of at most 255 bits and reading it back gives it. -/
theorem codeBits_packBits (bs : Bits) (h : bs.length ≤ 255) : codeBits (packBits bs) = bs := by
  rw [packBits]
  simpa using (foldl_codeSnoc bs Code.empty codeCanonical_empty (by simpa [Code.empty] using h)).1

theorem codeCanonical_packBits (bs : Bits) (h : bs.length ≤ 255) : CodeCanonical (packBits bs) :=
  (foldl_codeSnoc bs Code.empty codeCanonical_empty (by simpa [Code.empty] using h)).2.1

theorem packBits_len (bs : Bits) (h : bs.length ≤ 255) : (packBits bs).len.toNat = bs.length := by
  rw [packBits]
  simpa [Code.empty] using
    (foldl_codeSnoc bs Code.empty codeCanonical_empty (by simpa [Code.empty] using h)).2.2

/-- The bit-output shifter appends one token per bit and changes nothing else (R141). -/
theorem shiftOut_eq (bs : Bits) (s : State) : shiftOut bs s = { s with bout := s.bout ++ bitToks bs } := by
  induction bs generalizing s with
  | nil => simp [shiftOut, bitToks]
  | cons b bs ih =>
    have := ih (pushB (bitTok b) s)
    simp only [shiftOut, List.foldl_cons] at this ⊢
    rw [this]
    simp [pushB, bitToks]

@[simp] theorem wordBits_length (n : Sym) (v : Imm) : (wordBits n v).length = n.toNat := by simp [wordBits]

theorem wordBits_getElem? (n : Sym) (v : Imm) (k : Nat) (h : k < n.toNat) :
    (wordBits n v)[k]? = some (v.getLsbD k) := by simp [wordBits, h]

end Sys2Proof.Machine
end

