-- ==== Sys2Proof/Laws/State.lean ====
section
/-! SUPPORT. Laws/State.lean: for each update of the state, what each field holds after it. Every lemma is
true by rfl, so no later proof unfolds a record update. -/

namespace Sys2Proof.Machine

/-! ### setFreq -/

@[simp] theorem setFreq_freq (sym : Sym) (v : Freq) (s : State) :
    (setFreq sym v s).freq = s.freq.set sym.toNat v sym.isLt := rfl
@[simp] theorem setFreq_node (sym : Sym) (v : Freq) (s : State) : (setFreq sym v s).node = s.node := rfl
@[simp] theorem setFreq_root (sym : Sym) (v : Freq) (s : State) : (setFreq sym v s).root = s.root := rfl
@[simp] theorem setFreq_nleaf (sym : Sym) (v : Freq) (s : State) : (setFreq sym v s).nleaf = s.nleaf := rfl
@[simp] theorem setFreq_nnode (sym : Sym) (v : Freq) (s : State) : (setFreq sym v s).nnode = s.nnode := rfl
@[simp] theorem setFreq_code (sym : Sym) (v : Freq) (s : State) : (setFreq sym v s).code = s.code := rfl
@[simp] theorem setFreq_cbuf (sym : Sym) (v : Freq) (s : State) : (setFreq sym v s).cbuf = s.cbuf := rfl
@[simp] theorem setFreq_phase (sym : Sym) (v : Freq) (s : State) : (setFreq sym v s).phase = s.phase := rfl
@[simp] theorem setFreq_fault (sym : Sym) (v : Freq) (s : State) : (setFreq sym v s).fault = s.fault := rfl
@[simp] theorem setFreq_errcode (sym : Sym) (v : Freq) (s : State) :
    (setFreq sym v s).errcode = s.errcode := rfl
@[simp] theorem setFreq_errcmd (sym : Sym) (v : Freq) (s : State) :
    (setFreq sym v s).errcmd = s.errcmd := rfl
@[simp] theorem setFreq_erridx (sym : Sym) (v : Freq) (s : State) :
    (setFreq sym v s).erridx = s.erridx := rfl
@[simp] theorem setFreq_cmdcnt (sym : Sym) (v : Freq) (s : State) :
    (setFreq sym v s).cmdcnt = s.cmdcnt := rfl
@[simp] theorem setFreq_done (sym : Sym) (v : Freq) (s : State) : (setFreq sym v s).done = s.done := rfl
@[simp] theorem setFreq_bout (sym : Sym) (v : Freq) (s : State) : (setFreq sym v s).bout = s.bout := rfl
@[simp] theorem setFreq_sout (sym : Sym) (v : Freq) (s : State) : (setFreq sym v s).sout = s.sout := rfl
@[simp] theorem setFreq_port (sym : Sym) (v : Freq) (s : State) : (setFreq sym v s).port = s.port := rfl

/-! ### setCode -/

@[simp] theorem setCode_freq (sym : Sym) (c : Code) (s : State) : (setCode sym c s).freq = s.freq := rfl
@[simp] theorem setCode_node (sym : Sym) (c : Code) (s : State) : (setCode sym c s).node = s.node := rfl
@[simp] theorem setCode_root (sym : Sym) (c : Code) (s : State) : (setCode sym c s).root = s.root := rfl
@[simp] theorem setCode_nleaf (sym : Sym) (c : Code) (s : State) : (setCode sym c s).nleaf = s.nleaf := rfl
@[simp] theorem setCode_nnode (sym : Sym) (c : Code) (s : State) : (setCode sym c s).nnode = s.nnode := rfl
@[simp] theorem setCode_code (sym : Sym) (c : Code) (s : State) :
    (setCode sym c s).code = s.code.set sym.toNat c sym.isLt := rfl
@[simp] theorem setCode_cbuf (sym : Sym) (c : Code) (s : State) : (setCode sym c s).cbuf = s.cbuf := rfl
@[simp] theorem setCode_phase (sym : Sym) (c : Code) (s : State) : (setCode sym c s).phase = s.phase := rfl
@[simp] theorem setCode_fault (sym : Sym) (c : Code) (s : State) : (setCode sym c s).fault = s.fault := rfl
@[simp] theorem setCode_errcode (sym : Sym) (c : Code) (s : State) :
    (setCode sym c s).errcode = s.errcode := rfl
@[simp] theorem setCode_errcmd (sym : Sym) (c : Code) (s : State) :
    (setCode sym c s).errcmd = s.errcmd := rfl
@[simp] theorem setCode_erridx (sym : Sym) (c : Code) (s : State) :
    (setCode sym c s).erridx = s.erridx := rfl
@[simp] theorem setCode_cmdcnt (sym : Sym) (c : Code) (s : State) :
    (setCode sym c s).cmdcnt = s.cmdcnt := rfl
@[simp] theorem setCode_done (sym : Sym) (c : Code) (s : State) : (setCode sym c s).done = s.done := rfl
@[simp] theorem setCode_bout (sym : Sym) (c : Code) (s : State) : (setCode sym c s).bout = s.bout := rfl
@[simp] theorem setCode_sout (sym : Sym) (c : Code) (s : State) : (setCode sym c s).sout = s.sout := rfl
@[simp] theorem setCode_port (sym : Sym) (c : Code) (s : State) : (setCode sym c s).port = s.port := rfl

/-! ### pushB -/

@[simp] theorem pushB_freq (t : BTok) (s : State) : (pushB t s).freq = s.freq := rfl
@[simp] theorem pushB_node (t : BTok) (s : State) : (pushB t s).node = s.node := rfl
@[simp] theorem pushB_root (t : BTok) (s : State) : (pushB t s).root = s.root := rfl
@[simp] theorem pushB_nleaf (t : BTok) (s : State) : (pushB t s).nleaf = s.nleaf := rfl
@[simp] theorem pushB_nnode (t : BTok) (s : State) : (pushB t s).nnode = s.nnode := rfl
@[simp] theorem pushB_code (t : BTok) (s : State) : (pushB t s).code = s.code := rfl
@[simp] theorem pushB_cbuf (t : BTok) (s : State) : (pushB t s).cbuf = s.cbuf := rfl
@[simp] theorem pushB_phase (t : BTok) (s : State) : (pushB t s).phase = s.phase := rfl
@[simp] theorem pushB_fault (t : BTok) (s : State) : (pushB t s).fault = s.fault := rfl
@[simp] theorem pushB_errcode (t : BTok) (s : State) : (pushB t s).errcode = s.errcode := rfl
@[simp] theorem pushB_errcmd (t : BTok) (s : State) : (pushB t s).errcmd = s.errcmd := rfl
@[simp] theorem pushB_erridx (t : BTok) (s : State) : (pushB t s).erridx = s.erridx := rfl
@[simp] theorem pushB_cmdcnt (t : BTok) (s : State) : (pushB t s).cmdcnt = s.cmdcnt := rfl
@[simp] theorem pushB_done (t : BTok) (s : State) : (pushB t s).done = s.done := rfl
@[simp] theorem pushB_bout (t : BTok) (s : State) : (pushB t s).bout = s.bout ++ [t] := rfl
@[simp] theorem pushB_sout (t : BTok) (s : State) : (pushB t s).sout = s.sout := rfl
@[simp] theorem pushB_port (t : BTok) (s : State) : (pushB t s).port = s.port := rfl

/-! ### pushS -/

@[simp] theorem pushS_freq (t : STok) (s : State) : (pushS t s).freq = s.freq := rfl
@[simp] theorem pushS_node (t : STok) (s : State) : (pushS t s).node = s.node := rfl
@[simp] theorem pushS_root (t : STok) (s : State) : (pushS t s).root = s.root := rfl
@[simp] theorem pushS_nleaf (t : STok) (s : State) : (pushS t s).nleaf = s.nleaf := rfl
@[simp] theorem pushS_nnode (t : STok) (s : State) : (pushS t s).nnode = s.nnode := rfl
@[simp] theorem pushS_code (t : STok) (s : State) : (pushS t s).code = s.code := rfl
@[simp] theorem pushS_cbuf (t : STok) (s : State) : (pushS t s).cbuf = s.cbuf := rfl
@[simp] theorem pushS_phase (t : STok) (s : State) : (pushS t s).phase = s.phase := rfl
@[simp] theorem pushS_fault (t : STok) (s : State) : (pushS t s).fault = s.fault := rfl
@[simp] theorem pushS_errcode (t : STok) (s : State) : (pushS t s).errcode = s.errcode := rfl
@[simp] theorem pushS_errcmd (t : STok) (s : State) : (pushS t s).errcmd = s.errcmd := rfl
@[simp] theorem pushS_erridx (t : STok) (s : State) : (pushS t s).erridx = s.erridx := rfl
@[simp] theorem pushS_cmdcnt (t : STok) (s : State) : (pushS t s).cmdcnt = s.cmdcnt := rfl
@[simp] theorem pushS_done (t : STok) (s : State) : (pushS t s).done = s.done := rfl
@[simp] theorem pushS_bout (t : STok) (s : State) : (pushS t s).bout = s.bout := rfl
@[simp] theorem pushS_sout (t : STok) (s : State) : (pushS t s).sout = s.sout ++ [t] := rfl
@[simp] theorem pushS_port (t : STok) (s : State) : (pushS t s).port = s.port := rfl

/-! ### countWord -/

@[simp] theorem countWord_freq (s : State) : (countWord s).freq = s.freq := rfl
@[simp] theorem countWord_node (s : State) : (countWord s).node = s.node := rfl
@[simp] theorem countWord_root (s : State) : (countWord s).root = s.root := rfl
@[simp] theorem countWord_nleaf (s : State) : (countWord s).nleaf = s.nleaf := rfl
@[simp] theorem countWord_nnode (s : State) : (countWord s).nnode = s.nnode := rfl
@[simp] theorem countWord_code (s : State) : (countWord s).code = s.code := rfl
@[simp] theorem countWord_cbuf (s : State) : (countWord s).cbuf = s.cbuf := rfl
@[simp] theorem countWord_phase (s : State) : (countWord s).phase = s.phase := rfl
@[simp] theorem countWord_fault (s : State) : (countWord s).fault = s.fault := rfl
@[simp] theorem countWord_errcode (s : State) : (countWord s).errcode = s.errcode := rfl
@[simp] theorem countWord_errcmd (s : State) : (countWord s).errcmd = s.errcmd := rfl
@[simp] theorem countWord_erridx (s : State) : (countWord s).erridx = s.erridx := rfl
@[simp] theorem countWord_cmdcnt (s : State) : (countWord s).cmdcnt = s.cmdcnt + 1#32 := rfl
@[simp] theorem countWord_done (s : State) : (countWord s).done = s.done := rfl
@[simp] theorem countWord_bout (s : State) : (countWord s).bout = s.bout := rfl
@[simp] theorem countWord_sout (s : State) : (countWord s).sout = s.sout := rfl
@[simp] theorem countWord_port (s : State) : (countWord s).port = s.port := rfl

/-! ### clearRecord -/

@[simp] theorem clearRecord_freq (s : State) : (clearRecord s).freq = s.freq := rfl
@[simp] theorem clearRecord_node (s : State) : (clearRecord s).node = s.node := rfl
@[simp] theorem clearRecord_root (s : State) : (clearRecord s).root = s.root := rfl
@[simp] theorem clearRecord_nleaf (s : State) : (clearRecord s).nleaf = s.nleaf := rfl
@[simp] theorem clearRecord_nnode (s : State) : (clearRecord s).nnode = s.nnode := rfl
@[simp] theorem clearRecord_code (s : State) : (clearRecord s).code = s.code := rfl
@[simp] theorem clearRecord_cbuf (s : State) : (clearRecord s).cbuf = s.cbuf := rfl
@[simp] theorem clearRecord_phase (s : State) : (clearRecord s).phase = s.phase := rfl
@[simp] theorem clearRecord_fault (s : State) : (clearRecord s).fault = false := rfl
@[simp] theorem clearRecord_errcode (s : State) : (clearRecord s).errcode = 0#8 := rfl
@[simp] theorem clearRecord_errcmd (s : State) : (clearRecord s).errcmd = 0#32 := rfl
@[simp] theorem clearRecord_erridx (s : State) : (clearRecord s).erridx = 0#32 := rfl
@[simp] theorem clearRecord_cmdcnt (s : State) : (clearRecord s).cmdcnt = s.cmdcnt := rfl
@[simp] theorem clearRecord_done (s : State) : (clearRecord s).done = s.done := rfl
@[simp] theorem clearRecord_bout (s : State) : (clearRecord s).bout = s.bout := rfl
@[simp] theorem clearRecord_sout (s : State) : (clearRecord s).sout = s.sout := rfl
@[simp] theorem clearRecord_port (s : State) : (clearRecord s).port = s.port := rfl

/-! ### raise -/

@[simp] theorem raise_freq (c : Cause) (w idx : Word) (s : State) : (raise c w idx s).freq = s.freq := rfl
@[simp] theorem raise_node (c : Cause) (w idx : Word) (s : State) : (raise c w idx s).node = s.node := rfl
@[simp] theorem raise_root (c : Cause) (w idx : Word) (s : State) : (raise c w idx s).root = s.root := rfl
@[simp] theorem raise_nleaf (c : Cause) (w idx : Word) (s : State) :
    (raise c w idx s).nleaf = s.nleaf := rfl
@[simp] theorem raise_nnode (c : Cause) (w idx : Word) (s : State) :
    (raise c w idx s).nnode = s.nnode := rfl
@[simp] theorem raise_code (c : Cause) (w idx : Word) (s : State) : (raise c w idx s).code = s.code := rfl
@[simp] theorem raise_cbuf (c : Cause) (w idx : Word) (s : State) : (raise c w idx s).cbuf = s.cbuf := rfl
@[simp] theorem raise_phase (c : Cause) (w idx : Word) (s : State) : (raise c w idx s).phase = .idle := rfl
@[simp] theorem raise_fault (c : Cause) (w idx : Word) (s : State) : (raise c w idx s).fault = true := rfl
@[simp] theorem raise_errcode (c : Cause) (w idx : Word) (s : State) :
    (raise c w idx s).errcode = causeCode c := rfl
@[simp] theorem raise_errcmd (c : Cause) (w idx : Word) (s : State) : (raise c w idx s).errcmd = w := rfl
@[simp] theorem raise_erridx (c : Cause) (w idx : Word) (s : State) : (raise c w idx s).erridx = idx := rfl
@[simp] theorem raise_cmdcnt (c : Cause) (w idx : Word) (s : State) :
    (raise c w idx s).cmdcnt = s.cmdcnt := rfl
@[simp] theorem raise_done (c : Cause) (w idx : Word) (s : State) : (raise c w idx s).done = s.done := rfl
@[simp] theorem raise_bout (c : Cause) (w idx : Word) (s : State) :
    (raise c w idx s).bout = if s.phase = .enc then s.bout ++ [.abt] else s.bout := rfl
@[simp] theorem raise_sout (c : Cause) (w idx : Word) (s : State) :
    (raise c w idx s).sout = if s.phase = .dec then s.sout ++ [.abt] else s.sout := rfl
@[simp] theorem raise_port (c : Cause) (w idx : Word) (s : State) : (raise c w idx s).port = s.port := rfl

/-! ### clearFreq -/

@[simp] theorem clearFreq_freq (s : State) : (clearFreq s).freq = Vector.replicate 256 0#32 := rfl
@[simp] theorem clearFreq_node (s : State) : (clearFreq s).node = s.node := rfl
@[simp] theorem clearFreq_root (s : State) : (clearFreq s).root = s.root := rfl
@[simp] theorem clearFreq_nleaf (s : State) : (clearFreq s).nleaf = s.nleaf := rfl
@[simp] theorem clearFreq_nnode (s : State) : (clearFreq s).nnode = s.nnode := rfl
@[simp] theorem clearFreq_code (s : State) : (clearFreq s).code = s.code := rfl
@[simp] theorem clearFreq_cbuf (s : State) : (clearFreq s).cbuf = s.cbuf := rfl
@[simp] theorem clearFreq_phase (s : State) : (clearFreq s).phase = s.phase := rfl
@[simp] theorem clearFreq_fault (s : State) : (clearFreq s).fault = s.fault := rfl
@[simp] theorem clearFreq_errcode (s : State) : (clearFreq s).errcode = s.errcode := rfl
@[simp] theorem clearFreq_errcmd (s : State) : (clearFreq s).errcmd = s.errcmd := rfl
@[simp] theorem clearFreq_erridx (s : State) : (clearFreq s).erridx = s.erridx := rfl
@[simp] theorem clearFreq_cmdcnt (s : State) : (clearFreq s).cmdcnt = s.cmdcnt := rfl
@[simp] theorem clearFreq_done (s : State) : (clearFreq s).done = s.done := rfl
@[simp] theorem clearFreq_bout (s : State) : (clearFreq s).bout = s.bout := rfl
@[simp] theorem clearFreq_sout (s : State) : (clearFreq s).sout = s.sout := rfl
@[simp] theorem clearFreq_port (s : State) : (clearFreq s).port = s.port := rfl

/-! ### clearCode -/

@[simp] theorem clearCode_freq (s : State) : (clearCode s).freq = s.freq := rfl
@[simp] theorem clearCode_node (s : State) : (clearCode s).node = s.node := rfl
@[simp] theorem clearCode_root (s : State) : (clearCode s).root = s.root := rfl
@[simp] theorem clearCode_nleaf (s : State) : (clearCode s).nleaf = s.nleaf := rfl
@[simp] theorem clearCode_nnode (s : State) : (clearCode s).nnode = s.nnode := rfl
@[simp] theorem clearCode_code (s : State) : (clearCode s).code = Vector.replicate 256 Code.empty := rfl
@[simp] theorem clearCode_cbuf (s : State) : (clearCode s).cbuf = s.cbuf := rfl
@[simp] theorem clearCode_phase (s : State) : (clearCode s).phase = s.phase := rfl
@[simp] theorem clearCode_fault (s : State) : (clearCode s).fault = s.fault := rfl
@[simp] theorem clearCode_errcode (s : State) : (clearCode s).errcode = s.errcode := rfl
@[simp] theorem clearCode_errcmd (s : State) : (clearCode s).errcmd = s.errcmd := rfl
@[simp] theorem clearCode_erridx (s : State) : (clearCode s).erridx = s.erridx := rfl
@[simp] theorem clearCode_cmdcnt (s : State) : (clearCode s).cmdcnt = s.cmdcnt := rfl
@[simp] theorem clearCode_done (s : State) : (clearCode s).done = s.done := rfl
@[simp] theorem clearCode_bout (s : State) : (clearCode s).bout = s.bout := rfl
@[simp] theorem clearCode_sout (s : State) : (clearCode s).sout = s.sout := rfl
@[simp] theorem clearCode_port (s : State) : (clearCode s).port = s.port := rfl

/-! ### clearTree -/

@[simp] theorem clearTree_freq (s : State) : (clearTree s).freq = s.freq := rfl
@[simp] theorem clearTree_node (s : State) : (clearTree s).node = Vector.replicate 511 Node.empty := rfl
@[simp] theorem clearTree_root (s : State) : (clearTree s).root = Root.none := rfl
@[simp] theorem clearTree_nleaf (s : State) : (clearTree s).nleaf = 0#9 := rfl
@[simp] theorem clearTree_nnode (s : State) : (clearTree s).nnode = 0#10 := rfl
@[simp] theorem clearTree_code (s : State) : (clearTree s).code = s.code := rfl
@[simp] theorem clearTree_cbuf (s : State) : (clearTree s).cbuf = s.cbuf := rfl
@[simp] theorem clearTree_phase (s : State) : (clearTree s).phase = s.phase := rfl
@[simp] theorem clearTree_fault (s : State) : (clearTree s).fault = s.fault := rfl
@[simp] theorem clearTree_errcode (s : State) : (clearTree s).errcode = s.errcode := rfl
@[simp] theorem clearTree_errcmd (s : State) : (clearTree s).errcmd = s.errcmd := rfl
@[simp] theorem clearTree_erridx (s : State) : (clearTree s).erridx = s.erridx := rfl
@[simp] theorem clearTree_cmdcnt (s : State) : (clearTree s).cmdcnt = s.cmdcnt := rfl
@[simp] theorem clearTree_done (s : State) : (clearTree s).done = s.done := rfl
@[simp] theorem clearTree_bout (s : State) : (clearTree s).bout = s.bout := rfl
@[simp] theorem clearTree_sout (s : State) : (clearTree s).sout = s.sout := rfl
@[simp] theorem clearTree_port (s : State) : (clearTree s).port = s.port := rfl

/-! ### placeWord -/

@[simp] theorem placeWord_freq (w : Word) (s : State) : (placeWord w s).freq = s.freq := rfl
@[simp] theorem placeWord_node (w : Word) (s : State) : (placeWord w s).node = s.node := rfl
@[simp] theorem placeWord_root (w : Word) (s : State) : (placeWord w s).root = s.root := rfl
@[simp] theorem placeWord_nleaf (w : Word) (s : State) : (placeWord w s).nleaf = s.nleaf := rfl
@[simp] theorem placeWord_nnode (w : Word) (s : State) : (placeWord w s).nnode = s.nnode := rfl
@[simp] theorem placeWord_code (w : Word) (s : State) : (placeWord w s).code = s.code := rfl
@[simp] theorem placeWord_cbuf (w : Word) (s : State) : (placeWord w s).cbuf = s.cbuf := rfl
@[simp] theorem placeWord_phase (w : Word) (s : State) : (placeWord w s).phase = s.phase := rfl
@[simp] theorem placeWord_fault (w : Word) (s : State) : (placeWord w s).fault = s.fault := rfl
@[simp] theorem placeWord_errcode (w : Word) (s : State) : (placeWord w s).errcode = s.errcode := rfl
@[simp] theorem placeWord_errcmd (w : Word) (s : State) : (placeWord w s).errcmd = s.errcmd := rfl
@[simp] theorem placeWord_erridx (w : Word) (s : State) : (placeWord w s).erridx = s.erridx := rfl
@[simp] theorem placeWord_cmdcnt (w : Word) (s : State) : (placeWord w s).cmdcnt = s.cmdcnt := rfl
@[simp] theorem placeWord_done (w : Word) (s : State) : (placeWord w s).done = s.done := rfl
@[simp] theorem placeWord_bout (w : Word) (s : State) : (placeWord w s).bout = s.bout := rfl
@[simp] theorem placeWord_sout (w : Word) (s : State) : (placeWord w s).sout = s.sout := rfl
@[simp] theorem placeWord_port (w : Word) (s : State) : (placeWord w s).port = w :: s.port := rfl

end Sys2Proof.Machine
end

