-- ==== Sys2Proof/Laws/Build.lean ====
section
/-! SUPPORT. Laws/Build.lean: what each stage of BUILD writes (41_tree_builder.md R110 to R120), and nothing else. -/

namespace Sys2Proof.Machine

/-- R113: the leaf loop writes NODE and NLEAF. -/
theorem leavesFrom_frame (fs : List Freq) (k : Nat) (s : State) :
    ∃ n l, leavesFrom fs k s = { s with node := n, nleaf := l } := by
  induction fs generalizing k s with
  | nil => exact ⟨s.node, s.nleaf, rfl⟩
  | cons f fs ih =>
    obtain ⟨n, l, h⟩ := ih (k + 1) (leafStep (BitVec.ofNat 8 k) f s)
    rw [leavesFrom, h, leafStep]
    split
    · exact ⟨n, l, rfl⟩
    · exact ⟨n, l, rfl⟩

/-- R114: one round writes NODE and NNODE. -/
theorem mergeRound_frame (s : State) : ∃ n m, mergeRound s = { s with node := n, nnode := m } := by
  unfold mergeRound
  split
  · exact ⟨s.node, s.nnode, rfl⟩
  · split
    · exact ⟨s.node, s.nnode, rfl⟩
    · exact ⟨_, _, rfl⟩

/-- R114: the loop writes NODE and NNODE. -/
theorem mergeLoop_frame (fuel : Nat) (s : State) : ∃ n m, mergeLoop fuel s = { s with node := n, nnode := m } := by
  induction fuel generalizing s with
  | zero => exact ⟨s.node, s.nnode, rfl⟩
  | succ fuel ih =>
    rw [mergeLoop]
    split
    · obtain ⟨n, m, h⟩ := mergeRound_frame s
      obtain ⟨n', m', h'⟩ := ih (mergeRound s)
      rw [h', h]
      exact ⟨n', m', rfl⟩
    · exact ⟨s.node, s.nnode, rfl⟩

/-- R116: the root stage writes ROOT. -/
theorem stageRoot_frame (s : State) : ∃ r, stageRoot s = { s with root := r } := by
  unfold stageRoot
  split
  · exact ⟨_, rfl⟩
  · exact ⟨_, rfl⟩

/-- R117, R120: the code stage writes CODE. -/
theorem stageCodes_frame (s : State) : ∃ c, stageCodes s = { s with code := c } := by
  unfold stageCodes
  split
  · exact ⟨s.code, rfl⟩
  · split
    · exact ⟨_, rfl⟩
    · exact ⟨_, rfl⟩

/-- R110: BUILD writes NODE, ROOT, NLEAF, NNODE and CODE. -/
theorem buildTree_frame (s : State) : ∃ n r l m c,
    buildTree s = { s with node := n, root := r, nleaf := l, nnode := m, code := c } := by
  obtain ⟨n, l, h1⟩ := leavesFrom_frame (stageClear s).freq.toList 0 (stageClear s)
  obtain ⟨n', m', h2⟩ := mergeLoop_frame (Config.nsym - 1) (stageLeaves (stageClear s))
  obtain ⟨r, h3⟩ := stageRoot_frame (stageMerge (stageLeaves (stageClear s)))
  obtain ⟨c, h4⟩ := stageCodes_frame (stageRoot (stageMerge (stageLeaves (stageClear s))))
  rw [buildTree, h4, h3, stageMerge, h2, stageLeaves, h1]
  exact ⟨_, _, _, _, _, rfl⟩

end Sys2Proof.Machine
end

