-- ==== Sys2Proof/Laws/Common.lean ====
section
/-! SUPPORT. Laws/Common.lean: what the common step (30_encoding.md R84) can do: a word is dropped, illegal,
out of phase, or runs its rule; and that every command and every word leads to a next state. -/

namespace Sys2Proof.Machine

open Sys2Proof.Safety

theorem consume_held {body : Word → State → State} {s : State} (h : s.fault = true) :
    consume body s = countWord s := by simp [consume, h]

theorem consume_free {body : Word → State → State} {s : State} (h : s.fault = false) :
    consume body s = body s.cmdcnt (countWord s) := by simp [consume, h]

/-- R185: while FAULT = 1 the command is dropped. -/
theorem runCommand_held {i : Instr} {body : Word → Word → State → State} {s : State} (h : s.fault = true) :
    runCommand i body s = countWord s := consume_held h

/-- R84 step 5: the command's own rule. -/
theorem runCommand_run {i : Instr} {body : Word → Word → State → State} {s : State} (h : s.fault = false)
    (hw : i.wellFormed = true) (hl : legalIn i s.phase = true) :
    runCommand i body s = body (encode i) s.cmdcnt (countWord s) := by
  rw [runCommand, consume_free h]
  simp [hw, hl]

/-- R84 step 4: BadPhase. -/
theorem runCommand_badPhase {i : Instr} {body : Word → Word → State → State} {s : State}
    (h : s.fault = false) (hw : i.wellFormed = true) (hl : legalIn i s.phase = false) :
    runCommand i body s = raise .badPhase (encode i) s.cmdcnt (countWord s) := by
  rw [runCommand, consume_free h]
  simp [hw, hl]

/-- R85: a term no word spells. -/
theorem runCommand_illegal {i : Instr} {body : Word → Word → State → State} {s : State}
    (h : s.fault = false) (hw : i.wellFormed = false) :
    runCommand i body s = raise .illegalCommand (encode i) s.cmdcnt (countWord s) := by
  rw [runCommand, consume_free h]
  simp [hw]

/-- Everything the common step can do with a command. -/
theorem runCommand_cases (i : Instr) (body : Word → Word → State → State) (s : State) :
    (s.fault = true ∧ runCommand i body s = countWord s) ∨
    (s.fault = false ∧ i.wellFormed = false ∧
      runCommand i body s = raise .illegalCommand (encode i) s.cmdcnt (countWord s)) ∨
    (s.fault = false ∧ i.wellFormed = true ∧ legalIn i s.phase = false ∧
      runCommand i body s = raise .badPhase (encode i) s.cmdcnt (countWord s)) ∨
    (s.fault = false ∧ i.wellFormed = true ∧ legalIn i s.phase = true ∧
      runCommand i body s = body (encode i) s.cmdcnt (countWord s)) := by
  cases h : s.fault
  · cases hw : i.wellFormed
    · exact .inr (.inl ⟨rfl, rfl, runCommand_illegal h hw⟩)
    · cases hl : legalIn i s.phase
      · exact .inr (.inr (.inl ⟨rfl, rfl, rfl, runCommand_badPhase h hw hl⟩))
      · exact .inr (.inr (.inr ⟨rfl, rfl, rfl, runCommand_run h hw hl⟩))
  · exact .inl ⟨rfl, runCommand_held h⟩

/-- A fault taken of a counted word is all that happened (R184, R187). -/
theorem faultsOnly_raise (c : Cause) (w : Word) (s : State) :
    FaultsOnly (causeCode c) w s (raise c w s.cmdcnt (countWord s)) := by
  refine ⟨⟨rfl, rfl, rfl, rfl⟩, ⟨rfl, ?_, ?_⟩, rfl, ?_⟩
  · rw [raise_bout, countWord_phase, countWord_bout]
    split <;> simp
  · rw [raise_sout, countWord_phase, countWord_sout]
    split <;> simp
  · intro e he
    cases e <;> first | rfl | simp [faultElems] at he

/-- Every command but CLRERR is the common step over a rule of its own. -/
theorem exec_runs (i : Instr) (h : i ≠ .clrerr) :
    ∃ body : Word → Word → State → State, ∀ s, exec i s = .next (runCommand i body s) := by
  cases i <;> first | exact ⟨_, fun _ => rfl⟩ | exact absurd rfl h

/-- Every command answers a next state. -/
theorem exec_next (i : Instr) (s : State) : ∃ t, exec i s = .next t := by cases i <;> exact ⟨_, rfl⟩

/-- Every word answers a next state. -/
theorem stepWord_next (w : Word) (s : State) : ∃ t, stepWord w s = .next t := by
  unfold stepWord
  split
  · exact exec_next _ _
  · exact ⟨_, rfl⟩

/-- Every step answers a next state. -/
theorem step_next (s : State) : ∃ t, step s = .next t := by
  unfold step
  split
  · exact ⟨_, rfl⟩
  · exact stepWord_next _ _

/-- CLRERR runs whether or not FAULT = 1 (R84 step 2, R171). -/
theorem exec_clrerr (s : State) : exec .clrerr s = .next (clearRecord (countWord s)) := rfl

end Sys2Proof.Machine
end

