-- ==== Sys2Proof/Laws/Tables.lean ====
section
/-! SUPPORT. Laws/Tables.lean: a read after a write of FREQ, CODE and NODE, the flags as statements about
every entry, and the match M(q). -/

namespace Sys2Proof.Machine

theorem sym_toNat_lt (a : Sym) : a.toNat < 256 := a.isLt

theorem sym_toNat_ne {a b : Sym} (h : b ≠ a) : a.toNat ≠ b.toNat := fun e => h (BitVec.eq_of_toNat_eq e.symm)

theorem freqAt_congr {s t : State} (h : t.freq = s.freq) (a : Sym) : freqAt t a = freqAt s a := by
  simp only [freqAt, h]

theorem codeAt_congr {s t : State} (h : t.code = s.code) (a : Sym) : codeAt t a = codeAt s a := by
  simp only [codeAt, h]

@[simp] theorem freqAt_setFreq_self (a : Sym) (v : Freq) (s : State) : freqAt (setFreq a v s) a = v := by
  simp [freqAt]

theorem freqAt_setFreq_ne {a b : Sym} (h : b ≠ a) (v : Freq) (s : State) :
    freqAt (setFreq a v s) b = freqAt s b := by
  simp [freqAt, sym_toNat_ne h]

@[simp] theorem codeAt_setCode_self (a : Sym) (c : Code) (s : State) : codeAt (setCode a c s) a = c := by
  simp [codeAt]

theorem codeAt_setCode_ne {a b : Sym} (h : b ≠ a) (c : Code) (s : State) :
    codeAt (setCode a c s) b = codeAt s b := by
  simp [codeAt, sym_toNat_ne h]

@[simp] theorem freqAt_clearFreq (s : State) (a : Sym) : freqAt (clearFreq s) a = 0#32 := by
  simp [freqAt]

@[simp] theorem codeAt_clearCode (s : State) (a : Sym) : codeAt (clearCode s) a = Code.empty := by
  simp [codeAt]

@[simp] theorem nodeAt_clearTree (s : State) (i : Nat) : nodeAt (clearTree s) i = Node.empty := by
  simp only [nodeAt, nodeIn, clearTree_node, Vector.getElem?_replicate]
  split <;> rfl

theorem nodeIn_putNode_self {i : Nat} (h : i < 511) (ns : Vector Node 511) (n : Node) :
    nodeIn (putNode ns i n) i = n := by
  simp [nodeIn, putNode, h]

theorem nodeIn_putNode_ne {i j : Nat} (h : j ≠ i) (ns : Vector Node 511) (n : Node) :
    nodeIn (putNode ns i n) j = nodeIn ns j := by
  simp [nodeIn, putNode, Ne.symm h]

theorem nodeIn_of_ge {i : Nat} (h : 511 ≤ i) (ns : Vector Node 511) : nodeIn ns i = Node.empty := by
  simp [nodeIn, Nat.not_lt.mpr h]

/-- Two code tables with the same entry for every symbol are equal. -/
theorem code_ext {s t : State} (h : ∀ a : Sym, codeAt t a = codeAt s a) : t.code = s.code := by
  apply Vector.ext
  intro i hi
  have := h (BitVec.ofNat 8 i)
  simpa [codeAt, Nat.mod_eq_of_lt (show i < 256 from hi)] using this

/-- Two frequency tables with the same count for every symbol are equal. -/
theorem freq_ext {s t : State} (h : ∀ a : Sym, freqAt t a = freqAt s a) : t.freq = s.freq := by
  apply Vector.ext
  intro i hi
  have := h (BitVec.ofNat 8 i)
  simpa [freqAt, Nat.mod_eq_of_lt (show i < 256 from hi)] using this

/-! ### Flags (R36) -/

theorem codeNone_iff (c : Code) : codeNone c = true ↔ c.len = 0#8 := by simp [codeNone]

theorem codeFull_iff (c : Code) : codeFull c = true ↔ c.len = 255#8 := by simp [codeFull]

theorem forall_toList_sym {α : Type} (v : Vector α 256) (p : α → Prop) :
    (∀ x ∈ v.toList, p x) ↔ ∀ a : Sym, p (v[a.toNat]'a.isLt) := by
  constructor
  · intro h a
    exact h _ (by simp [Vector.mem_toList_iff])
  · intro h x hx
    rw [Vector.mem_toList_iff, Vector.mem_iff_getElem] at hx
    obtain ⟨i, hi, rfl⟩ := hx
    have := h (BitVec.ofNat 8 i)
    simpa [Nat.mod_eq_of_lt hi] using this

/-- The counts in symbol order. -/
theorem freq_toList (s : State) : s.freq.toList = Safety.allSyms.map (freqAt s) := by
  apply List.ext_getElem
  · simp [Safety.allSyms]
  · intro i h1 h2
    have hi : i < 256 := by simpa using h1
    simp [Safety.allSyms, freqAt, Nat.mod_eq_of_lt hi]

theorem tempty_iff (s : State) : tempty s = true ↔ ∀ a : Sym, (codeAt s a).len = 0#8 := by
  simp only [tempty, List.all_eq_true, codeNone_iff]
  exact forall_toList_sym s.code fun c => c.len = 0#8

theorem fempty_iff (s : State) : fempty s = true ↔ ∀ a : Sym, freqAt s a = 0#32 := by
  simp only [fempty, List.all_eq_true, beq_iff_eq]
  exact forall_toList_sym s.freq fun v => v = 0#32

theorem hasCode_iff (s : State) (a : Sym) : hasCode s a = true ↔ (codeAt s a).len ≠ 0#8 := by
  simp [hasCode, codeNone]

theorem tempty_iff_hasCode (s : State) : tempty s = true ↔ ∀ a : Sym, hasCode s a = false := by
  simp [tempty_iff, hasCode, codeNone]

/-! ### The match (R151) -/

theorem mem_matchFrom (q : Code) (cs : List Code) (k : Nat) (a : Sym) :
    a ∈ matchFrom q cs k ↔ ∃ i, cs[i]? = some q ∧ a = BitVec.ofNat 8 (k + i) := by
  induction cs generalizing k with
  | nil => simp [matchFrom]
  | cons c cs ih =>
    have hc : (c.len = q.len ∧ c.bits = q.bits) ↔ c = q := by cases c; cases q; simp
    rw [matchFrom]
    split
    · rename_i h
      obtain rfl := hc.mp h
      rw [List.mem_cons, ih]
      constructor
      · rintro (rfl | ⟨i, hi, rfl⟩)
        · exact ⟨0, by simp⟩
        · exact ⟨i + 1, by simpa using hi, by rw [Nat.add_assoc, Nat.add_comm 1 i]⟩
      · rintro ⟨i, hi, rfl⟩
        cases i with
        | zero => left; simp
        | succ i => right; exact ⟨i, by simpa using hi, by rw [Nat.add_assoc, Nat.add_comm 1 i]⟩
    · rename_i h
      rw [ih]
      constructor
      · rintro ⟨i, hi, rfl⟩
        exact ⟨i + 1, by simpa using hi, by rw [Nat.add_assoc, Nat.add_comm 1 i]⟩
      · rintro ⟨i, hi, rfl⟩
        cases i with
        | zero => exact absurd (hc.mpr (by simpa using hi)) h
        | succ i => exact ⟨i, by simpa using hi, by rw [Nat.add_assoc, Nat.add_comm 1 i]⟩

/-- R151: a symbol is in `M(q)` exactly when its code is `q`. -/
theorem mem_matchSyms (s : State) (q : Code) (a : Sym) : a ∈ matchSyms s q ↔ codeAt s a = q := by
  rw [matchSyms, mem_matchFrom]
  constructor
  · rintro ⟨i, hi, rfl⟩
    obtain ⟨hlt, hq⟩ := List.getElem?_eq_some_iff.mp hi
    have hlt : i < 256 := by simpa using hlt
    simpa [codeAt, Nat.mod_eq_of_lt hlt] using hq
  · intro h
    refine ⟨a.toNat, ?_, by simp⟩
    rw [List.getElem?_eq_some_iff]
    exact ⟨by simpa using a.isLt, by simpa [codeAt] using h⟩

theorem nodup_matchFrom (q : Code) (cs : List Code) (k : Nat) (h : k + cs.length ≤ 256) :
    (matchFrom q cs k).Nodup := by
  induction cs generalizing k with
  | nil => simp [matchFrom]
  | cons c cs ih =>
    have h' : k + 1 + cs.length ≤ 256 := by simp at h; omega
    rw [matchFrom]
    split
    · refine List.nodup_cons.mpr ⟨?_, ih _ h'⟩
      rw [mem_matchFrom]
      rintro ⟨i, hi, he⟩
      have hi' : i < cs.length := (List.getElem?_eq_some_iff.mp hi).1
      have := congrArg BitVec.toNat he
      simp only [BitVec.toNat_ofNat] at this
      omega
    · exact ih _ h'

theorem nodup_matchSyms (s : State) (q : Code) : (matchSyms s q).Nodup :=
  nodup_matchFrom q _ 0 (by simp)

end Sys2Proof.Machine
end

