-- ==== Sys2Proof/Laws/Decoding.lean ====
section
/-! SUPPORT. Laws/Decoding.lean: everything `dec_bit` can do, by the members of M(q) (44_decoder.md R151 to R153),
and what a list of bits does. -/

namespace Sys2Proof.Machine

open Sys2Proof.Safety

/-- The match has no member exactly when no code equals `q` (R151). -/
theorem noMatch_iff (s : State) (q : Code) : NoMatch s q ↔ matchSyms s q = [] := by
  rw [List.eq_nil_iff_forall_not_mem]
  exact forall_congr' fun a => not_congr (mem_matchSyms s q a).symm

/-- The match has the one member `a` exactly when `a`'s code alone equals `q` (R151). -/
theorem oneMatch_iff (s : State) (q : Code) (a : Sym) : OneMatch s q a ↔ matchSyms s q = [a] := by
  constructor
  · intro h
    have ha : a ∈ matchSyms s q := (mem_matchSyms s q a).mpr ((h a).mpr rfl)
    have all : ∀ b ∈ matchSyms s q, b = a := fun b hb => (h b).mp ((mem_matchSyms s q b).mp hb)
    have nd := nodup_matchSyms s q
    match hm : matchSyms s q with
    | [] => rw [hm] at ha; cases ha
    | [b] => rw [hm] at all; rw [all b (by simp)]
    | b :: c :: _ =>
      rw [hm] at all nd
      have hbc : b = c := (all b (by simp)).trans (all c (by simp)).symm
      simp [hbc] at nd
  · intro h b
    rw [← mem_matchSyms, h, List.mem_singleton]

/-- The match has two or more members exactly when two symbols' codes equal `q` (R151). -/
theorem manyMatch_iff (s : State) (q : Code) :
    ManyMatch s q ↔ ∃ a b rest, matchSyms s q = a :: b :: rest := by
  constructor
  · rintro ⟨a, b, hab, ha, hb⟩
    have ha' := (mem_matchSyms s q a).mpr ha
    have hb' := (mem_matchSyms s q b).mpr hb
    match hm : matchSyms s q with
    | [] => rw [hm] at ha'; cases ha'
    | [c] =>
      rw [hm, List.mem_singleton] at ha' hb'
      exact absurd (ha'.trans hb'.symm) hab
    | c :: d :: rest => exact ⟨c, d, rest, rfl⟩
  · rintro ⟨a, b, rest, hm⟩
    have nd := nodup_matchSyms s q
    rw [hm] at nd
    refine ⟨a, b, fun h => by simp [h] at nd, ?_, ?_⟩
    · exact (mem_matchSyms s q a).mp (by rw [hm]; simp)
    · exact (mem_matchSyms s q b).mp (by rw [hm]; simp)

/-- R152, R153: what one bit does, case by case. -/
theorem decBit_cases (w idx : Word) (b : Bool) (s : State) :
    ((tempty s = true ∨ s.cbuf.len = 255#8) ∧ decBit w idx b s = .ok { s with done := s.done + 1#32 }) ∨
    (tempty s = false ∧ s.cbuf.len ≠ 255#8 ∧
      ((NoMatch s (codeSnoc s.cbuf b) ∧
        decBit w idx b s = .ok { s with done := s.done + 1#32, cbuf := codeSnoc s.cbuf b }) ∨
      (∃ a, OneMatch s (codeSnoc s.cbuf b) a ∧
        decBit w idx b s =
          .ok { s with done := s.done + 1#32, cbuf := Code.empty, sout := s.sout ++ [.sym a] }) ∨
      (ManyMatch s (codeSnoc s.cbuf b) ∧
        decBit w idx b s = .raised (raise .ambiguousCode w idx
          { s with done := s.done + 1#32, cbuf := codeSnoc s.cbuf b })))) := by
  have ht : tempty { s with done := s.done + 1#32 } = tempty s := rfl
  by_cases h1 : tempty s = true
  · exact .inl ⟨.inl h1, by simp [decBit, ht, h1]⟩
  by_cases h2 : s.cbuf.len = 255#8
  · refine .inl ⟨.inr h2, ?_⟩
    have hf := (codeFull_iff s.cbuf).mpr h2
    simp [decBit, hf]
  have hf : codeFull s.cbuf = false := by
    rw [← Bool.not_eq_true, codeFull_iff]; exact h2
  have h1' : tempty s = false := by simpa using h1
  have hm : ∀ q, matchSyms { s with done := s.done + 1#32, cbuf := q } q = matchSyms s q := fun _ => rfl
  refine .inr ⟨h1', h2, ?_⟩
  match hq : matchSyms s (codeSnoc s.cbuf b) with
  | [] => exact .inl ⟨(noMatch_iff _ _).mpr hq, by simp [decBit, decMatch, ht, h1', hf, hm, hq]⟩
  | [a] =>
    exact .inr (.inl ⟨a, (oneMatch_iff _ _ _).mpr hq, by simp [decBit, decMatch, ht, h1', hf, hm, hq, pushS]⟩)
  | a :: c :: rest =>
    exact .inr (.inr ⟨(manyMatch_iff _ _).mpr ⟨a, c, rest, hq⟩, by
      simp [decBit, decMatch, ht, h1', hf, hm, hq]⟩)

/-- `dec_bit` writes DONE, CBUF and SOUT, and a fault what `raise` writes. -/
theorem decBit_frame (w idx : Word) (b : Bool) (s : State) :
    (∃ d c o, decBit w idx b s = .ok { s with done := d, cbuf := c, sout := o }) ∨
    ∃ d c, decBit w idx b s = .raised (raise .ambiguousCode w idx { s with done := d, cbuf := c }) := by
  rcases decBit_cases w idx b s with ⟨-, h⟩ | ⟨-, -, ⟨-, h⟩ | ⟨_, -, h⟩ | ⟨-, h⟩⟩
  · exact .inl ⟨_, s.cbuf, s.sout, h⟩
  · exact .inl ⟨_, _, s.sout, h⟩
  · exact .inl ⟨_, _, _, h⟩
  · exact .inr ⟨_, _, h⟩

end Sys2Proof.Machine
end

