-- ==== Sys2Proof/Laws/Encoding.lean ====
section
/-! SUPPORT. Laws/Encoding.lean: the fields of a word made of three fields, and its masks (30_encoding.md
R80, R83). -/

namespace Sys2Proof

@[simp] theorem opField_mkWord (op : BitVec 8) (s : Sym) (v : Imm) : opField (mkWord op s v) = op := by
  apply BitVec.eq_of_getLsbD_eq
  intro i hi
  simp only [opField, mkWord, BitVec.getLsbD_extractLsb', BitVec.getLsbD_append, hi, decide_true, Bool.true_and]
  rw [if_neg (by omega), if_neg (by omega)]
  congr 1
  omega

@[simp] theorem symField_mkWord (op : BitVec 8) (s : Sym) (v : Imm) : symField (mkWord op s v) = s := by
  apply BitVec.eq_of_getLsbD_eq
  intro i hi
  simp only [symField, mkWord, BitVec.getLsbD_extractLsb', BitVec.getLsbD_append, hi, decide_true, Bool.true_and]
  rw [if_neg (by omega), if_pos (by omega)]
  congr 1
  omega

@[simp] theorem immField_mkWord (op : BitVec 8) (s : Sym) (v : Imm) : immField (mkWord op s v) = v := by
  apply BitVec.eq_of_getLsbD_eq
  intro i hi
  simp only [immField, mkWord, BitVec.getLsbD_extractLsb', BitVec.getLsbD_append, hi, decide_true, Bool.true_and]
  rw [if_pos (by omega)]
  congr 1
  omega

/-- R80: a word is its three fields. -/
theorem mkWord_fields (w : Word) : mkWord (opField w) (symField w) (immField w) = w := by
  apply BitVec.eq_of_getLsbD_eq
  intro i hi
  simp only [opField, symField, immField, mkWord, BitVec.getLsbD_extractLsb', BitVec.getLsbD_append]
  split
  · rename_i h
    simp [h]
  · split
    · rename_i h₁ h₂
      simp only [h₂, decide_true, Bool.true_and]
      congr 1
      omega
    · rename_i h₁ h₂
      have : i - 16 - 8 < 8 := by omega
      simp only [this, decide_true, Bool.true_and]
      congr 1
      omega

theorem mkWord_inj {op op' : BitVec 8} {s s' : Sym} {v v' : Imm} :
    mkWord op s v = mkWord op' s' v' ↔ op = op' ∧ s = s' ∧ v = v' := by
  constructor
  · intro h
    have h₁ := congrArg opField h
    have h₂ := congrArg symField h
    have h₃ := congrArg immField h
    simp only [opField_mkWord, symField_mkWord, immField_mkWord] at h₁ h₂ h₃
    exact ⟨h₁, h₂, h₃⟩
  · rintro ⟨rfl, rfl, rfl⟩
    rfl

/-- A mask acts field by field. -/
theorem mkWord_and (op op' : BitVec 8) (s s' : Sym) (v v' : Imm) :
    mkWord op s v &&& mkWord op' s' v' = mkWord (op &&& op') (s &&& s') (v &&& v') := by
  apply BitVec.eq_of_getLsbD_eq
  intro i hi
  simp only [mkWord, BitVec.getLsbD_and, BitVec.getLsbD_append]
  split
  · rfl
  · split <;> rfl

/-- A row's test on a word, field by field, when the mask and the match are given by their fields (R83). -/
theorem and_eq_iff_fields (w : Word) (mo po : BitVec 8) (ms ps : Sym) (mi pi : Imm) :
    w &&& mkWord mo ms mi = mkWord po ps pi ↔
      opField w &&& mo = po ∧ symField w &&& ms = ps ∧ immField w &&& mi = pi := by
  conv_lhs => rw [← mkWord_fields w, mkWord_and, mkWord_inj]

@[simp] theorem opField_encode (i : Instr) : opField (encode i) = opcode i := opField_mkWord _ _ _
@[simp] theorem symField_encode (i : Instr) : symField (encode i) = symOperand i := symField_mkWord _ _ _
@[simp] theorem immField_encode (i : Instr) : immField (encode i) = immOperand i := immField_mkWord _ _ _

@[simp] theorem bitImm_getLsbD (b : Bool) : (bitImm b).getLsbD 0 = b := by cases b <;> rfl

/-- A word with the value of its three fields (the encodings of R101 to R174). -/
theorem mkWord_toNat (op : BitVec 8) (s : Sym) (v : Imm) :
    (mkWord op s v).toNat = op.toNat * 2 ^ 24 + s.toNat * 2 ^ 16 + v.toNat := by
  have hv : v.toNat < 2 ^ 16 := v.isLt
  have hs : s.toNat < 2 ^ 8 := s.isLt
  rw [mkWord, BitVec.toNat_append, BitVec.toNat_append, ← Nat.shiftLeft_add_eq_or_of_lt hv,
    ← Nat.shiftLeft_add_eq_or_of_lt hs]
  simp only [Nat.shiftLeft_eq]
  omega

end Sys2Proof
end

