-- ==== Sys2Proof/Laws/PerInstr.lean ====
section
/-! SUPPORT. Laws/PerInstr.lean: for each command, a row of the mask and match table (30_encoding.md R83) that its
word matches and that makes the command of the word's fields. -/

namespace Sys2Proof.Laws.RowOf

/-- The word of a well-formed command matches a row of the table, and that row makes the command of it. -/
def Statement (i : Instr) : Prop :=
  i.wellFormed = true → ∃ r ∈ rows, encode i &&& r.mask = r.pat ∧ rowCommand r (encode i) = i

/-- A row whose mask and match are given by fields. -/
theorem of_row {i : Instr} (k : Nat) (r : Row) (hr : rows[k]? = some r) (op mo : BitVec 8) (ms : Sym)
    (mi : Imm) (hop : opcode i = op) (hm : r.mask = mkWord mo ms mi) (hp : r.pat = mkWord op 0#8 0#16)
    (ho : op &&& mo = op)
    (hs : symOperand i &&& ms = 0#8) (hi : immOperand i &&& mi = 0#16)
    (hc : r.make (symOperand i) (immOperand i) = i) :
    ∃ r ∈ rows, encode i &&& r.mask = r.pat ∧ rowCommand r (encode i) = i := by
  refine ⟨r, List.mem_of_getElem? hr, ?_, ?_⟩
  · rw [hm, hp, encode, mkWord_and, hop, ho, hs, hi]
  · simpa [rowCommand] using hc

theorem nop : Statement .nop := fun _ =>
  of_row 0 _ rfl 0x00#8 0xFF#8 0xFF#8 0xFFFF#16 rfl rfl rfl rfl
    (by simp [symOperand]) (by simp [immOperand]) rfl

theorem clrerr : Statement .clrerr := fun _ =>
  of_row 1 _ rfl 0x01#8 0xFF#8 0xFF#8 0xFFFF#16 rfl rfl rfl rfl
    (by simp [symOperand]) (by simp [immOperand]) rfl

theorem clrall : Statement .clrall := fun _ =>
  of_row 2 _ rfl 0x02#8 0xFF#8 0xFF#8 0xFFFF#16 rfl rfl rfl rfl
    (by simp [symOperand]) (by simp [immOperand]) rfl

theorem clrfreq : Statement .clrfreq := fun _ =>
  of_row 3 _ rfl 0x03#8 0xFF#8 0xFF#8 0xFFFF#16 rfl rfl rfl rfl
    (by simp [symOperand]) (by simp [immOperand]) rfl

theorem clrcode : Statement .clrcode := fun _ =>
  of_row 4 _ rfl 0x04#8 0xFF#8 0xFF#8 0xFFFF#16 rfl rfl rfl rfl
    (by simp [symOperand]) (by simp [immOperand]) rfl

theorem fsym (s : Sym) : Statement (.fsym s) := fun _ =>
  of_row 5 _ rfl 0x10#8 0xFF#8 0x00#8 0xFFFF#16 rfl rfl rfl rfl
    (by simp [symOperand]) (by simp [immOperand]) rfl

theorem ldfreql (s : Sym) (v : Imm) : Statement (.ldfreql s v) := fun _ =>
  of_row 6 _ rfl 0x11#8 0xFF#8 0x00#8 0x0000#16 rfl rfl rfl rfl
    (by simp [symOperand]) (by simp [immOperand]) rfl

theorem ldfreqh (s : Sym) (v : Imm) : Statement (.ldfreqh s v) := fun _ =>
  of_row 7 _ rfl 0x12#8 0xFF#8 0x00#8 0x0000#16 rfl rfl rfl rfl
    (by simp [symOperand]) (by simp [immOperand]) rfl

theorem build : Statement .build := fun _ =>
  of_row 8 _ rfl 0x20#8 0xFF#8 0xFF#8 0xFFFF#16 rfl rfl rfl rfl
    (by simp [symOperand]) (by simp [immOperand]) rfl

theorem clrc (s : Sym) : Statement (.clrc s) := fun _ =>
  of_row 9 _ rfl 0x30#8 0xFF#8 0x00#8 0xFFFF#16 rfl rfl rfl rfl
    (by simp [symOperand]) (by simp [immOperand]) rfl

theorem ldcbit (s : Sym) (b : Bool) : Statement (.ldcbit s b) := fun _ =>
  of_row 10 _ rfl 0x31#8 0xFF#8 0x00#8 0xFFFE#16 rfl rfl rfl rfl
    (by simp [symOperand]) (by cases b <;> simp [immOperand, bitImm])
    (by cases b <;> simp [symOperand, immOperand, bitImm])

theorem encBegin : Statement .encBegin := fun _ =>
  of_row 11 _ rfl 0x40#8 0xFF#8 0xFF#8 0xFFFF#16 rfl rfl rfl rfl
    (by simp [symOperand]) (by simp [immOperand]) rfl

theorem encSym (s : Sym) : Statement (.encSym s) := fun _ =>
  of_row 12 _ rfl 0x41#8 0xFF#8 0x00#8 0xFFFF#16 rfl rfl rfl rfl
    (by simp [symOperand]) (by simp [immOperand]) rfl

theorem encEnd : Statement .encEnd := fun _ =>
  of_row 13 _ rfl 0x42#8 0xFF#8 0xFF#8 0xFFFF#16 rfl rfl rfl rfl
    (by simp [symOperand]) (by simp [immOperand]) rfl

theorem decBegin : Statement .decBegin := fun _ =>
  of_row 14 _ rfl 0x50#8 0xFF#8 0xFF#8 0xFFFF#16 rfl rfl rfl rfl
    (by simp [symOperand]) (by simp [immOperand]) rfl

theorem decBit (b : Bool) : Statement (.decBit b) := fun _ =>
  of_row 15 _ rfl 0x51#8 0xFF#8 0xFF#8 0xFFFE#16 rfl rfl rfl rfl
    (by simp [symOperand]) (by cases b <;> simp [immOperand, bitImm])
    (by cases b <;> simp [immOperand, bitImm])

/-- A count up to 16 has no bit at or above position 5. -/
theorem count_mask (n : Sym) (h : (Instr.decWord n 0#16).wellFormed = true) : n &&& 0xE0#8 = 0#8 := by
  revert n
  decide +kernel

theorem decWord (n : Sym) (v : Imm) : Statement (.decWord n v) := fun hn =>
  of_row 16 _ rfl 0x52#8 0xFF#8 0xE0#8 0x0000#16 rfl rfl rfl rfl
    (count_mask n hn) (by simp [immOperand]) rfl

theorem decEnd : Statement .decEnd := fun _ =>
  of_row 17 _ rfl 0x53#8 0xFF#8 0xFF#8 0xFFFF#16 rfl rfl rfl rfl
    (by simp [symOperand]) (by simp [immOperand]) rfl

end Sys2Proof.Laws.RowOf
end

