-- ==== Sys2Proof/Laws/Queue.lean ====
section
/-! SUPPORT. Laws/Queue.lean: the priority queue's minimum (41_tree_builder.md R112; 10_state.md R26). -/

namespace Sys2Proof.Machine

/-- The member at an index of a list of nodes numbered from `i`. -/
def memberAt (l : List Node) (i j : Nat) (f : NodeFreq) : Prop :=
  i ≤ j ∧ ∃ n, l[j - i]? = some n ∧ inQueue n = true ∧ n.freq = f

theorem before_iff (f : NodeFreq) (i : Nat) (g : NodeFreq) (j : Nat) :
    before f i g j = true ↔ f.toNat < g.toNat ∨ (f.toNat = g.toNat ∧ i < j) := by
  simp [before, BitVec.lt_def, BitVec.toNat_inj]

theorem memberAt_nil (i j : Nat) (f : NodeFreq) : ¬ memberAt [] i j f := by
  rintro ⟨_, n, hn, _⟩
  simp at hn

theorem memberAt_cons (n : Node) (l : List Node) (i j : Nat) (f : NodeFreq) :
    memberAt (n :: l) i j f ↔ (j = i ∧ inQueue n = true ∧ n.freq = f) ∨ memberAt l (i + 1) j f := by
  constructor
  · rintro ⟨hij, m, hm, hq, hf⟩
    by_cases h : j = i
    · subst h
      simp at hm
      subst hm
      exact .inl ⟨rfl, hq, hf⟩
    · refine .inr ⟨by omega, m, ?_, hq, hf⟩
      rw [show j - i = (j - (i + 1)) + 1 by omega] at hm
      simpa using hm
  · rintro (⟨rfl, hq, hf⟩ | ⟨hij, m, hm, hq, hf⟩)
    · exact ⟨le_refl _, n, by simp, hq, hf⟩
    · refine ⟨by omega, m, ?_, hq, hf⟩
      rw [show j - i = (j - (i + 1)) + 1 by omega]
      simpa using hm

/-- What a scan answers: the better of its candidate and the members of the list, and none better. -/
theorem pqScan_spec (l : List Node) (i : Nat) (best : Option (Nat × NodeFreq))
    (hb : ∀ j g, best = some (j, g) → j < i) :
    (pqScan l i best = none ↔ best = none ∧ ∀ j f, ¬ memberAt l i j f) ∧
    ∀ m f, pqScan l i best = some (m, f) →
      (best = some (m, f) ∨ memberAt l i m f) ∧
      (∀ j g, best = some (j, g) ∨ memberAt l i j g → j ≠ m → before f m g j = true) := by
  induction l generalizing i best with
  | nil =>
    simp only [pqScan]
    refine ⟨by simp [memberAt_nil], fun m f h => ⟨.inl h, ?_⟩⟩
    rintro j g (hj | hj) hne
    · rw [h] at hj
      simp only [Option.some.injEq, Prod.mk.injEq] at hj
      exact absurd hj.1.symm hne
    · exact absurd hj (memberAt_nil _ _ _)
  | cons n l ih =>
    rw [pqScan]
    have key : ∀ j g, better best i n = some (j, g) → j < i + 1 := by
      intro j g h
      unfold better at h
      split at h
      · split at h
        · simp at h; omega
        · rename_i j' g'
          have := hb j' g' rfl
          split at h <;> simp at h <;> omega
      · have := hb j g h; omega
    have IH := ih (i + 1) (better best i n) key
    have hnone : better best i n = none ↔ best = none ∧ inQueue n = false := by
      unfold better
      split
      · split
        · simp_all
        · split <;> simp
      · simp_all
    refine ⟨?_, ?_⟩
    · rw [IH.1, hnone]
      constructor
      · rintro ⟨⟨h₁, h₂⟩, h₃⟩
        refine ⟨h₁, fun j f hm => ?_⟩
        rcases (memberAt_cons n l i j f).mp hm with ⟨_, hq, _⟩ | hm
        · simp [h₂] at hq
        · exact h₃ j f hm
      · rintro ⟨h₁, h₂⟩
        refine ⟨⟨h₁, ?_⟩, fun j f hm => h₂ j f ((memberAt_cons ..).mpr (.inr hm))⟩
        by_contra hq
        exact h₂ i n.freq ((memberAt_cons ..).mpr (.inl ⟨rfl, by simpa using hq, rfl⟩))
    · intro m f h
      obtain ⟨h₁, h₂⟩ := IH.2 m f h
      have hbetter : ∀ j g, better best i n = some (j, g) →
          best = some (j, g) ∨ (j = i ∧ inQueue n = true ∧ n.freq = g) := by
        intro j g hj
        unfold better at hj
        split at hj
        · rename_i hq
          split at hj
          · simp at hj; exact .inr ⟨hj.1.symm, hq, hj.2⟩
          · split at hj
            · simp at hj; exact .inr ⟨hj.1.symm, hq, hj.2⟩
            · exact .inl hj
        · exact .inl hj
      have hbeats : ∀ j g, (best = some (j, g) ∨ (j = i ∧ inQueue n = true ∧ n.freq = g)) →
          ∃ j' g', better best i n = some (j', g') ∧ (j = j' ∨ before g' j' g j = true) := by
        intro j g hj
        unfold better
        rcases hj with hj | ⟨rfl, hq, rfl⟩
        · have hlt := hb j g hj
          subst hj
          split
          · simp only
            split
            · exact ⟨_, _, rfl, .inr (by assumption)⟩
            · exact ⟨_, _, rfl, .inl rfl⟩
          · exact ⟨_, _, rfl, .inl rfl⟩
        · rw [if_pos hq]
          split
          · exact ⟨_, _, rfl, .inl rfl⟩
          · rename_i j' g'
            split
            · exact ⟨_, _, rfl, .inl rfl⟩
            · rename_i hnb
              refine ⟨_, _, rfl, .inr ?_⟩
              have := hb j' g' rfl
              rw [before_iff] at hnb ⊢
              omega
      refine ⟨?_, ?_⟩
      · rcases h₁ with h₁ | h₁
        · rcases hbetter m f h₁ with h | h
          · exact .inl h
          · exact .inr ((memberAt_cons ..).mpr (.inl h))
        · exact .inr ((memberAt_cons ..).mpr (.inr h₁))
      · intro j g hj hne
        have hcase : (best = some (j, g) ∨ (j = i ∧ inQueue n = true ∧ n.freq = g)) ∨ memberAt l (i + 1) j g := by
          rcases hj with hj | hj
          · exact .inl (.inl hj)
          · rcases (memberAt_cons ..).mp hj with hj | hj
            · exact .inl (.inr hj)
            · exact .inr hj
        rcases hcase with hc | hc
        · obtain ⟨j', g', hbst, hor⟩ := hbeats j g hc
          by_cases hjm : j' = m
          · have hmf := h₁
            rcases hor with rfl | hor
            · exact absurd hjm hne
            · subst hjm
              rcases h₁ with h₁ | h₁
              · rw [hbst] at h₁
                simp only [Option.some.injEq, Prod.mk.injEq, true_and] at h₁
                rw [← h₁]
                exact hor
              · have := key j' g' hbst
                have := h₁.1
                omega
          · have hb' := h₂ j' g' (.inl hbst) hjm
            rcases hor with rfl | hor
            · rcases hbetter j g' hbst with h' | ⟨_, _, h'⟩
              · rcases hc with hc | ⟨hji, _, _⟩
                · rw [h'] at hc
                  simp only [Option.some.injEq, Prod.mk.injEq, true_and] at hc
                  rwa [← hc]
                · have := hb j g' h'
                  omega
              · rcases hc with hc | ⟨_, _, hc⟩
                · have := hb j g hc
                  omega
                · rwa [← hc, h']
            · rw [before_iff] at hb' hor ⊢
              omega
        · exact h₂ j g (.inr hc) hne

/-- The queue has a member exactly when it has a minimum (R112). -/
theorem pqMin_eq_none (ns : Vector Node 511) :
    pqMin ns = none ↔ ∀ i, inQueue (nodeIn ns i) = false := by
  have := (pqScan_spec ns.toList 0 none (by simp)).1
  rw [pqMin, Option.map_eq_none_iff, this]
  constructor
  · rintro ⟨_, h⟩ i
    by_cases hi : i < 511
    · by_contra hq
      refine h i (nodeIn ns i).freq ⟨by omega, nodeIn ns i, ?_, by simpa using hq, rfl⟩
      simp [nodeIn, hi]
    · rw [nodeIn_of_ge (by omega)]
      rfl
  · intro h
    refine ⟨rfl, ?_⟩
    rintro j f ⟨_, n, hn, hq, _⟩
    have hj : j < 511 := by simpa using (List.getElem?_eq_some_iff.mp hn).1
    have := h j
    have hnj : nodeIn ns j = n := by
      simp [hj] at hn
      simp [nodeIn, hj, hn]
    rw [hnj, hq] at this
    cases this

/-- The minimum is a member and comes before every other member (R112). -/
theorem pqMin_eq_some {ns : Vector Node 511} {m : Nat} (h : pqMin ns = some m) :
    m < 511 ∧ inQueue (nodeIn ns m) = true ∧
      ∀ j, j ≠ m → inQueue (nodeIn ns j) = true →
        (nodeIn ns m).freq.toNat < (nodeIn ns j).freq.toNat ∨
          ((nodeIn ns m).freq.toNat = (nodeIn ns j).freq.toNat ∧ m < j) := by
  rw [pqMin, Option.map_eq_some_iff] at h
  obtain ⟨⟨m', f⟩, hs, rfl⟩ := h
  obtain ⟨h₁, h₂⟩ := (pqScan_spec ns.toList 0 none (by simp)).2 m' f hs
  have mem : ∀ j g, memberAt ns.toList 0 j g ↔ j < 511 ∧ inQueue (nodeIn ns j) = true ∧ (nodeIn ns j).freq = g := by
    intro j g
    constructor
    · rintro ⟨_, n, hn, hq, hf⟩
      have hj : j < 511 := by simpa using (List.getElem?_eq_some_iff.mp hn).1
      have hnj : nodeIn ns j = n := by
        simp [hj] at hn
        simp [nodeIn, hj, hn]
      exact ⟨hj, hnj ▸ hq, hnj ▸ hf⟩
    · rintro ⟨hj, hq, hf⟩
      exact ⟨by omega, nodeIn ns j, by simp [nodeIn, hj], hq, hf⟩
  rcases h₁ with h₁ | h₁
  · cases h₁
  · obtain ⟨hm, hq, hf⟩ := (mem _ _).mp h₁
    refine ⟨hm, hq, fun j hj hjq => ?_⟩
    have hj' : j < 511 := by
      by_contra hge
      rw [nodeIn_of_ge (by omega)] at hjq
      cases hjq
    have := h₂ j _ (.inr ((mem _ _).mpr ⟨hj', hjq, rfl⟩)) hj
    rw [before_iff] at this
    rw [← hf] at this
    exact this

/-- `extract_min` takes the minimum out of the queue and changes no other entry (R112). -/
theorem extractMin_eq_some {ns ns' : Vector Node 511} {m : Nat} (h : extractMin ns = some (m, ns')) :
    pqMin ns = some m ∧ nodeIn ns' m = { nodeIn ns m with inq := false } ∧
      ∀ j, j ≠ m → nodeIn ns' j = nodeIn ns j := by
  unfold extractMin at h
  split at h
  · cases h
  · rename_i m' hm
    simp only [Option.some.injEq, Prod.mk.injEq] at h
    obtain ⟨rfl, rfl⟩ := h
    exact ⟨hm, nodeIn_putNode_self (pqMin_eq_some hm).1 _ _, fun j hj => nodeIn_putNode_ne hj _ _⟩

end Sys2Proof.Machine
end

