-- ==== Sys2Proof/Machine/Asm.lean ====
section
/-! DEFINITION. Machine/Asm.lean: the assembler text of one line (30_encoding.md R89), on lists of
characters. Points R89 leaves open are in notes/assumptions/11.md. -/

namespace Sys2Proof.Machine

/-- What one line of assembler text is. -/
inductive AsmLine where
  /-- nothing but blanks and a comment -/
  | blank
  | command (i : Instr)
  /-- no line of R89's form -/
  | malformed
  deriving DecidableEq, Repr

/-- The operands a mnemonic takes (R81, R89). -/
inductive AsmShape where
  | plain (i : Instr)
  | symbol (f : Sym → Instr)
  | symbolImm (f : Sym → Imm → Instr)
  | symbolBit (f : Sym → Bool → Instr)
  | bit (f : Bool → Instr)
  | countImm (f : Sym → Imm → Instr)

/-- The mnemonics of R81 of the groups up to 0x2x, and their operands. -/
def asmTableLow : List (List Char × AsmShape) :=
  [ (['N','O','P'], .plain .nop),
    (['C','L','R','E','R','R'], .plain .clrerr),
    (['C','L','R','A','L','L'], .plain .clrall),
    (['C','L','R','F','R','E','Q'], .plain .clrfreq),
    (['C','L','R','C','O','D','E'], .plain .clrcode),
    (['F','S','Y','M'], .symbol .fsym),
    (['L','D','F','R','E','Q','L'], .symbolImm .ldfreql),
    (['L','D','F','R','E','Q','H'], .symbolImm .ldfreqh),
    (['B','U','I','L','D'], .plain .build) ]

/-- The mnemonics of R81 of the groups from 0x3x on, and their operands. -/
def asmTableHigh : List (List Char × AsmShape) :=
  [ (['C','L','R','C'], .symbol .clrc),
    (['L','D','C','B','I','T'], .symbolBit .ldcbit),
    (['E','N','C','_','B','E','G','I','N'], .plain .encBegin),
    (['E','N','C','_','S','Y','M'], .symbol .encSym),
    (['E','N','C','_','E','N','D'], .plain .encEnd),
    (['D','E','C','_','B','E','G','I','N'], .plain .decBegin),
    (['D','E','C','_','B','I','T'], .bit .decBit),
    (['D','E','C','_','W','O','R','D'], .countImm .decWord),
    (['D','E','C','_','E','N','D'], .plain .decEnd) ]

/-- The mnemonics of R81 and their operands. -/
def asmTable : List (List Char × AsmShape) := asmTableLow ++ asmTableHigh

/-- Blanks before the next item are skipped. -/
def skipBlanks : List Char → List Char
  | [] => []
  | c :: cs => if c = ' ' then skipBlanks cs else c :: cs

/-- The value of a digit, `0..9`, `A..F`, `a..f`. -/
def digitValue (c : Char) : Option Nat :=
  if 48 ≤ c.toNat ∧ c.toNat ≤ 57 then some (c.toNat - 48)
  else if 65 ≤ c.toNat ∧ c.toNat ≤ 70 then some (c.toNat - 55)
  else if 97 ≤ c.toNat ∧ c.toNat ≤ 102 then some (c.toNat - 87)
  else none

/-- The digits of a number in a base, added to the value so far, and what follows them. -/
def readDigits (base : Nat) : Nat → List Char → Nat × List Char
  | acc, [] => (acc, [])
  | acc, c :: cs =>
    match digitValue c with
    | none => (acc, c :: cs)
    | some d => if d < base then readDigits base (acc * base + d) cs else (acc, c :: cs)

/-- A number at least one digit long in a base. -/
def readBase (base : Nat) (cs : List Char) : Option (Nat × List Char) :=
  let r := readDigits base 0 cs
  if r.2.length < cs.length then some r else none

/-- A number, decimal or `0x..` (R8, R89). DESIGN CHOICE: R8 also has the form `0b..`, and R89 names no base for
an immediate, a bit or a count; the model reads none of them in binary (notes/assumptions/11.md). -/
def readNumber : List Char → Option (Nat × List Char)
  | '0' :: 'x' :: cs => readBase 16 cs
  | cs => readBase 10 cs

/-- A number below a bound. -/
def readBelow (bound : Nat) (cs : List Char) : Option (Nat × List Char) :=
  match readNumber cs with
  | none => none
  | some (n, rest) => if n < bound then some (n, rest) else none

/-- A symbol operand: a number 0..255 or a printable ASCII character in single quotes (R89). -/
def readSymbol : List Char → Option (Nat × List Char)
  | '\'' :: c :: '\'' :: cs => if 32 ≤ c.toNat ∧ c.toNat ≤ 126 then some (c.toNat, cs) else none
  | cs => readBelow 256 cs

/-- The comma between operands. -/
def readComma (cs : List Char) : Option (List Char) :=
  match skipBlanks cs with
  | ',' :: rest => some (skipBlanks rest)
  | _ => none

/-- Nothing but blanks and a comment is left. -/
def lineEnds (cs : List Char) : Bool :=
  match skipBlanks cs with
  | [] => true
  | c :: _ => c == ';'

/-- The command, if the rest of the line is empty and the command is one a word spells (R83). -/
def finishLine (i : Instr) (rest : List Char) : AsmLine :=
  if lineEnds rest && i.wellFormed then .command i else .malformed

/-- Two operands, the second below a bound. -/
def readTwo (first : List Char → Option (Nat × List Char)) (bound : Nat) (cs : List Char) :
    Option (Nat × Nat × List Char) :=
  match first cs with
  | none => none
  | some (a, rest) =>
    match readComma rest with
    | none => none
    | some rest₂ =>
      match readBelow bound rest₂ with
      | none => none
      | some (b, rest₃) => some (a, b, rest₃)

/-- The operands of a mnemonic's shape (R89). -/
def readOperands (shape : AsmShape) (cs : List Char) : AsmLine :=
  match shape with
  | .plain i => finishLine i cs
  | .symbol f =>
    match readSymbol cs with
    | none => .malformed
    | some (a, rest) => finishLine (f (BitVec.ofNat 8 a)) rest
  | .symbolImm f =>
    match readTwo readSymbol 65536 cs with
    | none => .malformed
    | some (a, v, rest) => finishLine (f (BitVec.ofNat 8 a) (BitVec.ofNat 16 v)) rest
  | .symbolBit f =>
    match readTwo readSymbol 2 cs with
    | none => .malformed
    | some (a, b, rest) => finishLine (f (BitVec.ofNat 8 a) (b == 1)) rest
  | .bit f =>
    match readBelow 2 cs with
    | none => .malformed
    | some (b, rest) => finishLine (f (b == 1)) rest
  | .countImm f =>
    match readTwo (readBelow 256) 65536 cs with
    | none => .malformed
    | some (n, v, rest) => finishLine (f (BitVec.ofNat 8 n) (BitVec.ofNat 16 v)) rest

/-- A character of a mnemonic: a capital letter or an underscore. -/
def mnemonicChar (c : Char) : Bool := (decide (65 ≤ c.toNat) && decide (c.toNat ≤ 90)) || c == '_'

/-- One line of assembler text (R89). -/
def asmLine (line : List Char) : AsmLine :=
  let cs := skipBlanks line
  if lineEnds cs then .blank
  else
    match asmTable.find? fun e => e.1 == cs.takeWhile mnemonicChar with
    | none => .malformed
    | some e => readOperands e.2 (skipBlanks (cs.dropWhile mnemonicChar))

/-- The word of a line's command. -/
def asmWord (line : List Char) : Option Word :=
  match asmLine line with
  | .blank => none
  | .command i => some (encode i)
  | .malformed => none

end Sys2Proof.Machine
end

