-- ==== Sys2Proof/Tests/Slice0.lean ====
section
/-! SUPPORT. Tests/Slice0.lean: this model's own tests. Expected values come from the vectors V<n> and programs
P<n> of spec/95_test_vectors.md and from the encodings of spec/30_encoding.md, never from the model; after
them, for each obligation with hypotheses, a witness that meets them. -/

namespace Sys2Proof.Tests

open Sys2Proof.Machine Sys2Proof.Safety

/-! ## Parameters and well-formedness (R5, R81) -/

theorem test_parameter_constraints : Config.constraintsHold = true := by decide
theorem test_illformed_decWord_17_refused : (Instr.decWord 17#8 0#16).wellFormed = false := by decide
theorem test_illformed_decWord_255_refused : (Instr.decWord 255#8 0#16).wellFormed = false := by decide
theorem test_wellformed_decWord_16 : (Instr.decWord 16#8 0xFFFF#16).wellFormed = true := by decide

/-! ## Decoding: words written out from R81's fields, `op`, `sym`, `imm` -/

theorem test_decode_nop : decode 0b00000000_00000000_0000000000000000#32 = .command .nop := by decide +kernel
theorem test_decode_clrerr : decode 0b00000001_00000000_0000000000000000#32 = .command .clrerr := by
  decide +kernel
theorem test_decode_clrall : decode 0b00000010_00000000_0000000000000000#32 = .command .clrall := by
  decide +kernel
theorem test_decode_clrfreq : decode 0b00000011_00000000_0000000000000000#32 = .command .clrfreq := by
  decide +kernel
theorem test_decode_clrcode : decode 0b00000100_00000000_0000000000000000#32 = .command .clrcode := by
  decide +kernel
theorem test_decode_fsym : decode 0b00010000_01100001_0000000000000000#32 = .command (.fsym 0x61#8) := by
  decide +kernel
theorem test_decode_ldfreql :
    decode 0b00010001_01000001_0000000000000011#32 = .command (.ldfreql 0x41#8 3#16) := by decide +kernel
theorem test_decode_ldfreqh :
    decode 0b00010010_11111111_1000000000000001#32 = .command (.ldfreqh 0xFF#8 0x8001#16) := by decide +kernel
theorem test_decode_build : decode 0b00100000_00000000_0000000000000000#32 = .command .build := by
  decide +kernel
theorem test_decode_clrc : decode 0b00110000_01100010_0000000000000000#32 = .command (.clrc 0x62#8) := by
  decide +kernel
theorem test_decode_ldcbit :
    decode 0b00110001_01100010_0000000000000001#32 = .command (.ldcbit 0x62#8 true) := by decide +kernel
theorem test_decode_encBegin : decode 0b01000000_00000000_0000000000000000#32 = .command .encBegin := by
  decide +kernel
theorem test_decode_encSym : decode 0b01000001_01100001_0000000000000000#32 = .command (.encSym 0x61#8) := by
  decide +kernel
theorem test_decode_encEnd : decode 0b01000010_00000000_0000000000000000#32 = .command .encEnd := by
  decide +kernel
theorem test_decode_decBegin : decode 0b01010000_00000000_0000000000000000#32 = .command .decBegin := by
  decide +kernel
theorem test_decode_decBit : decode 0b01010001_00000000_0000000000000001#32 = .command (.decBit true) := by
  decide +kernel
theorem test_decode_decWord :
    decode 0b01010010_00001011_0000011110000101#32 = .command (.decWord 11#8 0x0785#16) := by decide +kernel
theorem test_decode_decEnd : decode 0b01010011_00000000_0000000000000000#32 = .command .decEnd := by
  decide +kernel

/-- V8, V48, V49, V59, V68: a nonzero reserved field. -/
theorem test_decode_reserved_field :
    [0x10610001#32, 0x51010000#32, 0x51000002#32, 0x00010000#32, 0x01010000#32].map decode =
      List.replicate 5 (.illegal .reservedField) := by decide +kernel
/-- V47 (n = 17), and n = 16 of V46 beside it. -/
theorem test_decode_count :
    decode 0x52110000#32 = .illegal .badCount ∧ decode 0x52100000#32 = .command (.decWord 16#8 0#16) := by
  decide +kernel
/-- V60, V61: unassigned opcodes. -/
theorem test_decode_unassigned :
    decode 0x05000000#32 = .illegal .unassignedOp ∧ decode 0xFFFFFFFF#32 = .illegal .unassignedOp := by
  decide +kernel
/-- R82: eighteen opcodes are assigned. -/
theorem test_eighteen_opcodes : assignedOps.length = 18 ∧ assignedOps.Nodup := by decide +kernel

/-! ## Assembler text and pseudo-instructions (the examples of R89; P1 and P6 for R90) -/

theorem test_asm_symbol_char : asmWord "FSYM 'a'".toList = some 0x10610000#32 := by decide +kernel
theorem test_asm_symbol_imm : asmWord "LDFREQL 'A', 3".toList = some 0x11410003#32 := by decide +kernel
theorem test_asm_symbol_bit : asmWord "LDCBIT 'b', 1".toList = some 0x31620001#32 := by decide +kernel
theorem test_asm_bit : asmWord "DEC_BIT 1 ; one bit".toList = some 0x51000001#32 := by decide +kernel
theorem test_asm_count : asmWord "DEC_WORD 11, 0x0785".toList = some 0x520B0785#32 := by decide +kernel
theorem test_asm_plain : asmWord "BUILD".toList = some 0x20000000#32 := by decide +kernel
theorem test_asm_malformed : asmLine "FSYM 256".toList = .malformed := by decide +kernel
/-- P6: the stream of "abracadabra" as its two DEC_WORDs. -/
theorem test_pseudo_decodew :
    (pseudoDecodew ([false, true, true, false, true, true, true, false, true, false, false, false, true,
      false, true, false] ++ [true, true, false, true, true, true, false])).map encode =
      [0x50000000#32, 0x52105176#32, 0x5207003B#32, 0x53000000#32] := by decide +kernel
/-- V4, V3: LDFREQ with and without its second command. -/
theorem test_pseudo_ldfreq :
    (pseudoLdfreq 0x41#8 0x00012345#32).map encode = [0x11412345#32, 0x12410001#32] ∧
    (pseudoLdfreq 0x41#8 3#32).map encode = [0x11410003#32] := by decide +kernel

/-! ## Small states, and one step on them -/

/-- A check of the state a step answers; a fault or a refusal fails it. -/
def nextIs (p : State → Bool) : Answer → Bool
  | .next t => p t
  | .fault _ => false
  | .refused _ => false

/-- The fault record (R33). -/
def record (t : State) : Bool × BitVec 8 × Word × Word := (t.fault, t.errcode, t.errcmd, t.erridx)

/-- From reset, a count for one symbol. -/
def counted (a : Sym) (v : Freq) : State := setFreq a v State.reset
/-- From reset, the table a = "0", b = "10" (`T2` of the spec's vectors), three words consumed. -/
def t2 : State :=
  setCode 0x62#8 (packBits [true, false]) (setCode 0x61#8 (packBits [false]) { State.reset with cmdcnt := 3#32 })
/-- A state with the encode frame open. -/
def inEnc (s : State) : State := { s with phase := .enc }
/-- A state with the decode frame open. -/
def inDec (s : State) : State := { s with phase := .dec }
/-- A code of 255 bits, all 1. -/
def fullCode : Code := { len := 255#8, bits := ~~~0#255 }
/-- A code of 254 bits, all 1. -/
def nearlyFull : Code := { len := 254#8, bits := (~~~0#255) >>> 1 }
/-- Held by the fault of V60: an illegal word at index 0. -/
def held : State := raise .illegalCommand 0x05000000#32 0#32 (countWord State.reset)

/-- V58. -/
theorem test_nop_counts : stepWord 0x00000000#32 State.reset = .next { State.reset with cmdcnt := 1#32 } := rfl
/-- V63, words 1 and 3: dropped, the record kept. -/
theorem test_held_drops :
    nextIs (fun t => record t == (true, 1#8, 0x05000000#32, 0#32) && freqAt t 0x61#8 == 0#32 &&
      t.cmdcnt == 2#32) (stepWord 0x10610000#32 held) = true ∧
    nextIs (fun t => record t == (true, 1#8, 0x05000000#32, 0#32) && t.cmdcnt == 2#32)
      (stepWord 0x01000001#32 held) = true := by decide +kernel
/-- V63, word 4. -/
theorem test_clrerr_clears :
    nextIs (fun t => record t == (false, 0#8, 0#32, 0#32) && t.cmdcnt == 2#32) (stepWord 0x01000000#32 held) =
      true := by decide +kernel
/-- V62. -/
theorem test_clrerr_no_fault :
    stepWord 0x01000000#32 State.reset = .next { State.reset with cmdcnt := 1#32 } := rfl
/-- V61: an unassigned opcode. -/
theorem test_illegal_word :
    nextIs (fun t => record t == (true, 1#8, 0xFFFFFFFF#32, 0#32) && statusWord t == 0x34#32)
      (stepWord 0xFFFFFFFF#32 State.reset) = true := by decide +kernel
/-- V64: the tables and DONE go, the count and the channel stay. -/
theorem test_clrall_keeps_channels :
    nextIs (fun t => t.bout == [.b0, .b1, .eof] && t.cmdcnt == 9#32 && t.done == 0#32 && statusWord t == 0x30#32)
      (stepWord 0x02000000#32
        { counted 0x61#8 1#32 with bout := [.b0, .b1, .eof], cmdcnt := 8#32, done := 2#32 }) = true := by
  decide +kernel
/-- V65: CLRALL in phase ENC. -/
theorem test_clrall_bad_phase :
    nextIs (fun t => record t == (true, 2#8, 0x02000000#32, 1#32) && t.bout == [.abt] && t.phase == .idle)
      (stepWord 0x02000000#32 { inEnc State.reset with cmdcnt := 1#32 }) = true := by decide +kernel
/-- V9, last word: FREQ goes, CODE stays. -/
theorem test_clrfreq_keeps_code :
    nextIs (fun t => freqAt t 0x61#8 == 0#32 && codeOf t 0x62#8 == [true, false] && statusWord t == 0x20#32)
      (stepWord 0x03000000#32 (setFreq 0x61#8 1#32 t2)) = true := by decide +kernel
/-- V29, last word: CODE goes, FREQ stays. -/
theorem test_clrcode_keeps_freq :
    nextIs (fun t => freqAt t 0x61#8 == 1#32 && codeNone (codeAt t 0x62#8) && statusWord t == 0x10#32)
      (stepWord 0x04000000#32 (setFreq 0x61#8 1#32 t2)) = true := by decide +kernel
/-- V1. -/
theorem test_fsym_counts :
    nextIs (fun t => memRead t 0x0161#16 == 1#32 && t.cmdcnt == 1#32 && statusWord t == 0x10#32)
      (stepWord 0x10610000#32 State.reset) = true := by decide +kernel
/-- V6, last word. -/
theorem test_fsym_overflow :
    nextIs (fun t => record t == (true, 5#8, 0x10410000#32, 2#32) && freqAt t 0x41#8 == 0xFFFFFFFF#32 &&
      t.cmdcnt == 3#32 && statusWord t == 0x14#32)
      (stepWord 0x10410000#32 { counted 0x41#8 0xFFFFFFFF#32 with cmdcnt := 2#32 }) = true := by decide +kernel
/-- V5, second word: the high half is cleared. -/
theorem test_ldfreql_clears_high :
    nextIs (fun t => memRead t 0x0141#16 == 0x00002345#32) (stepWord 0x11412345#32 (counted 0x41#8 0x10000#32)) =
      true := by decide +kernel
/-- V4, second word: the low half is kept. -/
theorem test_ldfreqh_keeps_low :
    nextIs (fun t => memRead t 0x0141#16 == 0x00012345#32) (stepWord 0x12410001#32 (counted 0x41#8 0x2345#32)) =
      true := by decide +kernel
/-- V24, second word. -/
theorem test_clrc_empties_entry :
    nextIs (fun t => codeNone (codeAt t 0x62#8) && codeOf t 0x61#8 == [false]) (stepWord 0x30620000#32 t2) =
      true := by decide +kernel
/-- V23, second word. -/
theorem test_ldcbit_appends :
    nextIs (fun t => memRead t 0x0262#16 == 2#32 && memRead t 0x0B10#16 == 1#32 && statusWord t == 0x20#32)
      (stepWord 0x31620000#32 (setCode 0x62#8 (packBits [true]) State.reset)) = true := by decide +kernel
/-- V26, last word: a code of 255 bits is full. -/
theorem test_ldcbit_overflow :
    nextIs (fun t => record t == (true, 6#8, 0x31710001#32, 255#32) && memRead t 0x0271#16 == 0xFF#32 &&
      memRead t 0x0B8E#16 == 0xFFFFFFFF#32 && memRead t 0x0B8F#16 == 0x7FFFFFFF#32)
      (stepWord 0x31710001#32 { setCode 0x71#8 fullCode State.reset with cmdcnt := 255#32 }) = true := by
  decide +kernel
/-- V31. -/
theorem test_encBegin_opens :
    nextIs (fun t => t.phase == .enc && statusWord t == 0x31#32 && t.done == 0#32)
      (stepWord 0x40000000#32 State.reset) = true := by decide +kernel
/-- P2, index 6: first bit first. -/
theorem test_encSym_pushes_code :
    nextIs (fun t => t.bout == [.b1, .b0] && t.done == 1#32) (stepWord 0x41620000#32 (inEnc t2)) = true := by
  decide +kernel
/-- V36. -/
theorem test_encSym_unknown :
    nextIs (fun t => record t == (true, 3#8, 0x41610000#32, 1#32) && t.bout == [.abt] && t.done == 0#32)
      (stepWord 0x41610000#32 { inEnc State.reset with cmdcnt := 1#32 }) = true := by decide +kernel
/-- V33, second word. -/
theorem test_encEnd_closes :
    nextIs (fun t => t.bout == [.eof] && t.phase == .idle && !t.fault) (stepWord 0x42000000#32 (inEnc State.reset)) =
      true := by decide +kernel
/-- V56, last word: the buffer left by a failed frame is cleared. -/
theorem test_decBegin_clears_buffer :
    nextIs (fun t => t.phase == .dec && t.cbuf == Code.empty && t.done == 0#32)
      (stepWord 0x50000000#32 { t2 with cbuf := packBits [true], done := 1#32 }) = true := by decide +kernel
/-- P2, index 16: the buffered 1 and this 0 are b's code. -/
theorem test_decBit_emits :
    nextIs (fun t => t.sout == [.sym 0x62#8] && t.cbuf == Code.empty && t.done == 1#32)
      (stepWord 0x51000000#32 { inDec t2 with cbuf := packBits [true] }) = true := by decide +kernel
/-- V44, second word: an empty table discards the bit. -/
theorem test_decBit_empty_table :
    nextIs (fun t => t.cbuf == Code.empty && t.sout == [] && t.done == 1#32 && !t.fault)
      (stepWord 0x51000001#32 (inDec State.reset)) = true := by decide +kernel
/-- V45: bits of `imm` past the count are ignored. -/
theorem test_decWord_ignores_upper_bits :
    nextIs (fun t => t.sout == [.sym 0x61#8] && t.done == 1#32) (stepWord 0x5201FFFE#32 (inDec t2)) = true := by
  decide +kernel
/-- V52, last word: the fault at bit 2 keeps bit 0's symbol and drops bit 3. -/
theorem test_decWord_stops_at_fault :
    nextIs (fun t => record t == (true, 7#8, 0x52040006#32, 6#32) && t.sout == [.sym 0x61#8, .abt] &&
      t.done == 3#32 && memRead t 0x000B#16 == 2#32 && memRead t 0x0010#16 == 3#32)
      (stepWord 0x52040006#32
        (inDec { setCode 0x63#8 (packBits [true, true])
          (setCode 0x62#8 (packBits [true, true]) (setCode 0x61#8 (packBits [false]) State.reset)) with
          cmdcnt := 6#32 })) = true := by decide +kernel
/-- V42, last word. -/
theorem test_decEnd_closes :
    nextIs (fun t => t.sout == [.eof] && t.phase == .idle && !t.fault) (stepWord 0x53000000#32 (inDec t2)) =
      true := by decide +kernel
/-- P2, index 11. -/
theorem test_decEnd_truncated :
    nextIs (fun t => record t == (true, 4#8, 0x53000000#32, 3#32) && t.sout == [.abt] &&
      memRead t 0x000B#16 == 1#32 && statusWord t == 0x24#32)
      (stepWord 0x53000000#32 { inDec t2 with cbuf := packBits [true] }) = true := by decide +kernel
/-- From reset, the counts of V13: A 1, B 1, C 2. -/
def abc : State := setFreq 0x43#8 2#32 (setFreq 0x42#8 1#32 (counted 0x41#8 1#32))
/-- V13: a leaf and an internal node tie, and the leaf goes first. -/
theorem test_build_tie :
    nextIs (fun t => memRead t 0x0008#16 == 0x80000004#32 && t.nleaf == 3#9 && t.nnode == 5#10 &&
      [0x100C#16, 0x100D#16, 0x100E#16, 0x100F#16].map (memRead t) == [1#32, 2#32, 0#32, 0x10000#32] &&
      (nodeAt t 3).left == 0#9 && (nodeAt t 3).right == 1#9 && nodeAt t 4 == ⟨true, false, true, 0, 4, 2, 3⟩ &&
      codeOf t 0x41#8 == [true, false] && codeOf t 0x42#8 == [true, true] && codeOf t 0x43#8 == [false])
      (exec .build abc) = true := by
  decide +kernel
/-- V11: one symbol. -/
theorem test_build_single :
    nextIs (fun t => memRead t 0x0008#16 == 0x80000000#32 && t.nleaf == 1#9 && t.nnode == 1#10 &&
      [0x1000#16, 0x1001#16, 0x1002#16, 0x1003#16].map (memRead t) == [0x6107#32, 1#32, 0#32, 0#32] &&
      codeOf t 0x61#8 == [false] && statusWord t == 0x08#32)
      (exec .build (counted 0x61#8 1#32)) = true := by decide +kernel
/-- V71, V72, V73: readback at reset, at the ends of the regions. -/
theorem test_readback_reset :
    memRead State.reset 0x0002#16 = 0x30#32 ∧
    [0x0003#16, 0x000B#16, 0x000C#16, 0x0017#16, 0x00FF#16, 0x0100#16, 0x02FF#16, 0x0300#16, 0x07FF#16, 0x0800#16,
      0x17FB#16, 0x17FC#16, 0x1800#16, 0xFFFF#16].map (memRead State.reset) = List.replicate 14 0#32 := by
  decide +kernel
/-- V17's sum, in the four readback words of an internal node (R66). -/
theorem test_readback_node :
    [0, 1, 2, 3].map (nodeWord ⟨true, false, true, 0#8, 0x1FFFFFFFE#40, 0#9, 1#9⟩) =
      [5#32, 0xFFFFFFFE#32, 1#32, 0x10000#32] := by decide +kernel
/-- R37, R38: the wire codes. -/
theorem test_wire_codes :
    [BTok.b0, .b1, .eof, .abt].map btokWire = [0#2, 1#2, 2#2, 3#2] ∧
    [STok.sym 0x61#8, .eof, .abt].map stokWire = [0x061#10, 0x200#10, 0x300#10] := by decide +kernel
/-- P2's end: two decode frames, the first failed, the second the result. -/
theorem test_frames :
    (sframesFrom [] [.sym 0x61#8, .abt, .sym 0x61#8, .sym 0x62#8, .eof]).map decodeResult =
      [([0x61#8], true), ([0x61#8, 0x62#8], false)] := by decide
/-- `withFetchWord` gives the next step its word (V58). -/
theorem test_withFetchWord :
    step (State.reset.withFetchWord 32 0x00000000) = .next { State.reset with cmdcnt := 1#32 } := rfl

/-! ## Witnesses: states and operands that meet each obligation's hypotheses -/

theorem ready_reset : Ready .idle State.reset := ⟨rfl, rfl⟩
theorem ready_t2 : Ready .idle t2 := ⟨rfl, rfl⟩
theorem ready_enc (s : State) (h : s.fault = false) : Ready .enc (inEnc s) := ⟨h, rfl⟩
theorem ready_dec (s : State) (h : s.fault = false) : Ready .dec (inDec s) := ⟨h, rfl⟩

theorem t2_codes (a : Sym) : codeAt t2 a =
    if a = 0x61#8 then packBits [false] else if a = 0x62#8 then packBits [true, false] else Code.empty := by
  unfold t2
  by_cases h : a = 0x62#8
  · subst h; rw [codeAt_setCode_self, if_neg (by decide), if_pos rfl]
  · by_cases h' : a = 0x61#8
    · subst h'; rw [codeAt_setCode_ne h, codeAt_setCode_self, if_pos rfl]
    · rw [if_neg h', if_neg h, codeAt_setCode_ne h, codeAt_setCode_ne h']
      simp [codeAt, State.reset]

theorem t2_hasCode (a : Sym) : hasCode t2 a = true ↔ a = 0x61#8 ∨ a = 0x62#8 := by
  rw [hasCode_iff, t2_codes]
  split
  · exact ⟨fun _ => .inl ‹_›, fun _ => by decide⟩
  · split
    · exact ⟨fun _ => .inr ‹_›, fun _ => by decide⟩
    · exact ⟨fun h => absurd rfl h, fun h => absurd h (by simp [*])⟩

theorem t2_canonical : CodesCanonical t2 := by
  refine ⟨fun a => ?_, codeCanonical_empty⟩
  rw [t2_codes]
  split
  · exact codeCanonical_packBits _ (by decide)
  · split
    · exact codeCanonical_packBits _ (by decide)
    · exact codeCanonical_empty

theorem t2_prefixFree : PrefixFree t2 := by
  intro a b hab ha hb
  rcases (t2_hasCode a).mp ha with rfl | rfl <;> rcases (t2_hasCode b).mp hb with rfl | rfl
  · exact absurd rfl hab
  · simp only [codeOf, t2_codes, if_true]; decide
  · simp only [codeOf, t2_codes, if_true]; decide
  · exact absurd rfl hab

/-- The words a BadPhaseBut clause and an OnlyWordOfOp clause are about: a command outside its phase, and a
word with a bit of either reserved field set (V20, V21, V59). -/
theorem witness_BadPhaseBut :
    (inEnc State.reset).fault = false ∧ (inEnc State.reset).phase ≠ .idle ∧
    (inDec State.reset).phase ≠ .enc ∧ State.reset.phase ≠ .dec := by decide
theorem witness_OnlyWordOfOp (op : BitVec 8) :
    (opField (mkWord op 1#8 0#16) = op ∧ symField (mkWord op 1#8 0#16) ≠ 0#8) ∧
    (opField (mkWord op 0#8 0x8000#16) = op ∧ symField (mkWord op 0#8 0x8000#16) = 0#8 ∧
      immField (mkWord op 0#8 0x8000#16) ≠ 0#16) := by simp
theorem witness_IllegalWord : State.reset.fault = false ∧ (inDec State.reset).fault = false := by decide

theorem witness_ResetReadback :
    (0x0003#16 ≠ 0x0000#16 ∧ 0x0003#16 ≠ 0x0001#16 ∧ 0x0003#16 ≠ 0x0002#16) ∧
    (0xFFFF#16 ≠ 0x0000#16 ∧ 0xFFFF#16 ≠ 0x0001#16 ∧ 0xFFFF#16 ≠ 0x0002#16) := by decide
theorem witness_StepRunsDecodedCommand :
    (State.reset.withFetchWord 32 0x10610000).port = 0x10610000#32 :: [] ∧
    decode 0x10610000#32 = .command (.fsym 0x61#8) := by decide +kernel
theorem witness_StepWithoutWordKeepsState :
    State.reset.port = [] ∧ (State.reset.withFetchWord 32 0x10610000).port = 0x10610000#32 :: [] := by decide
theorem witness_DecodeEncodeAgree :
    (Instr.decWord 16#8 0xFFFF#16).wellFormed = true ∧ (Instr.decWord 0#8 0#16).wellFormed = true ∧
    (Instr.ldfreqh 0xFF#8 0xFFFF#16).wellFormed = true := by decide
theorem witness_DecodedCommandHasItsWord : decode 0x52100000#32 = .command (.decWord 16#8 0#16) := by
  decide +kernel
theorem witness_MaskAndMatchTable :
    (0x10FF0000#32 &&& 0xFF00FFFF#32 = 0x10000000#32) ∧
    (∃ r ∈ rows, 0x5210FFFF#32 &&& r.mask = r.pat ∧
      (r.pat = 0x52000000#32 → (symField 0x5210FFFF#32).toNat ≤ 16)) ∧
    (∀ r ∈ rows, ¬ (0x52110000#32 &&& r.mask = r.pat ∧
      (r.pat = 0x52000000#32 → (symField 0x52110000#32).toNat ≤ 16))) ∧
    (∀ r ∈ rows, ¬ (0x05000000#32 &&& r.mask = r.pat ∧
      (r.pat = 0x52000000#32 → (symField 0x05000000#32).toNat ≤ 16))) := by decide +kernel
theorem witness_IllegalWordsTakeIllegalCommand :
    decode 0x10610001#32 = .illegal .reservedField ∧
    opField 0x05000000#32 ∉ [0x00#8, 0x01#8, 0x02#8, 0x03#8, 0x04#8, 0x10#8, 0x11#8, 0x12#8, 0x20#8, 0x30#8,
      0x31#8, 0x40#8, 0x41#8, 0x42#8, 0x50#8, 0x51#8, 0x52#8, 0x53#8] ∧
    opField 0x54000000#32 ∉ [0x00#8, 0x01#8, 0x02#8, 0x03#8, 0x04#8, 0x10#8, 0x11#8, 0x12#8, 0x20#8, 0x30#8,
      0x31#8, 0x40#8, 0x41#8, 0x42#8, 0x50#8, 0x51#8, 0x52#8, 0x53#8] ∧
    (opField 0x52110000#32 = 0x52#8 ∧ 16 < (symField 0x52110000#32).toNat) ∧
    (opField 0x52FFFFFF#32 = 0x52#8 ∧ 16 < (symField 0x52FFFFFF#32).toNat) := by decide +kernel
theorem witness_HeldCoreDropsWords :
    held.fault = true ∧ 0x01000001#32 ≠ 0x01000000#32 ∧ 0x10610000#32 ≠ 0x01000000#32 := by decide
theorem witness_EveryWordIsCounted :
    State.reset.fault = false ∧
    nextIs (fun t => t.fault) (stepWord 0xFFFFFFFF#32 State.reset) = true ∧
    nextIs (fun t => t.cmdcnt == 0#32 && t.erridx == 0xFFFFFFFF#32)
      (stepWord 0xFFFFFFFF#32 { State.reset with cmdcnt := 0xFFFFFFFF#32 }) = true := by decide +kernel
theorem witness_BadPhaseExactly :
    Instr.build.wellFormed = true ∧ State.reset.fault = false ∧ legalIn .build (inEnc State.reset).phase = false ∧
    legalIn .build State.reset.phase = true ∧ legalIn (.decWord 16#8 0#16) (inDec State.reset).phase = true := by
  decide
theorem witness_ClrerrAcknowledges :
    (RecordConsistent t2 ∧ t2.fault = false) ∧ RecordConsistent held ∧ held.fault = true := by
  refine ⟨⟨⟨fun _ => ⟨rfl, rfl, rfl⟩, fun h => ?_⟩, rfl⟩, ⟨fun h => ?_, fun _ => ⟨rfl, by decide, by decide⟩⟩, rfl⟩
  · exact absurd h (by decide)
  · exact absurd h (by decide)
theorem witness_ClrallEmptiesTables : Ready .idle t2 ∧ RecordConsistent t2 :=
  ⟨ready_t2, witness_ClrerrAcknowledges.1.1⟩
theorem witness_ClrfreqAndClrcodeEmptyOneTable : Ready .idle t2 := ready_t2
theorem witness_FsymCountsOrOverflows :
    Ready .idle (counted 0x61#8 0xFFFFFFFE#32) ∧ freqAt (counted 0x61#8 0xFFFFFFFE#32) 0x61#8 ≠ 0xFFFFFFFF#32 ∧
    Ready .idle (counted 0x61#8 0xFFFFFFFF#32) ∧ freqAt (counted 0x61#8 0xFFFFFFFF#32) 0x61#8 = 0xFFFFFFFF#32 ∧
    opField 0x10610001#32 = 0x10#8 ∧ immField 0x10610001#32 ≠ 0#16 :=
  ⟨⟨rfl, rfl⟩, by decide +kernel, ⟨rfl, rfl⟩, by decide +kernel, by decide, by decide⟩
theorem witness_LdfreqlLoadsLowHalf : Ready .idle (counted 0xFF#8 0xFFFF0000#32) ∧ opField 0x11FFFFFF#32 = 0x11#8 :=
  ⟨⟨rfl, rfl⟩, by decide⟩
theorem witness_LdfreqhLoadsHighHalf : Ready .idle (counted 0x00#8 0x0000FFFF#32) ∧ opField 0x12000000#32 = 0x12#8 :=
  ⟨⟨rfl, rfl⟩, by decide⟩
theorem witness_ClrcRemovesOneCode :
    Ready .idle t2 ∧ codeAt t2 0x63#8 = Code.empty ∧ codeAt t2 0x62#8 ≠ Code.empty ∧
    opField 0x30620001#32 = 0x30#8 ∧ immField 0x30620001#32 ≠ 0#16 :=
  ⟨ready_t2, by decide +kernel, by decide +kernel, by decide, by decide⟩
theorem witness_LdcbitAppendsOrOverflows :
    Ready .idle (setCode 0x71#8 nearlyFull State.reset) ∧
    (codeAt (setCode 0x71#8 nearlyFull State.reset) 0x71#8).len ≠ 255#8 ∧
    Ready .idle (setCode 0x71#8 fullCode State.reset) ∧
    (codeAt (setCode 0x71#8 fullCode State.reset) 0x71#8).len = 255#8 ∧
    opField 0x31620002#32 = 0x31#8 ∧ (immField 0x31620002#32).toNat / 2 ≠ 0 :=
  ⟨⟨rfl, rfl⟩, by decide +kernel, ⟨rfl, rfl⟩, by decide +kernel, by decide, by decide⟩
theorem witness_EncBeginOpensFrame : Ready .idle t2 := ready_t2
theorem witness_EncSymPushesCode :
    Ready .enc (inEnc t2) ∧ (codeAt (inEnc t2) 0x61#8).len = 1#8 ∧ (codeAt (inEnc t2) 0x61#8).len ≠ 0#8 ∧
    (codeAt (inEnc t2) 0x63#8).len = 0#8 ∧ opField 0x41610001#32 = 0x41#8 ∧ immField 0x41610001#32 ≠ 0#16 ∧
    Ready .enc (inEnc (setCode 0x71#8 fullCode State.reset)) ∧
    (codeAt (inEnc (setCode 0x71#8 fullCode State.reset)) 0x71#8).len ≠ 0#8 :=
  ⟨ready_enc _ rfl, by decide +kernel, by decide +kernel, by decide +kernel, by decide, by decide,
    ready_enc _ rfl, by decide +kernel⟩
theorem witness_EncEndClosesFrame : Ready .enc (inEnc t2) := ready_enc _ rfl
theorem witness_DecBeginOpensFrame : Ready .idle t2 := ready_t2

theorem nextIs_next {p : State → Bool} {x : Answer} (h : nextIs p x = true) : ∃ t, x = .next t ∧ p t = true := by
  cases x with
  | next t => exact ⟨t, rfl, h⟩
  | fault _ => exact absurd h (by simp [nextIs])
  | refused _ => exact absurd h (by simp [nextIs])

/-- From reset, a = "0" and both b and c = "11" (V52), six words consumed, the decode frame open. -/
def dup : State :=
  inDec (setCode 0x63#8 (packBits [true, true]) (setCode 0x62#8 (packBits [true, true])
    (setCode 0x61#8 (packBits [false]) { State.reset with cmdcnt := 6#32 })))
/-- A state whose buffer holds V52's first 1. -/
def dup1 : State := { dup with cbuf := packBits [true] }

theorem t2_oneMatch : OneMatch (inDec t2) (codeSnoc Code.empty false) 0x61#8 := by
  intro b
  show codeAt t2 b = packBits [false] ↔ b = 0x61#8
  rw [t2_codes]
  split
  · simp [*]
  · split
    · exact ⟨fun h => absurd h (by decide), fun h => absurd h ‹_›⟩
    · exact ⟨fun h => absurd h (by decide), fun h => absurd h ‹_›⟩

theorem t2_noMatch : NoMatch (inDec t2) (codeSnoc Code.empty true) := by
  intro b
  show codeAt t2 b ≠ packBits [true]
  rw [t2_codes]
  split
  · decide
  · split
    · decide
    · decide

theorem dup_manyMatch : ManyMatch dup1 (codeSnoc dup1.cbuf true) :=
  ⟨0x62#8, 0x63#8, by decide, by decide +kernel, by decide +kernel⟩

theorem reset_noCode (a : Sym) : hasCode State.reset a = false := by
  simp [hasCode, codeAt, State.reset, codeNone, Code.empty]

/-- DEC_BIT: an empty table; a full buffer; a buffer of 254 bits; one, no and two matches. -/
theorem witness_DecBitAppendsAndMatches :
    (Ready .dec (inDec State.reset) ∧ ∀ a : Sym, hasCode (inDec State.reset) a = false) ∧
    (Ready .dec { inDec t2 with cbuf := fullCode } ∧ hasCode { inDec t2 with cbuf := fullCode } 0x61#8 = true ∧
      fullCode.len = 255#8) ∧
    (Ready .dec { inDec t2 with cbuf := nearlyFull } ∧ nearlyFull.len ≠ 255#8) ∧
    (Ready .dec (inDec t2) ∧ hasCode (inDec t2) 0x61#8 = true ∧ (inDec t2).cbuf.len ≠ 255#8 ∧
      OneMatch (inDec t2) (codeSnoc (inDec t2).cbuf false) 0x61#8 ∧
      NoMatch (inDec t2) (codeSnoc (inDec t2).cbuf true)) ∧
    (Ready .dec dup1 ∧ dup1.cbuf.len ≠ 255#8 ∧ ManyMatch dup1 (codeSnoc dup1.cbuf true)) ∧
    (opField 0x51010000#32 = 0x51#8 ∧ symField 0x51010000#32 ≠ 0#8) ∧
    opField 0x51000002#32 = 0x51#8 ∧ (immField 0x51000002#32).toNat / 2 ≠ 0 :=
  ⟨⟨⟨rfl, rfl⟩, reset_noCode⟩,
    ⟨⟨rfl, rfl⟩, (t2_hasCode _).mpr (.inl rfl), rfl⟩, ⟨⟨rfl, rfl⟩, by decide⟩,
    ⟨⟨rfl, rfl⟩, (t2_hasCode _).mpr (.inl rfl), by decide, t2_oneMatch, t2_noMatch⟩,
    ⟨⟨rfl, rfl⟩, by decide, dup_manyMatch⟩, by decide, by decide, by decide⟩

/-- DEC_WORD: count 16, count 0, a run without a fault, a fault at the last bit, two words that differ past the
count only. -/
theorem witness_DecWordIsItsBits :
    ((16#8 : Sym).toNat ≤ 16 ∧ (0#8 : Sym).toNat ≤ 16) ∧ Ready .dec (inDec t2) ∧ Ready .dec dup1 ∧
    (∃ u, runWords ((wordBits 1#8 0#16).map fun b => encode (.decBit b)) (inDec t2) = .next u ∧ u.fault = false) ∧
    (0 < (1#8 : Sym).toNat ∧
      runWords (((wordBits 1#8 1#16).take 0).map fun b => encode (.decBit b)) dup1 = .next dup1 ∧
      dup1.fault = false ∧
      ∃ u, runWords (((wordBits 1#8 1#16).take 1).map fun b => encode (.decBit b)) dup1 = .next u ∧
        u.fault = true) ∧
    (∀ k, k < (1#8 : Sym).toNat → (0xFFFE#16).getLsbD k = (0#16).getLsbD k) ∧
    (∃ t', exec (.decWord 1#8 0xFFFE#16) (inDec t2) = .next t') ∧
    opField 0x52110000#32 = 0x52#8 ∧ 16 < (symField 0x52110000#32).toNat := by
  refine ⟨by decide, ⟨rfl, rfl⟩, ⟨rfl, rfl⟩, ?_, ⟨by decide, rfl, rfl, ?_⟩, by decide, ⟨_, rfl⟩, by decide, by decide⟩
  · obtain ⟨u, h, hp⟩ := nextIs_next (p := fun t => !t.fault)
      (x := runWords ((wordBits 1#8 0#16).map fun b => encode (.decBit b)) (inDec t2)) (by decide +kernel)
    exact ⟨u, h, by simpa using hp⟩
  · obtain ⟨u, h, hp⟩ := nextIs_next (p := fun t => t.fault)
      (x := runWords (((wordBits 1#8 1#16).take 1).map fun b => encode (.decBit b)) dup1) (by decide +kernel)
    exact ⟨u, h, hp⟩

theorem witness_DecEndClosesOrTruncates :
    Ready .dec (inDec t2) ∧ (inDec t2).cbuf.len = 0#8 ∧ Ready .dec dup1 ∧ dup1.cbuf.len ≠ 0#8 ∧
    Ready .dec { inDec t2 with cbuf := fullCode } ∧ fullCode.len ≠ 0#8 :=
  ⟨⟨rfl, rfl⟩, rfl, ⟨rfl, rfl⟩, by decide, ⟨rfl, rfl⟩, by decide⟩

/-! ### BUILD -/

theorem ready_abc : Ready .idle abc := ⟨rfl, rfl⟩

/-- What V13 says of the built state, for the witnesses below. -/
theorem built_abc : ∃ t, exec .build abc = .next t ∧ t.nleaf = 3#9 ∧ t.nnode = 5#10 ∧
    (nodeAt t 3).left = 0#9 ∧ (nodeAt t 3).right = 1#9 := by
  obtain ⟨t, h, hp⟩ := nextIs_next test_build_tie
  simp only [Bool.and_eq_true, beq_iff_eq] at hp
  exact ⟨t, h, hp.1.1.1.1.1.1.1.1.2, hp.1.1.1.1.1.1.1.2, hp.1.1.1.1.1.2, hp.1.1.1.1.2⟩

theorem witness_BuildCompletes : Ready .idle abc := ready_abc
theorem witness_BuildSmallTables :
    ((∃ t, exec .build State.reset = .next t) ∧ ∀ a : Sym, freqAt State.reset a = 0#32) ∧
    (∃ t, exec .build (counted 0xFF#8 0xFFFFFFFF#32) = .next t) ∧ Ready .idle (counted 0xFF#8 0xFFFFFFFF#32) ∧
    freqAt (counted 0xFF#8 0xFFFFFFFF#32) 0xFF#8 ≠ 0#32 ∧
    ∀ b : Sym, b ≠ 0xFF#8 → freqAt (counted 0xFF#8 0xFFFFFFFF#32) b = 0#32 := by
  have z : ∀ a : Sym, freqAt State.reset a = 0#32 := fun a => by simp [freqAt, State.reset]
  refine ⟨⟨⟨_, rfl⟩, z⟩, ⟨_, rfl⟩, ⟨rfl, rfl⟩, ?_, fun b hb => ?_⟩
  · rw [counted, freqAt_setFreq_self]; decide
  · rw [counted, freqAt_setFreq_ne hb]; exact z b
theorem witness_BuildMakesLeavesInOrder :
    Ready .idle abc ∧ ∃ t, exec .build abc = .next t ∧ 0 < t.nleaf.toNat ∧ 2 < t.nleaf.toNat := by
  obtain ⟨t, h, hl, -⟩ := built_abc
  exact ⟨ready_abc, t, h, by rw [hl]; decide, by rw [hl]; decide⟩
/-- At node 3 the node 2 is neither child and no earlier node's child; node 4 is the last, and node 3 is internal
and earlier than it. -/
theorem witness_BuildMergesTwoLowest :
    Ready .idle abc ∧ ∃ t, exec .build abc = .next t ∧
      (t.nleaf.toNat ≤ 3 ∧ 3 < t.nnode.toNat) ∧ (t.nleaf.toNat ≤ 4 ∧ 4 < t.nnode.toNat) ∧
      2 ≠ (nodeAt t 3).left.toNat ∧ 2 ≠ (nodeAt t 3).right.toNat ∧
      ∀ q, t.nleaf.toNat ≤ q → q < 3 → (nodeAt t q).left.toNat ≠ 2 ∧ (nodeAt t q).right.toNat ≠ 2 := by
  obtain ⟨t, h, hl, hn, hL, hR⟩ := built_abc
  refine ⟨ready_abc, t, h, ?_, ?_, ?_, ?_, ?_⟩
  · rw [hl, hn]; decide
  · rw [hl, hn]; decide
  · rw [hL]; decide
  · rw [hR]; decide
  · intro q h1 h2; rw [hl] at h1; exact absurd h1 (Nat.not_le.mpr h2)
theorem witness_BuildRootCountsEverything :
    Ready .idle abc ∧ (∃ t, exec .build abc = .next t) ∧ ∃ a : Sym, freqAt abc a ≠ 0#32 :=
  ⟨ready_abc, ⟨_, rfl⟩, 0x43#8, by rw [abc, freqAt_setFreq_self]; decide⟩
theorem witness_BuildCodesArePaths :
    Ready .idle abc ∧ (∃ t, exec .build abc = .next t ∧ 2 ≤ t.nleaf.toNat) ∧
    freqAt abc 0x43#8 ≠ 0#32 ∧ freqAt abc 0x44#8 = 0#32 := by
  obtain ⟨t, h, hl, -⟩ := built_abc
  exact ⟨ready_abc, ⟨t, h, by rw [hl]; decide⟩, by decide +kernel, by decide +kernel⟩
theorem witness_BuildDependsOnFreqAlone :
    Ready .idle abc ∧ Ready .idle (setCode 0x41#8 fullCode abc) ∧ abc.freq = (setCode 0x41#8 fullCode abc).freq ∧
    ∃ t u t', exec .build abc = .next t ∧ exec .build t = .next u ∧
      exec .build (setCode 0x41#8 fullCode abc) = .next t' :=
  ⟨ready_abc, ⟨rfl, rfl⟩, rfl, _, _, _, rfl, rfl, rfl⟩
theorem witness_BuiltTableIsPrefixFreeAndCovers : Ready .idle abc ∧ ∃ t, exec .build abc = .next t :=
  ⟨ready_abc, _, rfl⟩
theorem witness_BuiltTableIsComplete :
    Ready .idle abc ∧ (∃ t, exec .build abc = .next t ∧ 2 ≤ t.nleaf.toNat) ∧
    (List.replicate 255 true : Bits).length = 255 := by
  obtain ⟨t, h, hl, -⟩ := built_abc
  exact ⟨ready_abc, ⟨t, h, by rw [hl]; decide⟩, List.length_replicate⟩
/-- The competitor that gives every symbol its eight bits. -/
theorem witness_BuiltTableIsOptimal :
    Ready .idle abc ∧ (∃ t, exec .build abc = .next t) ∧
    (∀ a : Sym, freqAt abc a ≠ 0#32 → ((List.range 8).map fun k => a.getLsbD k) ≠ []) ∧
    ∀ a b : Sym, a ≠ b → freqAt abc a ≠ 0#32 → freqAt abc b ≠ 0#32 →
      ¬ ((List.range 8).map fun k => a.getLsbD k) <+: ((List.range 8).map fun k => b.getLsbD k) := by
  refine ⟨ready_abc, ⟨_, rfl⟩, fun a _ => by simp, fun a b hab _ _ h => hab ?_⟩
  have e := h.eq_of_length (by simp)
  refine BitVec.eq_of_getLsbD_eq fun i hi => ?_
  have := congrArg (fun l => l[i]?) e
  simpa [hi] using this
theorem witness_BufferDecodeIsTreeWalk :
    Ready .idle abc ∧ ∃ t, exec .build abc = .next t ∧ 2 ≤ t.nleaf.toNat := by
  obtain ⟨t, h, hl, -⟩ := built_abc
  exact ⟨ready_abc, t, h, by rw [hl]; decide⟩

/-! ### Invariants and whole-machine rules -/

theorem witness_StepKeepsCodesCanonical :
    CodesCanonical { t2 with port := [0x31620001#32] } ∧ ∃ t, step { t2 with port := [0x31620001#32] } = .next t :=
  ⟨t2_canonical, step_next _⟩
theorem witness_StepKeepsRecordConsistent :
    RecordConsistent { held with port := [0x01000000#32] } ∧ ∃ t, step { held with port := [0x01000000#32] } = .next t :=
  ⟨witness_ClrerrAcknowledges.2.1, step_next _⟩
theorem witness_StepKeepsFramesClosed :
    FramesClosed { inEnc t2 with bout := [.b0], port := [0x42000000#32] } ∧
    FramesClosed { t2 with bout := [.b0, .eof], sout := [.abt], port := [0x50000000#32] } ∧
    (∃ t, step { inEnc t2 with bout := [.b0], port := [0x42000000#32] } = .next t) ∧
    ∃ t, step { t2 with bout := [.b0, .eof], sout := [.abt], port := [0x50000000#32] } = .next t :=
  ⟨⟨fun h => absurd rfl h, fun _ => rfl⟩, ⟨fun _ => rfl, fun _ => rfl⟩, step_next _, step_next _⟩

/-- The arena of V11: one leaf, which is the root. -/
def oneLeaf : State :=
  { counted 0x61#8 1#32 with
    node := putNode State.reset.node 0 ⟨true, true, true, 0x61#8, 1#40, 0#9, 0#9⟩
    root := { v := true, idx := 0#9 }, nleaf := 1#9, nnode := 1#10, port := [0x02000000#32] }

theorem oneLeaf_zero : nodeAt oneLeaf 0 = ⟨true, true, true, 0x61#8, 1#40, 0#9, 0#9⟩ :=
  nodeIn_putNode_self (by decide) _ _
theorem oneLeaf_other (i : Nat) (h : i ≠ 0) : nodeAt oneLeaf i = Node.empty := by
  show nodeIn (putNode State.reset.node 0 _) i = _
  rw [nodeIn_putNode_ne h]
  by_cases hi : i < 511
  · simp [nodeIn, State.reset, hi]
  · exact nodeIn_of_ge (by omega) _

theorem witness_StepKeepsArenaSound : ArenaSound oneLeaf ∧ ∃ t, step oneLeaf = .next t := by
  have n1 : oneLeaf.nleaf.toNat = 1 := rfl
  have n2 : oneLeaf.nnode.toNat = 1 := rfl
  refine ⟨⟨⟨by rw [n1]; decide, by rw [n2]; rfl, fun i _ => ?_, fun i hi => oneLeaf_other i (by omega)⟩,
    ⟨fun i hi => ?_, fun i j h1 h2 => ?_, fun k h1 h2 => ?_, fun c hc => ?_, fun q h1 h2 => ?_⟩,
    fun k h1 h2 => ?_, ⟨fun h => absurd h (by decide), fun _ => ⟨rfl, rfl, fun i hi => ?_⟩⟩⟩, step_next _⟩
  · by_cases h : i = 0
    · subst h; rw [oneLeaf_zero, n2]; simp
    · rw [oneLeaf_other i h, n2]; simp [Node.empty]; omega
  · obtain rfl : i = 0 := by omega
    rw [oneLeaf_zero]; exact ⟨rfl, rfl, rfl⟩
  all_goals first
    | omega
    | (obtain rfl : i = 0 := by omega
       rw [oneLeaf_zero, n2]; simp)

theorem witness_OnlyTheListedCommandsWrite :
    (∃ t, exec (.fsym 0x61#8) State.reset = .next t ∧ t.fault = State.reset.fault) ∧
    ∃ t, exec .clrerr held = .next t ∧ t.fault ≠ held.fault := by
  refine ⟨?_, _, rfl, by decide⟩
  obtain ⟨t, h, hp⟩ := nextIs_next (p := fun t => !t.fault) (x := exec (.fsym 0x61#8) State.reset) (by decide +kernel)
  exact ⟨t, h, (Bool.not_eq_true' _).mp hp⟩
/-- A command that is neither DEC_BIT nor DEC_WORD; DEC_BIT outside phase DEC; DEC_BIT and DEC_WORD in phase DEC (V51,
V52). -/
theorem witness_FaultsArePrecise :
    ((∃ t, stepWord 0x41610000#32 (inEnc State.reset) = .next t ∧ t.fault = true) ∧
      (∀ b, decode 0x41610000#32 ≠ .command (.decBit b)) ∧ ∀ n v, decode 0x41610000#32 ≠ .command (.decWord n v)) ∧
    ((∃ t, stepWord 0x51000001#32 State.reset = .next t ∧ t.fault = true) ∧ State.reset.phase ≠ .dec) ∧
    (∃ t, stepWord 0x51000001#32 dup1 = .next t ∧ t.fault = true) ∧
    decode 0x51000001#32 = .command (.decBit true) ∧
    (∃ t, stepWord 0x52040006#32 dup = .next t ∧ t.fault = true) ∧
    decode 0x52040006#32 = .command (.decWord 4#8 6#16) ∧ dup.phase = .dec ∧ dup.fault = false := by
  have d : decode 0x41610000#32 = .command (.encSym 0x61#8) := by decide +kernel
  refine ⟨⟨nextIs_next (p := fun t => t.fault) (by decide +kernel), fun b => ?_, fun n v => ?_⟩,
    ⟨nextIs_next (p := fun t => t.fault) (by decide +kernel), by decide⟩,
    nextIs_next (p := fun t => t.fault) (by decide +kernel), by decide +kernel,
    nextIs_next (p := fun t => t.fault) (by decide +kernel), by decide +kernel, rfl, rfl⟩
  · rw [d]; exact fun h => by cases h
  · rw [d]; exact fun h => by cases h
theorem witness_FaultPriority :
    ((∃ t, stepWord 0x05000000#32 held = .next t) ∧ held.fault = true) ∧
    (State.reset.fault = false ∧ decode 0x41610001#32 = .illegal .reservedField) ∧
    (decode 0x10410000#32 = .command (.fsym 0x41#8) ∧ legalIn (.fsym 0x41#8) (inEnc State.reset).phase = false) ∧
    legalIn (.encSym 0x61#8) (inEnc State.reset).phase = true ∧
    ∃ t, stepWord 0x41610000#32 (inEnc State.reset) = .next t ∧ t.fault = true :=
  ⟨⟨stepWord_next _ _, rfl⟩, ⟨rfl, by decide +kernel⟩, ⟨by decide +kernel, rfl⟩, rfl,
    nextIs_next (p := fun t => t.fault) (by decide +kernel)⟩
/-- V63. -/
theorem witness_DroppedWordsAreCounted :
    (∃ t, stepWord 0x05000000#32 State.reset = .next t ∧ t.fault = true) ∧ State.reset.fault = false ∧
    ∀ x ∈ [0x10610000#32, 0xFFFFFFFF#32, 0x01000001#32], x ≠ 0x01000000#32 :=
  ⟨nextIs_next (p := fun t => t.fault) (by decide +kernel), rfl, by simp⟩
/-- The last buffer word and bit; the ends of the unassigned ranges. -/
theorem witness_StatusRegistersRead :
    (7 < 8 ∧ 31 < 32 ∧ 6 ≤ 6) ∧ (0x000C#16 ≤ 0x000C#16 ∧ 0x000F#16 ≤ 0x000F#16) ∧
    0x0018#16 ≤ 0x0018#16 ∧ 0x00FF#16 ≤ 0x00FF#16 := by decide
theorem witness_TablesReadByTheMap :
    (7 < 8 ∧ 31 < 32 ∧ 510 < 511) ∧ (0x0300#16 ≤ 0x07FF#16 ∧ 0x07FF#16 ≤ 0x07FF#16) ∧
    0x17FC#16 ≤ 0x17FC#16 ∧ 0x17FC#16 ≤ 0xFFFF#16 := by decide
theorem witness_StoresChangeOnlyTheirReadback :
    (∃ t, exec (.fsym 0x61#8) State.reset = .next t) ∧ ¬ storesAt (.fsym 0x61#8) (0x0160#16).toNat ∧
    ¬ storesAt (.fsym 0x61#8) (0x0162#16).toNat ∧ 0x0100 ≤ (0x0160#16).toNat ∧
    ¬ storesAt (.ldcbit 0x00#8 true) (0x0808#16).toNat ∧
    (∃ t, stepWord 0xFFFFFFFF#32 State.reset = .next t) ∧ ∃ why, decode 0xFFFFFFFF#32 = .illegal why :=
  ⟨⟨_, rfl⟩, by simp [storesAt], by simp [storesAt], by decide, by simp [storesAt], stepWord_next _ _,
    .unassignedOp, by decide +kernel⟩

/-! ### Runs -/

theorem count_small (ts : List Sym) (h : ts.length < 2 ^ 32) (a : Sym) : ts.count a < 2 ^ 32 :=
  Nat.lt_of_le_of_lt List.count_le_length h

theorem witness_CountingGivesTheFrequencies :
    Ready .idle State.reset ∧ ∀ a : Sym, [0x61#8, 0x62#8, 0x61#8].count a < 2 ^ 32 :=
  ⟨ready_reset, count_small _ (by decide)⟩
theorem witness_FrameEquation :
    Ready .idle t2 ∧ (∀ a ∈ [0x61#8, 0x62#8], hasCode t2 a = true) ∧ (∀ a ∈ ([] : List Sym), hasCode t2 a = true) ∧
    hasCode t2 0x63#8 = false := by
  refine ⟨ready_t2, fun a ha => (t2_hasCode a).mpr (by simpa using ha), by simp, ?_⟩
  have : ¬ hasCode t2 0x63#8 = true := fun h => absurd ((t2_hasCode _).mp h) (by decide)
  simpa using this
theorem witness_EmptyTableDecodesToNothing : Ready .idle State.reset ∧ ∀ a : Sym, hasCode State.reset a = false :=
  ⟨ready_reset, reset_noCode⟩
theorem witness_FullBufferEndsTruncated :
    Ready .dec { inDec t2 with cbuf := fullCode } ∧ ({ inDec t2 with cbuf := fullCode } : State).cbuf.len = 255#8 :=
  ⟨⟨rfl, rfl⟩, rfl⟩
theorem witness_PrefixFreeTableIsNeverAmbiguous :
    CodesCanonical (inDec t2) ∧ PrefixFree (inDec t2) ∧ (inDec t2).fault = false ∧
    ∃ t, stepWord 0x51000001#32 (inDec t2) = .next t :=
  ⟨t2_canonical, t2_prefixFree, rfl, stepWord_next _ _⟩
theorem witness_RoundTripPrefixFreeTable :
    Ready .idle t2 ∧ CodesCanonical t2 ∧ PrefixFree t2 ∧ ∀ a ∈ [0x61#8, 0x62#8], hasCode t2 a = true :=
  ⟨ready_t2, t2_canonical, t2_prefixFree, witness_FrameEquation.2.1⟩
theorem witness_RoundTripFromReset : ∀ a : Sym, [0x61#8, 0x61#8, 0x62#8].count a < 2 ^ 32 :=
  count_small _ (by decide)

end Sys2Proof.Tests
end

/-! SUPPORT. What one step can do, said once: the rule of each command, its frame (10_state.md R22), and the
principle by which a predicate is kept by every step. -/

namespace Sys2Proof.Proofs

open Sys2Proof.Machine Sys2Proof.Safety

/-! ## Frames -/

theorem unchangedBut_refl (es : List Elem) (s : State) : UnchangedBut es s s := by
  intro e _
  cases e <;> rfl

/-- Agreement on an element is equality of one projection, so it composes. -/
theorem agree_trans {e : Elem} {s t u : State} (h : Agree e s t) (h' : Agree e t u) : Agree e s u := by
  cases e <;> exact Eq.trans h' h

theorem unchangedBut_trans {es fs : List Elem} {s t u : State} (h : UnchangedBut es s t)
    (h' : UnchangedBut fs t u) : UnchangedBut (es ++ fs) s u := by
  intro e he
  rw [List.mem_append, not_or] at he
  exact agree_trans (h e he.1) (h' e he.2)

theorem unchangedBut_mono {es fs : List Elem} {s t : State} (hsub : es ⊆ fs) (h : UnchangedBut es s t) :
    UnchangedBut fs s t := fun e he => h e fun hes => he (hsub hes)

/-- R184: the fault entry writes the record, PHASE and the channels. -/
theorem unchangedBut_raise (c : Cause) (w idx : Word) (s : State) :
    UnchangedBut faultElems s (raise c w idx s) := by
  intro e he
  cases e <;> simp [faultElems, Agree] at he ⊢

theorem unchangedBut_countWord (s : State) : UnchangedBut [.cmdcnt] s (countWord s) := by
  intro e he
  cases e <;> simp [Agree] at he ⊢

theorem unchangedBut_clearRecord (s : State) : UnchangedBut (writesOf .clrerr) s (clearRecord s) := by
  intro e he
  cases e <;> simp [writesOf, Agree] at he ⊢

/-! ## A list of decoded bits (44_decoder.md R155) -/

/-- `t` is `s` but for DONE, CBUF and SOUT, and perhaps a fault taken after those (R152, R155); a canonical buffer
stays canonical (R30). -/
def BitsLeadTo (w idx : Word) (s t : State) : Prop :=
  ∃ d c o, (CodeCanonical s.cbuf → CodeCanonical c) ∧
    (t = { s with done := d, cbuf := c, sout := o } ∨
      t = raise .ambiguousCode w idx { s with done := d, cbuf := c, sout := o })

theorem decBits_cases (w idx : Word) (bs : Bits) (s : State) : BitsLeadTo w idx s (decBits w idx bs s) := by
  induction bs generalizing s with
  | nil => exact ⟨s.done, s.cbuf, s.sout, id, .inl rfl⟩
  | cons b bs ih =>
    have onward {d : Word} {c : Code} {o : List STok} (hc : CodeCanonical s.cbuf → CodeCanonical c)
        (hb : decBit w idx b s = .ok { s with done := d, cbuf := c, sout := o }) :
        BitsLeadTo w idx s (decBits w idx (b :: bs) s) := by
      obtain ⟨d', c', o', hc', h⟩ := ih { s with done := d, cbuf := c, sout := o }
      exact ⟨d', c', o', hc' ∘ hc, by simpa only [decBits, hb] using h⟩
    rcases decBit_cases w idx b s with ⟨-, hb⟩ | ⟨-, hne, ⟨-, hb⟩ | ⟨a, -, hb⟩ | ⟨-, hb⟩⟩
    · exact onward (c := s.cbuf) (o := s.sout) id hb
    · exact onward (o := s.sout) (fun hc => codeCanonical_codeSnoc hc b hne) hb
    · exact onward (fun _ => codeCanonical_empty) hb
    · exact ⟨_, _, s.sout, fun hc => codeCanonical_codeSnoc hc b hne, .inr (by rw [decBits, hb])⟩

/-- DEC_BIT is DEC_WORD's shifter on one bit (R154, R155). -/
theorem bitState_decBit (w idx : Word) (b : Bool) (s : State) :
    bitState (decBit w idx b s) = decBits w idx [b] s := by
  rw [decBits]
  cases decBit w idx b s <;> rfl

/-! ## The rules of the commands -/

/-- What a command does where R84 step 5 reaches it, given its word and stream index. CLRERR has no rule there:
it runs before the test of FAULT (`exec_clrerr`). -/
def ruleOf : Instr → Word → Word → State → State
  | .nop, _, _, t => t
  | .clrerr, _, _, t => t
  | .clrall, _, _, t => { clearCode (clearTree (clearFreq t)) with cbuf := Code.empty, done := 0#32 }
  | .clrfreq, _, _, t => clearFreq t
  | .clrcode, _, _, t => clearCode t
  | .fsym a, w, idx, t =>
    if freqAt t a = 0xFFFFFFFF#32 then raise .freqOverflow w idx t else setFreq a (freqAt t a + 1#32) t
  | .ldfreql a v, _, _, t => setFreq a (lowCount v) t
  | .ldfreqh a v, _, _, t => setFreq a (highCount v (freqAt t a)) t
  | .build, _, _, t => buildTree t
  | .clrc a, _, _, t => setCode a Code.empty t
  | .ldcbit a b, w, idx, t =>
    if codeFull (codeAt t a) then raise .codeOverflow w idx t else setCode a (codeSnoc (codeAt t a) b) t
  | .encBegin, _, _, t => { t with phase := .enc, done := 0#32 }
  | .encSym a, w, idx, t =>
    if codeNone (codeAt t a) then raise .unknownSymbol w idx t
    else { t with bout := t.bout ++ bitToks (codeOf t a), done := t.done + 1#32 }
  | .encEnd, _, _, t => { pushB .eof t with phase := .idle }
  | .decBegin, _, _, t => { t with phase := .dec, done := 0#32, cbuf := Code.empty }
  | .decBit b, w, idx, t => decBits w idx [b] t
  | .decWord n v, w, idx, t => decBits w idx (wordBits n v) t
  | .decEnd, w, idx, t =>
    if codeNone t.cbuf then { pushS .eof t with phase := .idle } else raise .truncatedCode w idx t

/-- Every command but CLRERR is the common step over its rule (30_encoding.md R84). -/
theorem exec_eq_runCommand {i : Instr} (h : i ≠ .clrerr) (s : State) :
    exec i s = .next (runCommand i (ruleOf i) s) := by
  cases i
  case clrerr => exact absurd rfl h
  case encSym a => simp only [exec, execEncSym, shiftOut_eq]; rfl
  case decBit b => simp only [exec, execDecBit, bitState_decBit]; rfl
  all_goals rfl

/-- A rule writes what R22 lists its command as a writer of, and after that may take a fault (R184). -/
def Writes (i : Instr) (w idx : Word) (s t : State) : Prop :=
  UnchangedBut (writesOf i) s t ∨ ∃ c u, UnchangedBut (writesOf i) s u ∧ t = raise c w idx u

theorem unchangedBut_decBits {es : List Elem} (hes : [.cbuf, .done, .sout] ⊆ es) (s : State) (d : Word) (c : Code)
    (o : List STok) : UnchangedBut es s { s with done := d, cbuf := c, sout := o } := by
  refine unchangedBut_mono hes fun e he => ?_
  cases e <;> simp [Agree] at he ⊢

theorem unchangedBut_buildTree (s : State) : UnchangedBut (writesOf .build) s (buildTree s) := by
  obtain ⟨n, r, l, m, c, h⟩ := buildTree_frame s
  intro e he
  rw [h]
  cases e <;> simp [writesOf, Agree] at he ⊢

/-- R22's column "Written by", read as the frame of each rule. -/
theorem ruleOf_writes (i : Instr) (w idx : Word) (s : State) : Writes i w idx s (ruleOf i w idx s) := by
  have fault : ∀ c, Writes i w idx s (raise c w idx s) := fun c => .inr ⟨c, s, unchangedBut_refl _ s, rfl⟩
  have bits : [.cbuf, .done, .sout] ⊆ writesOf i → ∀ bs, Writes i w idx s (decBits w idx bs s) := by
    intro hes bs
    obtain ⟨d, c, o, -, h | h⟩ := decBits_cases w idx bs s
    · exact .inl (h ▸ unchangedBut_decBits hes s d c o)
    · exact .inr ⟨_, _, unchangedBut_decBits hes s d c o, h⟩
  cases i
  case nop => exact .inl (unchangedBut_refl _ s)
  case clrerr => exact .inl (unchangedBut_refl _ s)
  case build => exact .inl (unchangedBut_buildTree s)
  case decBit b => exact bits (List.Subset.refl _) [b]
  case decWord n v => exact bits (List.Subset.refl _) (wordBits n v)
  case fsym a | ldcbit a b | encSym a =>
    rw [ruleOf]
    split
    · exact fault _
    · refine .inl fun e he => ?_
      cases e <;> simp [writesOf, Agree] at he ⊢
  case decEnd =>
    rw [ruleOf]
    split
    · refine .inl fun e he => ?_
      cases e <;> simp [writesOf, Agree] at he ⊢
    · exact fault _
  all_goals
    refine .inl fun e he => ?_
    cases e <;> simp [ruleOf, writesOf, Agree] at he ⊢

/-- A predicate that the fault entry keeps holds after a rule when it holds after what R22 lets the rule write. -/
theorem ruleOf_keeps {P : State → Prop} (hraise : ∀ c w idx u, P u → P (raise c w idx u)) {i : Instr} {s : State}
    (h : ∀ u, UnchangedBut (writesOf i) s u → P u) (w idx : Word) : P (ruleOf i w idx s) := by
  rcases ruleOf_writes i w idx s with hu | ⟨c, u, hu, e⟩
  · exact h _ hu
  · exact e ▸ hraise c w idx u (h u hu)

/-! ## Everything a command, a word and a step can do -/

theorem record_notMem_writesOf {i : Instr} (h : i ≠ .clrerr) :
    Elem.fault ∉ writesOf i ∧ Elem.errcode ∉ writesOf i ∧ Elem.errcmd ∉ writesOf i ∧
      Elem.erridx ∉ writesOf i := by
  cases i <;> simp [writesOf] at h ⊢

theorem cmdcnt_notMem_writesOf (i : Instr) : Elem.cmdcnt ∉ writesOf i := by
  cases i <;> simp [writesOf]

/-- R84: a command is CLRERR, or is dropped, or takes a fault after what R22 lists, or only writes what R22 lists;
its word is counted in every case. -/
theorem exec_cases {i : Instr} {s t : State} (h : exec i s = .next t) :
    (i = .clrerr ∧ t = clearRecord (countWord s)) ∨
    (i ≠ .clrerr ∧ s.fault = true ∧ t = countWord s) ∨
    (i ≠ .clrerr ∧ s.fault = false ∧ ∃ c u, UnchangedBut (writesOf i) (countWord s) u ∧
      t = raise c (encode i) s.cmdcnt u) ∨
    (i ≠ .clrerr ∧ s.fault = false ∧ UnchangedBut (writesOf i) (countWord s) t) := by
  by_cases hi : i = .clrerr
  · subst hi
    exact .inl ⟨rfl, by simpa [exec_clrerr] using h.symm⟩
  · obtain rfl : runCommand i (ruleOf i) s = t := by simpa [exec_eq_runCommand hi] using h
    rcases runCommand_cases i (ruleOf i) s with ⟨hf, e⟩ | ⟨hf, -, e⟩ | ⟨hf, -, -, e⟩ | ⟨hf, -, -, e⟩
    · exact .inr (.inl ⟨hi, hf, e⟩)
    · exact .inr (.inr (.inl ⟨hi, hf, _, _, unchangedBut_refl _ _, e⟩))
    · exact .inr (.inr (.inl ⟨hi, hf, _, _, unchangedBut_refl _ _, e⟩))
    · rcases ruleOf_writes i (encode i) s.cmdcnt (countWord s) with hu | ⟨c, u, hu, hr⟩
      · exact .inr (.inr (.inr ⟨hi, hf, e ▸ hu⟩))
      · exact .inr (.inr (.inl ⟨hi, hf, c, u, hu, e.trans hr⟩))

/-- R84 and R85 for a word: it runs its command, or it is illegal, and then dropped or a fault. -/
theorem stepWord_cases {w : Word} {s t : State} (h : stepWord w s = .next t) :
    (∃ i, decode w = .command i ∧ exec i s = .next t) ∨
    (s.fault = true ∧ t = countWord s) ∨
    (s.fault = false ∧ t = raise .illegalCommand w s.cmdcnt (countWord s)) := by
  unfold stepWord at h
  split at h
  · exact .inl ⟨_, by assumption, h⟩
  · obtain rfl : consumeIllegal w s = t := by simpa using h
    cases hf : s.fault
    · exact .inr (.inr ⟨rfl, consume_free hf⟩)
    · exact .inr (.inl ⟨rfl, consume_held hf⟩)

/-- What every step keeps, by the ways a step can write the state: taking a word from the port, counting it,
CLRERR's return, the fault entry, and the rule of a command that R84 lets run. -/
structure StepClosed (P : State → Prop) : Prop where
  port : ∀ s l, P s → P { s with port := l }
  count : ∀ s, P s → P (countWord s)
  clear : ∀ s, P s → P (clearRecord s)
  fault : ∀ c w idx s, s.fault = false → P s → P (raise c w idx s)
  rule : ∀ i w idx s, i ≠ .clrerr → s.fault = false → legalIn i s.phase = true → P s → P (ruleOf i w idx s)

theorem StepClosed.exec {P : State → Prop} (hP : StepClosed P) {i : Instr} {s t : State} (hs : P s)
    (h : exec i s = .next t) : P t := by
  by_cases hi : i = .clrerr
  · subst hi
    obtain rfl : clearRecord (countWord s) = t := by simpa [exec_clrerr] using h
    exact hP.clear _ (hP.count s hs)
  · obtain rfl : runCommand i (ruleOf i) s = t := by simpa [exec_eq_runCommand hi] using h
    rcases runCommand_cases i (ruleOf i) s with ⟨-, e⟩ | ⟨hf, -, e⟩ | ⟨hf, -, -, e⟩ | ⟨hf, -, hl, e⟩
    all_goals rw [e]
    · exact hP.count s hs
    · exact hP.fault _ _ _ _ hf (hP.count s hs)
    · exact hP.fault _ _ _ _ hf (hP.count s hs)
    · exact hP.rule i _ _ _ hi hf hl (hP.count s hs)

theorem StepClosed.stepWord {P : State → Prop} (hP : StepClosed P) {w : Word} {s t : State} (hs : P s)
    (h : stepWord w s = .next t) : P t := by
  rcases stepWord_cases h with ⟨i, -, hi⟩ | ⟨-, rfl⟩ | ⟨hf, rfl⟩
  · exact hP.exec hs hi
  · exact hP.count s hs
  · exact hP.fault _ _ _ _ hf (hP.count s hs)

theorem StepClosed.step {P : State → Prop} (hP : StepClosed P) {s t : State} (hs : P s)
    (h : step s = .next t) : P t := by
  unfold Machine.step fetch at h
  cases hp : s.port with
  | nil =>
    obtain rfl : s = t := by simpa [hp, idleStep] using h
    exact hs
  | cons w rest => exact hP.stepWord (hP.port s rest hs) (by simpa [hp] using h)

end Sys2Proof.Proofs

/-! SUPPORT. The invariants of the code table, the fault record and the frames (10_state.md R30, R33, R39), the
count of words (R34) and the writers of each element (R22). -/

namespace Sys2Proof.Proofs

open Sys2Proof.Machine Sys2Proof.Safety

/-! ## CMDCNT (10_state.md R34) -/

theorem exec_counts {i : Instr} {s t : State} (h : exec i s = .next t) :
    t.cmdcnt = s.cmdcnt + 1#32 ∧ (s.fault = false → t.fault = true → t.erridx = s.cmdcnt) := by
  rcases exec_cases h with ⟨-, rfl⟩ | ⟨-, hf, rfl⟩ | ⟨-, -, c, u, hu, rfl⟩ | ⟨hi, hf, hu⟩
  · simp
  · simp [hf]
  · have hc : u.cmdcnt = s.cmdcnt + 1#32 := hu .cmdcnt (cmdcnt_notMem_writesOf i)
    simp [hc]
  · have hc : t.cmdcnt = s.cmdcnt + 1#32 := hu .cmdcnt (cmdcnt_notMem_writesOf i)
    have ht : t.fault = s.fault := hu .fault (record_notMem_writesOf hi).1
    simp [hc, ht, hf]

theorem stepWord_counts {w : Word} {s t : State} (h : stepWord w s = .next t) :
    t.cmdcnt = s.cmdcnt + 1#32 ∧ (s.fault = false → t.fault = true → t.erridx = s.cmdcnt) := by
  rcases stepWord_cases h with ⟨i, -, hi⟩ | ⟨hf, rfl⟩ | ⟨-, rfl⟩
  · exact exec_counts hi
  · simp [hf]
  · simp

theorem runWords_cons {w : Word} {s t : State} (h : stepWord w s = .next t) (ws : List Word) :
    runWords (w :: ws) s = runWords ws t := by
  rw [runWords, h]

theorem runWords_counts (ws : List Word) (s : State) :
    ∃ t, runWords ws s = .next t ∧ t.cmdcnt = s.cmdcnt + BitVec.ofNat 32 ws.length := by
  induction ws generalizing s with
  | nil => exact ⟨s, rfl, by simp⟩
  | cons w ws ih =>
    obtain ⟨u, hu⟩ := stepWord_next w s
    obtain ⟨t, ht, hc⟩ := ih u
    refine ⟨t, (runWords_cons hu ws).trans ht, ?_⟩
    rw [hc, (stepWord_counts hu).1, List.length_cons, Nat.add_comm, BitVec.ofNat_add, BitVec.add_assoc]

/-- Settles O11: every case of a step counts its word, and a run does so by induction on its words. -/
theorem everyWordIsCounted : Obligations.EveryWordIsCounted := by
  refine ⟨fun w s => ?_, rfl, runWords_counts⟩
  obtain ⟨t, ht⟩ := stepWord_next w s
  exact ⟨t, ht, stepWord_counts ht⟩

/-! ## Writers (10_state.md R22) -/

/-- Settles O46: each case of a command writes within R22's column, the fault entry within its own elements. -/
theorem onlyTheListedCommandsWrite : Obligations.OnlyTheListedCommandsWrite := by
  intro i s t h
  have counted {u : State} (hu : UnchangedBut (writesOf i) (countWord s) u) :
      UnchangedBut (.cmdcnt :: writesOf i) s u := unchangedBut_trans (unchangedBut_countWord s) hu
  have widen {u : State} (hu : UnchangedBut (.cmdcnt :: writesOf i) s u) :
      UnchangedBut (.cmdcnt :: writesOf i ++ faultElems) s u :=
    unchangedBut_mono (List.subset_append_left _ _) hu
  have both {u : State} (hu : UnchangedBut (writesOf i) (countWord s) u) :
      (u.fault = s.fault ∨ i = .clrerr → UnchangedBut (.cmdcnt :: writesOf i) s u) ∧
        UnchangedBut (.cmdcnt :: writesOf i ++ faultElems) s u :=
    ⟨fun _ => counted hu, widen (counted hu)⟩
  rcases exec_cases h with ⟨rfl, rfl⟩ | ⟨-, -, rfl⟩ | ⟨hi, hf, c, u, hu, rfl⟩ | ⟨-, -, hu⟩
  · exact both (unchangedBut_clearRecord _)
  · exact both (unchangedBut_refl _ _)
  · refine ⟨?_, unchangedBut_trans (counted hu) (unchangedBut_raise c _ _ u)⟩
    rintro (hsame | hclr)
    · rw [raise_fault, hf] at hsame
      cases hsame
    · exact absurd hclr hi
  · exact both hu

/-! ## The fault record (10_state.md R33; 60_exceptions.md R184, R192) -/

theorem causeCode_range (c : Cause) : 1 ≤ (causeCode c).toNat ∧ (causeCode c).toNat ≤ 7 := by
  cases c <;> decide

theorem recordConsistent_raise (c : Cause) (w idx : Word) (s : State) : RecordConsistent (raise c w idx s) :=
  ⟨fun h => (nomatch h), fun _ => ⟨rfl, causeCode_range c⟩⟩

theorem recordConsistent_clearRecord (s : State) : RecordConsistent (clearRecord s) :=
  ⟨fun _ => ⟨rfl, rfl, rfl⟩, fun h => (nomatch h)⟩

/-- While FAULT = 0 only the record itself matters, which no rule writes but by the fault entry. -/
theorem stepClosed_recordConsistent : StepClosed RecordConsistent where
  port _ _ h := h
  count _ h := h
  clear s _ := recordConsistent_clearRecord s
  fault c w idx s _ _ := recordConsistent_raise c w idx s
  rule i w idx s hi hf _ hs := by
    refine ruleOf_keeps (fun c w idx u _ => recordConsistent_raise c w idx u) (fun u hu => ?_) w idx
    obtain ⟨n1, n2, n3, n4⟩ := record_notMem_writesOf hi
    have hfault : u.fault = s.fault := hu .fault n1
    have hcode : u.errcode = s.errcode := hu .errcode n2
    have hcmd : u.errcmd = s.errcmd := hu .errcmd n3
    have hidx : u.erridx = s.erridx := hu .erridx n4
    refine ⟨fun _ => ?_, fun hu => ?_⟩
    · rw [hcode, hcmd, hidx]
      exact hs.1 hf
    · rw [hfault, hf] at hu
      cases hu

/-- Settles O42: the fault entry and CLRERR set up the record, and nothing else writes it. -/
theorem stepKeepsRecordConsistent : Obligations.StepKeepsRecordConsistent :=
  fun _ _ hs h => stepClosed_recordConsistent.step hs h

/-! ## Frames (10_state.md R39) -/

@[simp] theorem boutClosed_abt (l : List BTok) : boutClosed (l ++ [.abt]) = true := by simp [boutClosed]
@[simp] theorem boutClosed_eof (l : List BTok) : boutClosed (l ++ [.eof]) = true := by simp [boutClosed]
@[simp] theorem soutClosed_abt (l : List STok) : soutClosed (l ++ [.abt]) = true := by simp [soutClosed]
@[simp] theorem soutClosed_eof (l : List STok) : soutClosed (l ++ [.eof]) = true := by simp [soutClosed]

/-- R184: ABT closes the frame that is open, and no other frame is. -/
theorem framesClosed_raise {s : State} (h : FramesClosed s) (c : Cause) (w idx : Word) :
    FramesClosed (raise c w idx s) := by
  obtain ⟨hb, hs⟩ := h
  refine ⟨fun _ => ?_, fun _ => ?_⟩
  · rw [raise_bout]
    split
    · exact boutClosed_abt _
    · exact hb (by assumption)
  · rw [raise_sout]
    split
    · exact soutClosed_abt _
    · exact hs (by assumption)

/-- In phase DEC the bits may push on SOUT, whose frame is open; BOUT's is not. -/
theorem framesClosed_decBits {s : State} (h : FramesClosed s) (hp : s.phase = .dec) (w idx : Word) (bs : Bits) :
    FramesClosed (decBits w idx bs s) := by
  have grown (d : Word) (c : Code) (o : List STok) :
      FramesClosed { s with done := d, cbuf := c, sout := o } := ⟨h.1, fun hn => absurd hp hn⟩
  obtain ⟨d, c, o, -, e | e⟩ := decBits_cases w idx bs s
  · exact e ▸ grown d c o
  · exact e ▸ framesClosed_raise (grown d c o) _ _ _

theorem framesClosed_congr {s t : State} (hp : t.phase = s.phase) (hb : t.bout = s.bout) (ho : t.sout = s.sout)
    (h : FramesClosed s) : FramesClosed t := by
  rwa [FramesClosed, hp, hb, ho]

/-- The commands of an operation open or close its frame together with its phase; every other command leaves the
phase and both channels as they are. -/
theorem stepClosed_framesClosed : StepClosed FramesClosed where
  port _ _ h := h
  count _ h := h
  clear _ h := h
  fault c w idx _ _ h := framesClosed_raise h c w idx
  rule i w idx s hi hf hl hs := by
    obtain ⟨hb, ho⟩ := hs
    cases i
    case encBegin =>
      have hp : s.phase = .idle := by simpa [legalIn] using hl
      exact ⟨fun hn => absurd rfl hn, fun _ => ho (by simp [hp])⟩
    case encSym a =>
      have hp : s.phase = .enc := by simpa [legalIn] using hl
      rw [ruleOf]
      split
      · exact framesClosed_raise ⟨hb, ho⟩ _ _ _
      · exact ⟨fun hn => absurd hp hn, ho⟩
    case encEnd =>
      have hp : s.phase = .enc := by simpa [legalIn] using hl
      exact ⟨fun _ => boutClosed_eof _, fun _ => ho (by simp [hp])⟩
    case decBegin =>
      have hp : s.phase = .idle := by simpa [legalIn] using hl
      exact ⟨fun _ => hb (by simp [hp]), fun hn => absurd rfl hn⟩
    case decBit b => exact framesClosed_decBits ⟨hb, ho⟩ (by simpa [legalIn] using hl) _ _ _
    case decWord n v => exact framesClosed_decBits ⟨hb, ho⟩ (by simpa [legalIn] using hl) _ _ _
    case decEnd =>
      have hp : s.phase = .dec := by simpa [legalIn] using hl
      rw [ruleOf]
      split
      · exact ⟨fun _ => hb (by simp [hp]), fun _ => soutClosed_eof _⟩
      · exact framesClosed_raise ⟨hb, ho⟩ _ _ _
    all_goals
      exact ruleOf_keeps (fun _ _ _ _ h => framesClosed_raise h _ _ _) (fun u hu => framesClosed_congr
        (hu .phase (by simp [writesOf])) (hu .bout (by simp [writesOf])) (hu .sout (by simp [writesOf])) ⟨hb, ho⟩)
        w idx

/-- Settles O43: each command moves the phase and its channel's frame together. -/
theorem stepKeepsFramesClosed : Obligations.StepKeepsFramesClosed :=
  fun _ _ hs h => stepClosed_framesClosed.step hs h

/-! ## Canonical codes (10_state.md R30) -/

theorem codesCanonical_congr {s t : State} (hc : t.code = s.code) (hb : t.cbuf = s.cbuf) (h : CodesCanonical s) :
    CodesCanonical t := by
  refine ⟨fun a => ?_, hb ▸ h.2⟩
  rw [codeAt_congr hc]
  exact h.1 a

theorem codesCanonical_setCode {s : State} (h : CodesCanonical s) (a : Sym) {c : Code} (hc : CodeCanonical c) :
    CodesCanonical (setCode a c s) := by
  refine ⟨fun b => ?_, h.2⟩
  by_cases hab : b = a
  · rwa [hab, codeAt_setCode_self]
  · rw [codeAt_setCode_ne hab]
    exact h.1 b

theorem codesCanonical_clearCode {s : State} (h : CodeCanonical s.cbuf) : CodesCanonical (clearCode s) := by
  refine ⟨fun a => ?_, h⟩
  rw [codeAt_clearCode]
  exact codeCanonical_empty

theorem codesCanonical_decBits {s : State} (h : CodesCanonical s) (w idx : Word) (bs : Bits) :
    CodesCanonical (decBits w idx bs s) := by
  obtain ⟨d, c, o, hc, e | e⟩ := decBits_cases w idx bs s <;> rw [e] <;> exact ⟨h.1, hc h.2⟩

/-- The walk packs paths of at most 255 bits: its fuel and the path taken make 256 (R119, R120). -/
theorem codesCanonical_walk (ns : Vector Node 511) (s : State) (fuel n : Nat) (path : Bits)
    (hlen : fuel + path.length = 256) (code : Vector Code 256) (h : CodesCanonical { s with code := code }) :
    CodesCanonical { s with code := walk ns fuel n path code } := by
  induction fuel generalizing n path code with
  | zero => exact h
  | succ fuel ih =>
    rw [walk]
    split
    · exact codesCanonical_setCode h (nodeIn ns n).sym (codeCanonical_packBits path (by omega))
    · exact ih _ _ (by simp; omega) _ (ih _ _ (by simp; omega) _ h)

/-- R117, R120: the code stage writes the code "0" or packed paths. -/
theorem codesCanonical_stageCodes {s : State} (h : CodesCanonical s) : CodesCanonical (stageCodes s) := by
  unfold stageCodes
  split
  · exact h
  · split
    · exact codesCanonical_setCode h _ fun k _ => by simp
    · exact codesCanonical_walk s.node s Config.nsym _ [] rfl s.code h

theorem codesCanonical_buildTree {s : State} (h : CodeCanonical s.cbuf) : CodesCanonical (buildTree s) := by
  refine codesCanonical_stageCodes (codesCanonical_congr (s := stageClear s) ?_ ?_ (codesCanonical_clearCode h))
  all_goals
    obtain ⟨n, l, h1⟩ := leavesFrom_frame (stageClear s).freq.toList 0 (stageClear s)
    obtain ⟨n', m', h2⟩ := mergeLoop_frame (Config.nsym - 1) (stageLeaves (stageClear s))
    obtain ⟨r, h3⟩ := stageRoot_frame (stageMerge (stageLeaves (stageClear s)))
    rw [h3, stageMerge, h2, stageLeaves, h1]

theorem stepClosed_codesCanonical : StepClosed CodesCanonical where
  port _ _ h := h
  count _ h := h
  clear _ h := h
  fault _ _ _ _ _ h := h
  rule i w idx s hi hf hl hs := by
    cases i
    case clrall => exact ⟨fun a => (codesCanonical_clearCode hs.2).1 a, codeCanonical_empty⟩
    case clrcode => exact codesCanonical_clearCode hs.2
    case build => exact codesCanonical_buildTree hs.2
    case clrc a => exact codesCanonical_setCode hs a codeCanonical_empty
    case ldcbit a b =>
      rw [ruleOf]
      split
      · exact hs
      · rename_i hfull
        exact codesCanonical_setCode hs a (codeCanonical_codeSnoc (hs.1 a) b (mt (codeFull_iff _).mpr hfull))
    case decBegin => exact ⟨hs.1, codeCanonical_empty⟩
    case decBit b => exact codesCanonical_decBits hs _ _ _
    case decWord n v => exact codesCanonical_decBits hs _ _ _
    all_goals
      exact ruleOf_keeps (fun _ _ _ _ h => h)
        (fun u hu => codesCanonical_congr (hu .code (by simp [writesOf])) (hu .cbuf (by simp [writesOf])) hs) w idx

/-- Settles O41: every writer of CODE and CBUF keeps the bits above the length at 0, and then a code is its
sequence of bits. -/
theorem stepKeepsCodesCanonical : Obligations.StepKeepsCodesCanonical := by
  intro s t hs h
  have ht := stepClosed_codesCanonical.step hs h
  exact ⟨ht, fun a b => (codeBits_inj (ht.1 a) (ht.1 b)).symm⟩

/-! ## Reset (10_state.md R43) -/

theorem freqAt_reset (a : Sym) : freqAt State.reset a = 0#32 := freqAt_clearFreq State.reset a

theorem codeAt_reset (a : Sym) : codeAt State.reset a = Code.empty := codeAt_clearCode State.reset a

theorem nodeAt_reset (i : Nat) : nodeAt State.reset i = Node.empty := nodeAt_clearTree State.reset i

/-- Settles O1: every table is at the value its clearing gives it, every other element is a literal. -/
theorem resetHoldsSpecValues : Obligations.ResetHoldsSpecValues :=
  ⟨freqAt_reset, fun i _ => nodeAt_reset i, rfl, rfl, rfl, codeAt_reset,
    rfl, rfl, rfl, rfl, rfl, rfl, rfl, rfl, rfl, rfl⟩

end Sys2Proof.Proofs

/-! SUPPORT. The status registers, field by field (10_state.md R36, R40). -/

namespace Sys2Proof.Proofs

open Sys2Proof.Machine Sys2Proof.Safety

/-- The readback space below `0x0100` is the status registers (20_memory.md R61). -/
theorem memRead_status (s : State) {a : RbAddr} (h : a.toNat < 0x0100) : memRead s a = statusReg s a.toNat := by
  simp [memRead, readback, h]

theorem memRead_statusWord (s : State) : memRead s 0x0002#16 = statusWord s := rfl

theorem statusReg_bitsWord (s : State) {w : Nat} (h : w < 8) : statusReg s (0x0010 + w) = bitsWord s.cbuf.bits w := by
  interval_cases w <;> rfl

theorem statusReg_unassigned (s : State) {n : Nat} (h : (0x0C ≤ n ∧ n ≤ 0x0F) ∨ 0x18 ≤ n) :
    statusReg s n = 0#32 := by
  unfold statusReg
  split
  case h_13 => rw [if_neg (by omega)]
  all_goals omega

/-- Bit `j` of word `w` is position `32 * w + j` (R40, R66). -/
theorem getLsbD_bitsWord (v : CodeBits) (w : Nat) {j : Nat} (h : j < 32) :
    (bitsWord v w).getLsbD j = v.getLsbD (32 * w + j) := by
  simp [bitsWord, h]

/-- The word STATUS bit by bit, from the bottom up (R36). -/
theorem statusWord_getLsbD (s : State) (j : Nat) : (statusWord s).getLsbD j =
    if j < 2 then (phaseBits s.phase).getLsbD j
    else if j - 2 < 1 then (BitVec.ofBool s.fault).getLsbD (j - 2)
    else if j - 3 < 1 then (BitVec.ofBool s.root.v).getLsbD (j - 3)
    else if j - 4 < 1 then (BitVec.ofBool (tempty s)).getLsbD (j - 4)
    else if j - 5 < 1 then (BitVec.ofBool (fempty s)).getLsbD (j - 5)
    else false := by
  simp only [statusWord, rootv, BitVec.getLsbD_append, BitVec.getLsbD_zero, Nat.sub_sub]

theorem statusWord_phase (s : State) : (statusWord s).extractLsb' 0 2 = phaseBits s.phase := by
  apply BitVec.eq_of_getLsbD_eq
  intro i hi
  rw [BitVec.getLsbD_extractLsb', Nat.zero_add, statusWord_getLsbD, if_pos hi]
  simp [hi]

/-- The four flags of STATUS; bits 31:6 are zero (R36). -/
theorem statusWord_flags (s : State) :
    (statusWord s).getLsbD 2 = s.fault ∧ (statusWord s).getLsbD 3 = s.root.v ∧
    (statusWord s).getLsbD 4 = tempty s ∧ (statusWord s).getLsbD 5 = fempty s ∧
    ∀ j, 6 ≤ j → (statusWord s).getLsbD j = false := by
  simp only [statusWord_getLsbD]
  refine ⟨by simp, by simp, by simp, by simp, fun j hj => ?_⟩
  iterate 5 rw [if_neg (by omega)]

/-- The word ROOT bit by bit (R40). -/
theorem rootWord_getLsbD (r : Root) (j : Nat) : (rootWord r).getLsbD j =
    if j < 9 then r.idx.getLsbD j else if j - 9 < 22 then false else (BitVec.ofBool r.v).getLsbD (j - 31) := by
  simp only [rootWord, BitVec.getLsbD_append, BitVec.getLsbD_zero, Nat.sub_sub]

theorem rootWord_idx (r : Root) : (rootWord r).extractLsb' 0 9 = r.idx := by
  apply BitVec.eq_of_getLsbD_eq
  intro i hi
  rw [BitVec.getLsbD_extractLsb', Nat.zero_add, rootWord_getLsbD, if_pos hi]
  simp [hi]

theorem rootWord_zeros (r : Root) : (rootWord r).extractLsb' 9 22 = 0#22 := by
  apply BitVec.eq_of_getLsbD_eq
  intro i hi
  rw [BitVec.getLsbD_extractLsb', rootWord_getLsbD, if_neg (by omega), if_pos (by omega)]
  simp

theorem rootWord_v (r : Root) : (rootWord r).getLsbD 31 = r.v := by
  rw [rootWord_getLsbD]
  simp

theorem memRead_cbufWord (s : State) {w j : Nat} (hw : w < 8) (hj : j < 32) :
    (memRead s (BitVec.ofNat 16 (0x0010 + w))).getLsbD j = s.cbuf.bits.getLsbD (32 * w + j) := by
  have ha : (BitVec.ofNat 16 (0x0010 + w)).toNat = 0x0010 + w := by
    rw [BitVec.toNat_ofNat]
    omega
  rw [memRead_status s (by omega), ha, statusReg_bitsWord s hw, getLsbD_bitsWord _ _ hj]

theorem memRead_unassigned (s : State) {a : RbAddr}
    (h : (0x000C#16 ≤ a ∧ a ≤ 0x000F#16) ∨ (0x0018#16 ≤ a ∧ a ≤ 0x00FF#16)) : memRead s a = 0#32 := by
  simp only [BitVec.le_def, BitVec.toNat_ofNat] at h
  rw [memRead_status s (by omega), statusReg_unassigned s (by omega)]

theorem reset_status : statusWord State.reset = 0x00000030#32 := by
  have ht : tempty State.reset = true := (tempty_iff _).mpr fun a => by rw [codeAt_reset]; rfl
  have hf : fempty State.reset = true := (fempty_iff _).mpr freqAt_reset
  rw [statusWord, ht, hf]
  rfl

/-- Settles O50: each register is its element's word, and each word is read field by field. -/
theorem statusRegistersRead : Obligations.StatusRegistersRead := by
  refine ⟨reset_status, fun s => ?_⟩
  obtain ⟨hfault, hroot, htempty, hfempty, hzero⟩ := statusWord_flags s
  have zext {n : Nat} (x : BitVec n) (hn : n ≤ 32) : (x.setWidth 32).toNat = x.toNat :=
    BitVec.toNat_setWidth_of_le hn
  refine ⟨rfl, rfl, ⟨?_, hfault, hroot, ?_, ?_, hzero⟩, zext s.errcode (by decide), rfl, rfl, rfl, rfl,
    rootWord_idx s.root, rootWord_zeros s.root, rootWord_v s.root, zext s.nleaf (by decide),
    zext s.nnode (by decide), zext s.cbuf.len (by decide),
    fun w j hw hj => memRead_cbufWord s hw hj, fun a ha => memRead_unassigned s ha⟩
  · rw [memRead_statusWord, statusWord_phase]
    cases s.phase <;> rfl
  · rw [memRead_statusWord, htempty, tempty_iff]
  · rw [memRead_statusWord, hfempty, fempty_iff]

end Sys2Proof.Proofs

/-! SUPPORT. The leaf stage of BUILD (41_tree_builder.md R111, R113): one leaf per symbol present, in ascending
symbol order. -/

namespace Sys2Proof.Proofs

open Sys2Proof.Machine Sys2Proof.Safety

/-- The arena holds exactly the leaves of the listed symbols, in that order, with the counts of `u`. -/
structure LeavesAre (u : State) (l : List Sym) (s : State) : Prop where
  nleaf : s.nleaf.toNat = l.length
  node : ∀ i, nodeAt s i = (l.map fun a => leafNode a (freqAt u a))[i]?.getD Node.empty

theorem leavesAre_nil (u s : State) : LeavesAre u [] (stageClear s) where
  nleaf := rfl
  node i := nodeAt_clearTree s i

/-- One turn of R113's loop: a symbol with a count gets the next leaf. -/
theorem leavesAre_leafStep {u s : State} {l : List Sym} (h : LeavesAre u l s) (hlen : l.length < 256) (a : Sym) :
    LeavesAre u (l ++ [a].filter fun b => freqAt u b != 0#32) (leafStep a (freqAt u a) s) := by
  by_cases hz : freqAt u a = 0#32
  · simpa [leafStep, hz] using h
  · have hl := h.nleaf
    simp only [leafStep, hz, if_false, List.filter_cons, bne_iff_ne, ne_eq, not_false_eq_true, if_true,
      List.filter_nil]
    refine ⟨?_, fun i => ?_⟩
    · simp [BitVec.toNat_add, hl]
      omega
    · by_cases hi : i = l.length
      · simp [nodeAt, hl, hi, nodeIn_putNode_self (show l.length < 511 by omega)]
      · rw [nodeAt, hl, nodeIn_putNode_ne hi, ← nodeAt, h.node i]
        rcases Nat.lt_or_gt_of_ne hi with hlt | hgt
        · rw [List.map_append, List.getElem?_append_left (by simpa using hlt)]
        · rw [List.getElem?_eq_none (by simp; omega), List.getElem?_eq_none (by simp; omega)]

/-- R113's loop over `n` symbols from number `k` on. -/
theorem leavesAre_leavesFrom {u s : State} {l : List Sym} (n k : Nat) (h : LeavesAre u l s)
    (hlen : l.length + n ≤ 256) :
    LeavesAre u (l ++ ((List.range' k n).map (BitVec.ofNat 8)).filter fun b => freqAt u b != 0#32)
      (leavesFrom ((List.range' k n).map fun j => freqAt u (BitVec.ofNat 8 j)) k s) := by
  induction n generalizing k l s with
  | zero => simpa [leavesFrom] using h
  | succ n ih =>
    have hstep := leavesAre_leafStep h (by omega) (BitVec.ofNat 8 k)
    have hle := List.length_filter_le (fun b => freqAt u b != 0#32) [BitVec.ofNat 8 k]
    have := ih (k + 1) hstep (by rw [List.length_append]; simp only [List.length_singleton] at hle; omega)
    rw [List.append_assoc, ← List.filter_append] at this
    simpa [List.range'_succ, leavesFrom] using this

/-- R113: the leaf stage on the cleared arena makes the leaves of the symbols present. -/
theorem leavesAre_stageLeaves (s : State) : LeavesAre s (present s) (stageLeaves (stageClear s)) := by
  have hfreq : (stageClear s).freq.toList = (List.range' 0 256).map fun j => freqAt s (BitVec.ofNat 8 j) := by
    rw [freq_toList, allSyms, List.range_eq_range', List.map_map]
    rfl
  have h := leavesAre_leavesFrom 256 0 (leavesAre_nil s s) (by simp)
  rw [← hfreq] at h
  have hpresent : present s = [] ++ ((List.range' 0 256).map (BitVec.ofNat 8)).filter fun b => freqAt s b != 0#32 := by
    rw [present, allSyms, List.range_eq_range', List.nil_append]
  rw [hpresent]
  exact ⟨h.nleaf, h.node⟩

theorem stageLeaves_nnode (s : State) : (stageLeaves s).nnode.toNat = (stageLeaves s).nleaf.toNat := by
  simp only [stageLeaves, BitVec.toNat_setWidth]
  omega

/-- The symbols present are listed in ascending order (R6, R113). -/
theorem present_sorted (s : State) : (present s).Pairwise fun a b => a.toNat < b.toNat := by
  refine List.Pairwise.filter _ ?_
  rw [allSyms, List.pairwise_map]
  refine List.Pairwise.imp_of_mem (fun {i j} hi hj hij => ?_) (List.pairwise_lt_range (n := 256))
  have hi : i < 256 := List.mem_range.mp hi
  have hj : j < 256 := List.mem_range.mp hj
  simp only [BitVec.toNat_ofNat]
  omega

theorem present_length_le (s : State) : (present s).length ≤ 256 := by
  refine (List.length_filter_le _ _).trans ?_
  simp [allSyms]

/-- The leaf at an index below NLEAF. -/
theorem LeavesAre.node_of_lt {u s : State} {l : List Sym} (h : LeavesAre u l s) {i : Nat} (hi : i < l.length) :
    nodeAt s i = leafNode l[i] (freqAt u l[i]) := by
  simp [h.node, hi]

theorem LeavesAre.node_of_ge {u s : State} {l : List Sym} (h : LeavesAre u l s) {i : Nat} (hi : l.length ≤ i) :
    nodeAt s i = Node.empty := by
  simp [h.node, hi]

end Sys2Proof.Proofs

/-! SUPPORT. The priority queue as a set of node indexes, and what one round of R114 does to it (41_tree_builder.md
R112, R114; 10_state.md R26). -/

namespace Sys2Proof.Proofs

open Sys2Proof.Machine Sys2Proof.Safety

/-! ## Members -/

/-- The indexes of the queue's members (R26). -/
def members (ns : Vector Node 511) : Finset Nat := (Finset.range 511).filter fun i => inQueue (nodeIn ns i) = true

@[simp] theorem mem_members {ns : Vector Node 511} {i : Nat} : i ∈ members ns ↔ inQueue (nodeIn ns i) = true := by
  simp only [members, Finset.mem_filter, Finset.mem_range, and_iff_right_iff_imp]
  intro h
  by_contra hi
  rw [nodeIn_of_ge (by omega)] at h
  cases h

theorem node_toList (ns : Vector Node 511) : ns.toList = (List.range 511).map (nodeIn ns) := by
  apply List.ext_getElem
  · simp
  · intro i h1 h2
    have hi : i < 511 := by simpa using h1
    simp [nodeIn, hi]

theorem countP_range_eq_card (p : Nat → Bool) (n : Nat) :
    (List.range n).countP p = ((Finset.range n).filter fun i => p i = true).card := by
  have h : ((Finset.range n).filter fun i => p i = true).card =
      ((List.range n).filter fun i => decide (p i = true)).length := rfl
  rw [h, List.countP_eq_length_filter]
  simp only [Bool.decide_eq_true]

theorem pqSize_eq_card (ns : Vector Node 511) : pqSize ns = (members ns).card := by
  rw [pqSize, node_toList, List.countP_map, countP_range_eq_card]
  rfl

/-- The sum of the frequencies in the queue. -/
def queueSum (ns : Vector Node 511) : Nat := ∑ i ∈ members ns, (nodeIn ns i).freq.toNat

/-! ## Extraction -/

theorem members_extractMin {ns ns' : Vector Node 511} {m : Nat} (h : extractMin ns = some (m, ns')) :
    members ns' = (members ns).erase m := by
  obtain ⟨-, hm, hother⟩ := extractMin_eq_some h
  ext i
  rw [Finset.mem_erase, mem_members, mem_members]
  by_cases hi : i = m
  · simp [hi, hm, inQueue]
  · simp [hi, hother i hi]

theorem exists_extractMin {ns : Vector Node 511} (h : (members ns).Nonempty) :
    ∃ m ns', extractMin ns = some (m, ns') := by
  obtain ⟨i, hi⟩ := h
  unfold extractMin
  split
  · rename_i hnone
    rw [mem_members, (pqMin_eq_none ns).mp hnone i] at hi
    cases hi
  · exact ⟨_, _, rfl⟩

/-! ## One round -/

/-- R112, R114: `t` is `s` after a round that joins nodes `a` and `b`, the first two of the queue in that order. -/
structure Joins (s t : State) (a b : Nat) : Prop where
  left_mem : a ∈ members s.node
  right_mem : b ∈ members s.node
  ne : a ≠ b
  left_first : ∀ j ∈ members s.node, j ≠ a → Before s a j
  right_second : ∀ j ∈ members s.node, j ≠ a → j ≠ b → Before s b j
  nleaf : t.nleaf = s.nleaf
  nnode : t.nnode = s.nnode + 1#10
  node_left : nodeAt t a = { nodeAt s a with inq := false }
  node_right : nodeAt t b = { nodeAt s b with inq := false }
  node_new : nodeAt t s.nnode.toNat = parentNode s.node a b
  node_other : ∀ i, i ≠ a → i ≠ b → i ≠ s.nnode.toNat → nodeAt t i = nodeAt s i

/-- A round with two members and room for their parent joins the first two. -/
theorem joins_mergeRound {s : State} (hsize : 2 ≤ pqSize s.node) (hroom : s.nnode.toNat < 511)
    (hused : ∀ i ∈ members s.node, i < s.nnode.toNat) : ∃ a b, Joins s (mergeRound s) a b := by
  rw [pqSize_eq_card] at hsize
  obtain ⟨a, ns₁, ha⟩ := exists_extractMin (Finset.card_pos.mp (show 0 < (members s.node).card by omega))
  obtain ⟨hminA, hnodeA, hotherA⟩ := extractMin_eq_some ha
  have hmemA := members_extractMin ha
  obtain ⟨-, hqA, hfirst⟩ := pqMin_eq_some hminA
  have hcard₁ : 0 < (members ns₁).card := by
    rw [hmemA, Finset.card_erase_of_mem (mem_members.mpr hqA)]
    omega
  obtain ⟨b, ns₂, hb⟩ := exists_extractMin (Finset.card_pos.mp hcard₁)
  obtain ⟨hminB, hnodeB, hotherB⟩ := extractMin_eq_some hb
  obtain ⟨-, hqB, hsecond⟩ := pqMin_eq_some hminB
  obtain ⟨hba, hb_mem⟩ := Finset.mem_erase.mp (hmemA ▸ mem_members.mpr hqB)
  have ha_lt := hused a (mem_members.mpr hqA)
  have hb_lt := hused b hb_mem
  have hround : mergeRound s =
      { s with node := putNode ns₂ s.nnode.toNat (parentNode ns₂ a b), nnode := s.nnode + 1#10 } := by
    simp only [mergeRound, ha, hb]
  have hA₂ : nodeIn ns₂ a = { nodeIn s.node a with inq := false } := (hotherB a (Ne.symm hba)).trans hnodeA
  have hB₂ : nodeIn ns₂ b = { nodeIn s.node b with inq := false } := by rw [hnodeB, hotherA b hba]
  rw [hround]
  refine ⟨a, b, mem_members.mpr hqA, hb_mem, Ne.symm hba, fun j hj hne => hfirst j hne (mem_members.mp hj), ?_,
    rfl, rfl, ?_, ?_, ?_, ?_⟩
  · intro j hj hja hjb
    have h := hsecond j hjb (by rw [hotherA j hja]; exact mem_members.mp hj)
    rwa [hotherA b hba, hotherA j hja] at h
  · rw [nodeAt, nodeIn_putNode_ne (by omega), hA₂, nodeAt]
  · rw [nodeAt, nodeIn_putNode_ne (by omega), hB₂, nodeAt]
  · rw [nodeAt, nodeIn_putNode_self hroom, parentNode, parentNode, hA₂, hB₂]
  · intro i hia hib him
    rw [nodeAt, nodeIn_putNode_ne him, hotherB i hib, hotherA i hia, nodeAt]

namespace Joins

variable {s t : State} {a b : Nat}

/-- The queue after a round: the two nodes are out, their parent is in (R114). -/
theorem members_eq (h : Joins s t a b) (hused : ∀ i ∈ members s.node, i < s.nnode.toNat) :
    members t.node = insert s.nnode.toNat (((members s.node).erase a).erase b) := by
  have ha_lt := hused a h.left_mem
  have hb_lt := hused b h.right_mem
  ext i
  rw [Finset.mem_insert, Finset.mem_erase, Finset.mem_erase, mem_members, mem_members, ← nodeAt, ← nodeAt]
  by_cases hm : i = s.nnode.toNat
  · simp [hm, h.node_new, parentNode, inQueue]
  by_cases ha : i = a
  · simp [ha, h.node_left, inQueue]
    omega
  by_cases hb : i = b
  · simp [hb, h.node_right, inQueue]
    omega
  · simp [hm, ha, hb, h.node_other i ha hb hm]

theorem nnode_notMem (hused : ∀ i ∈ members s.node, i < s.nnode.toNat) :
    s.nnode.toNat ∉ ((members s.node).erase a).erase b := by
  intro h
  exact absurd (hused _ (Finset.mem_of_mem_erase (Finset.mem_of_mem_erase h))) (Nat.lt_irrefl _)

theorem right_mem_erase (h : Joins s t a b) : b ∈ (members s.node).erase a :=
  Finset.mem_erase.mpr ⟨Ne.symm h.ne, h.right_mem⟩

/-- R115: a round makes the queue shorter by one. -/
theorem pqSize_eq (h : Joins s t a b) (hused : ∀ i ∈ members s.node, i < s.nnode.toNat) :
    pqSize t.node + 1 = pqSize s.node := by
  have hsize : 1 < (members s.node).card := Finset.one_lt_card.mpr ⟨a, h.left_mem, b, h.right_mem, h.ne⟩
  rw [pqSize_eq_card, pqSize_eq_card, h.members_eq hused, Finset.card_insert_of_notMem (nnode_notMem hused),
    Finset.card_erase_of_mem h.right_mem_erase, Finset.card_erase_of_mem h.left_mem]
  omega

/-- The frequencies of the two nodes are parts of the queue's sum. -/
theorem queueSum_split (h : Joins s t a b) :
    queueSum s.node = (nodeAt s a).freq.toNat + ((nodeAt s b).freq.toNat +
      ∑ i ∈ ((members s.node).erase a).erase b, (nodeAt s i).freq.toNat) := by
  rw [queueSum, ← Finset.add_sum_erase _ _ h.left_mem, ← Finset.add_sum_erase _ _ h.right_mem_erase]
  rfl

/-- R118: the parent's 40-bit sum is exact while the queue's sum fits. -/
theorem freq_new (h : Joins s t a b) (hsum : queueSum s.node < 2 ^ 40) :
    (nodeAt t s.nnode.toNat).freq.toNat = (nodeAt s a).freq.toNat + (nodeAt s b).freq.toNat := by
  have hsplit := h.queueSum_split
  rw [h.node_new, parentNode, ← nodeAt, ← nodeAt, BitVec.toNat_add, Nat.mod_eq_of_lt (by omega)]

/-- R118: a round keeps the sum of the queue. -/
theorem queueSum_eq (h : Joins s t a b) (hused : ∀ i ∈ members s.node, i < s.nnode.toNat)
    (hsum : queueSum s.node < 2 ^ 40) : queueSum t.node = queueSum s.node := by
  have hnotMem := nnode_notMem (a := a) (b := b) hused
  have hrest : ∑ i ∈ ((members s.node).erase a).erase b, (nodeAt t i).freq.toNat =
      ∑ i ∈ ((members s.node).erase a).erase b, (nodeAt s i).freq.toNat := by
    refine Finset.sum_congr rfl fun i hi => ?_
    obtain ⟨hib, hi'⟩ := Finset.mem_erase.mp hi
    rw [h.node_other i (Finset.ne_of_mem_erase hi') hib fun e => hnotMem (e ▸ hi)]
  calc queueSum t.node
      = (nodeAt t s.nnode.toNat).freq.toNat +
          ∑ i ∈ ((members s.node).erase a).erase b, (nodeAt t i).freq.toNat := by
        rw [queueSum, h.members_eq hused, Finset.sum_insert hnotMem]
        rfl
    _ = queueSum s.node := by
        rw [hrest, h.freq_new hsum, h.queueSum_split, Nat.add_assoc]

end Joins

end Sys2Proof.Proofs

/-! SUPPORT. The arena partway through R114's loop is a forest whose roots are the queue; at the loop's end it is one
tree (41_tree_builder.md R113 to R116; 10_state.md R25 to R28, R42). -/

namespace Sys2Proof.Proofs

open Sys2Proof.Machine Sys2Proof.Safety

/-! ## The invariant of the merge loop -/

/-- Node `q` is internal and node `c` is one of its children (R25, R42). -/
def IsParent (s : State) (q c : Nat) : Prop :=
  s.nleaf.toNat ≤ q ∧ q < s.nnode.toNat ∧ ((nodeAt s q).left.toNat = c ∨ (nodeAt s q).right.toNat = c)

/-- R114: what holds of the arena before and after every round. The queue is the set of nodes without a parent. -/
structure Forest (s : State) : Prop where
  nleaf_pos : 0 < s.nleaf.toNat
  nleaf_le : s.nleaf.toNat ≤ 256
  nleaf_le_nnode : s.nleaf.toNat ≤ s.nnode.toNat
  size : pqSize s.node + s.nnode.toNat = 2 * s.nleaf.toNat
  used : ∀ i, i < s.nnode.toNat → (nodeAt s i).valid = true
  unused : ∀ i, s.nnode.toNat ≤ i → nodeAt s i = Node.empty
  leaf : ∀ i, i < s.nleaf.toNat → (nodeAt s i).leaf = true ∧ (nodeAt s i).left = 0#9 ∧ (nodeAt s i).right = 0#9
  sorted : ∀ i j, i < j → j < s.nleaf.toNat → (nodeAt s i).sym.toNat < (nodeAt s j).sym.toNat
  internal : ∀ k, s.nleaf.toNat ≤ k → k < s.nnode.toNat →
    (nodeAt s k).leaf = false ∧ (nodeAt s k).sym = 0#8 ∧
    (nodeAt s k).left.toNat < k ∧ (nodeAt s k).right.toNat < k ∧ (nodeAt s k).left ≠ (nodeAt s k).right
  sums : SumsExact s
  queued : ∀ c, c < s.nnode.toNat → ((nodeAt s c).inq = true ↔ ∀ q, ¬ IsParent s q c)
  parent_unique : ∀ q q' c, IsParent s q c → IsParent s q' c → q = q'
  sum_lt : queueSum s.node < 2 ^ 40

namespace Forest

variable {s : State}

theorem used_of_mem (h : Forest s) : ∀ i ∈ members s.node, i < s.nnode.toNat := by
  intro i hi
  by_contra hge
  have hempty : nodeIn s.node i = Node.empty := h.unused i (by omega)
  rw [mem_members, hempty] at hi
  cases hi

theorem mem_iff (h : Forest s) {i : Nat} (hi : i < s.nnode.toNat) :
    i ∈ members s.node ↔ (nodeAt s i).inq = true := by
  rw [mem_members, ← nodeAt, inQueue, h.used i hi, Bool.true_and]

theorem child_lt (h : Forest s) {q c : Nat} (hp : IsParent s q c) : c < q := by
  obtain ⟨hge, hlt, hc⟩ := hp
  obtain ⟨-, -, hl, hr, -⟩ := h.internal q hge hlt
  omega

/-- The newest node has no parent yet. -/
theorem last_mem (h : Forest s) : s.nnode.toNat - 1 ∈ members s.node := by
  have hpos := h.nleaf_pos
  have hle := h.nleaf_le_nnode
  have hlt : s.nnode.toNat - 1 < s.nnode.toNat := by omega
  rw [h.mem_iff hlt, h.queued _ hlt]
  intro q hq
  have := h.child_lt hq
  have := hq.2.1
  omega

theorem pqSize_pos (h : Forest s) : 0 < pqSize s.node := by
  rw [pqSize_eq_card]
  exact Finset.card_pos.mpr ⟨_, h.last_mem⟩

end Forest

/-! ## The leaves alone -/

theorem LeavesAre.members_eq {u s : State} {l : List Sym} (h : LeavesAre u l s) :
    members s.node = Finset.range l.length := by
  ext i
  rw [mem_members, Finset.mem_range, ← nodeAt]
  by_cases hi : i < l.length
  · simp [h.node_of_lt hi, leafNode, inQueue, hi]
  · simp [h.node_of_ge (Nat.le_of_not_lt hi), Node.empty, inQueue, hi]

/-- At most 256 counts below `2^32` (R118). -/
theorem LeavesAre.queueSum_lt {u s : State} {l : List Sym} (h : LeavesAre u l s) (hlen : l.length ≤ 256) :
    queueSum s.node < 2 ^ 40 := by
  have hone : ∀ i ∈ Finset.range l.length, (nodeIn s.node i).freq.toNat ≤ 2 ^ 32 - 1 := by
    intro i hi
    have hi := Finset.mem_range.mp hi
    rw [← nodeAt, h.node_of_lt hi, leafNode, BitVec.toNat_setWidth_of_le (by decide)]
    have := (freqAt u l[i]).isLt
    omega
  have hsum := Finset.sum_le_card_nsmul _ _ _ hone
  rw [Finset.card_range, smul_eq_mul] at hsum
  rw [queueSum, h.members_eq]
  omega

/-- Before the first round every leaf is a tree of its own. -/
theorem LeavesAre.forest {u s : State} {l : List Sym} (h : LeavesAre u l s) (hlen : l.length ≤ 256)
    (hpos : 0 < l.length) (hsorted : l.Pairwise fun a b => a.toNat < b.toNat)
    (hnnode : s.nnode.toNat = s.nleaf.toNat) : Forest s := by
  have hnl := h.nleaf
  have noParent : ∀ q c, ¬ IsParent s q c := fun q c hp => by
    have := hp.1
    have := hp.2.1
    omega
  exact {
    nleaf_pos := by omega
    nleaf_le := by omega
    nleaf_le_nnode := by omega
    size := by
      rw [pqSize_eq_card, h.members_eq, Finset.card_range]
      omega
    used := fun i hi => by rw [h.node_of_lt (by omega)]; rfl
    unused := fun i hi => h.node_of_ge (by omega)
    leaf := fun i hi => by rw [h.node_of_lt (by omega)]; exact ⟨rfl, rfl, rfl⟩
    sorted := fun i j hij hj => by
      rw [h.node_of_lt (by omega), h.node_of_lt (by omega)]
      exact List.pairwise_iff_getElem.mp hsorted i j _ _ hij
    internal := fun k hge hlt => by omega
    sums := fun k hge hlt => by omega
    queued := fun c hc => by
      rw [h.node_of_lt (by omega)]
      exact ⟨fun _ q => noParent q c, fun _ => rfl⟩
    parent_unique := fun q q' c hp => absurd hp (noParent q c)
    sum_lt := h.queueSum_lt hlen }

/-! ## One round keeps the forest -/

namespace Joins

variable {s t : State} {a b : Nat}

/-- A round changes no field of an earlier node but its place in the queue. -/
theorem node_lt (h : Joins s t a b) {i : Nat} (hi : i < s.nnode.toNat) :
    ∃ inq, nodeAt t i = { nodeAt s i with inq := inq } := by
  by_cases ha : i = a
  · exact ⟨false, ha ▸ h.node_left⟩
  by_cases hb : i = b
  · exact ⟨false, hb ▸ h.node_right⟩
  · exact ⟨(nodeAt s i).inq, h.node_other i ha hb (Nat.ne_of_lt hi)⟩

theorem freq_lt (h : Joins s t a b) {i : Nat} (hi : i < s.nnode.toNat) : (nodeAt t i).freq = (nodeAt s i).freq := by
  obtain ⟨_, e⟩ := h.node_lt hi
  rw [e]

section
variable (h : Joins s t a b) (hs : Forest s)
include h hs

theorem left_lt : a < s.nnode.toNat := hs.used_of_mem a h.left_mem

theorem right_lt : b < s.nnode.toNat := hs.used_of_mem b h.right_mem

/-- R115: while two members are left, fewer than `2 * NLEAF - 1` nodes are in use. -/
theorem nnode_lt : s.nnode.toNat + 2 ≤ 2 * s.nleaf.toNat := by
  have := h.pqSize_eq hs.used_of_mem
  have hsize : 1 < pqSize s.node := by
    rw [pqSize_eq_card]
    exact Finset.one_lt_card.mpr ⟨a, h.left_mem, b, h.right_mem, h.ne⟩
  have := hs.size
  omega

theorem nnode_toNat : t.nnode.toNat = s.nnode.toNat + 1 := by
  have := h.nnode_lt hs
  have := hs.nleaf_le
  rw [h.nnode, BitVec.toNat_add, BitVec.toNat_ofNat]
  omega

theorem new_left : (nodeAt t s.nnode.toNat).left.toNat = a := by
  have := h.left_lt hs
  have := h.nnode_lt hs
  have := hs.nleaf_le
  rw [h.node_new, parentNode, BitVec.toNat_ofNat]
  omega

theorem new_right : (nodeAt t s.nnode.toNat).right.toNat = b := by
  have := h.right_lt hs
  have := h.nnode_lt hs
  have := hs.nleaf_le
  rw [h.node_new, parentNode, BitVec.toNat_ofNat]
  omega

/-- The new node is the parent of the two joined; all other parents are as before. -/
theorem isParent_iff (q c : Nat) :
    IsParent t q c ↔ IsParent s q c ∨ (q = s.nnode.toNat ∧ (a = c ∨ b = c)) := by
  have hge := hs.nleaf_le_nnode
  rw [IsParent, IsParent, h.nleaf, h.nnode_toNat hs]
  rcases Nat.lt_trichotomy q s.nnode.toNat with hlt | rfl | hgt
  · obtain ⟨_, e⟩ := h.node_lt hlt
    rw [e]
    simp only [show q < s.nnode.toNat + 1 by omega, hlt, Nat.ne_of_lt hlt, true_and, false_and, or_false]
  · simp [h.new_left hs, h.new_right hs, hge]
  · omega

/-- The nodes joined had no parent before. -/
theorem orphan {c : Nat} (hc : a = c ∨ b = c) (q : Nat) : ¬ IsParent s q c := by
  have hmem : c ∈ members s.node := by
    rcases hc with rfl | rfl
    · exact h.left_mem
    · exact h.right_mem
  have hlt := hs.used_of_mem c hmem
  exact (hs.queued c hlt).mp ((hs.mem_iff hlt).mp hmem) q

theorem queued_after {c : Nat} (hc : c < t.nnode.toNat) : (nodeAt t c).inq = true ↔ ∀ q, ¬ IsParent t q c := by
  have ha := h.left_lt hs
  have hb := h.right_lt hs
  rw [h.nnode_toNat hs] at hc
  by_cases hjoined : a = c ∨ b = c
  · have hinq : (nodeAt t c).inq = false := by
      rcases hjoined with rfl | rfl
      · rw [h.node_left]
      · rw [h.node_right]
    have hp := (h.isParent_iff hs s.nnode.toNat c).mpr (.inr ⟨rfl, hjoined⟩)
    simpa [hinq] using ⟨_, hp⟩
  · have hiff : ∀ q, IsParent t q c ↔ IsParent s q c := fun q => by
      rw [h.isParent_iff hs, or_iff_left fun hn => hjoined hn.2]
    simp only [hiff]
    by_cases hnew : c = s.nnode.toNat
    · subst hnew
      rw [h.node_new]
      refine ⟨fun _ q hq => ?_, fun _ => rfl⟩
      have := hs.child_lt hq
      have := hq.2.1
      omega
    · rw [h.node_other c (fun e => hjoined (.inl e.symm)) (fun e => hjoined (.inr e.symm)) hnew]
      exact hs.queued c (by omega)

theorem sums_after : SumsExact t := by
  intro k hge hlt
  rw [h.nleaf] at hge
  rw [h.nnode_toNat hs] at hlt
  by_cases hk : k = s.nnode.toNat
  · rw [hk, h.freq_new hs.sum_lt, h.new_left hs, h.new_right hs, h.freq_lt (h.left_lt hs), h.freq_lt (h.right_lt hs)]
  · have hk : k < s.nnode.toNat := by omega
    obtain ⟨-, -, hl, hr, -⟩ := hs.internal k hge hk
    obtain ⟨_, e⟩ := h.node_lt hk
    have hfl := h.freq_lt (i := (nodeAt s k).left.toNat) (by omega)
    have hfr := h.freq_lt (i := (nodeAt s k).right.toNat) (by omega)
    simp only [e, hfl, hfr]
    exact hs.sums k hge hk

theorem internal_after {k : Nat} (hge : t.nleaf.toNat ≤ k) (hlt : k < t.nnode.toNat) :
    (nodeAt t k).leaf = false ∧ (nodeAt t k).sym = 0#8 ∧ (nodeAt t k).left.toNat < k ∧
      (nodeAt t k).right.toNat < k ∧ (nodeAt t k).left ≠ (nodeAt t k).right := by
  rw [h.nleaf] at hge
  rw [h.nnode_toNat hs] at hlt
  by_cases hk : k = s.nnode.toNat
  · subst hk
    have hl := h.new_left hs
    have hr := h.new_right hs
    refine ⟨by rw [h.node_new]; rfl, by rw [h.node_new]; rfl, hl ▸ h.left_lt hs, hr ▸ h.right_lt hs,
      fun e => ?_⟩
    exact h.ne (by rw [← hl, ← hr, e])
  · have hk : k < s.nnode.toNat := by omega
    obtain ⟨_, e⟩ := h.node_lt hk
    rw [e]
    exact hs.internal k hge hk

/-- R114: a round keeps the forest. -/
theorem forest : Forest t := by
  have hnn := h.nnode_toNat hs
  have hle := hs.nleaf_le_nnode
  have early {i : Nat} (hi : i < t.nleaf.toNat) : i < s.nnode.toNat := by
    rw [h.nleaf] at hi
    omega
  exact {
    nleaf_pos := h.nleaf ▸ hs.nleaf_pos
    nleaf_le := h.nleaf ▸ hs.nleaf_le
    nleaf_le_nnode := by rw [h.nleaf]; omega
    size := by
      have := h.pqSize_eq hs.used_of_mem
      have := hs.size
      rw [h.nleaf]
      omega
    used := fun i hi => by
      by_cases hnew : i = s.nnode.toNat
      · rw [hnew, h.node_new]
        rfl
      · obtain ⟨_, e⟩ := h.node_lt (i := i) (by omega)
        rw [e]
        exact hs.used i (by omega)
    unused := fun i hi => by
      have ha := h.left_lt hs
      have hb := h.right_lt hs
      rw [h.node_other i (by omega) (by omega) (by omega)]
      exact hs.unused i (by omega)
    leaf := fun i hi => by
      obtain ⟨_, e⟩ := h.node_lt (early hi)
      rw [e]
      exact hs.leaf i (h.nleaf ▸ hi)
    sorted := fun i j hij hj => by
      obtain ⟨_, ei⟩ := h.node_lt (early (Nat.lt_trans hij hj))
      obtain ⟨_, ej⟩ := h.node_lt (early hj)
      rw [ei, ej]
      exact hs.sorted i j hij (h.nleaf ▸ hj)
    internal := fun k hge hlt => h.internal_after hs hge hlt
    sums := h.sums_after hs
    queued := fun c hc => h.queued_after hs hc
    parent_unique := fun q q' c hq hq' => by
      rcases (h.isParent_iff hs q c).mp hq with hq | ⟨rfl, hc⟩ <;>
        rcases (h.isParent_iff hs q' c).mp hq' with hq' | ⟨rfl, hc'⟩
      · exact hs.parent_unique q q' c hq hq'
      · exact absurd hq (h.orphan hs hc' q)
      · exact absurd hq' (h.orphan hs hc q')
      · rfl
    sum_lt := by
      rw [h.queueSum_eq hs.used_of_mem hs.sum_lt]
      exact hs.sum_lt }

end

end Joins

/-- A round on a forest with two members joins the first two of them. -/
theorem Forest.joins {s : State} (h : Forest s) (hsize : 2 ≤ pqSize s.node) :
    ∃ a b, Joins s (mergeRound s) a b := by
  have := h.size
  have := h.nleaf_le
  exact joins_mergeRound hsize (by omega) h.used_of_mem

/-- R114, R115: as many rounds as the queue's surplus leave one member. -/
theorem forest_mergeLoop (fuel : Nat) {s : State} (h : Forest s) (hfuel : pqSize s.node ≤ fuel + 1) :
    Forest (mergeLoop fuel s) ∧ pqSize (mergeLoop fuel s).node = 1 := by
  have hpos := h.pqSize_pos
  induction fuel generalizing s with
  | zero => exact ⟨h, by rw [mergeLoop]; omega⟩
  | succ fuel ih =>
    rw [mergeLoop]
    split
    · rename_i hsize
      obtain ⟨a, b, hj⟩ := h.joins hsize
      have hsize' := hj.pqSize_eq h.used_of_mem
      exact ih (hj.forest h) (by omega) (by omega)
    · exact ⟨h, by omega⟩

/-! ## The tree -/

/-- ArenaSound is about NODE, ROOT, NLEAF and NNODE alone. -/
theorem arenaSound_congr {s t : State} (hnode : t.node = s.node) (hroot : t.root = s.root) (hnleaf : t.nleaf = s.nleaf)
    (hnnode : t.nnode = s.nnode) (h : ArenaSound s) : ArenaSound t := by
  have hat : nodeAt t = nodeAt s := by
    funext i
    rw [nodeAt, nodeAt, hnode]
  simpa only [ArenaSound, ArenaCounts, TreeShape, SumsExact, RootLast, hat, hroot, hnleaf, hnnode] using h

/-- R111: no nodes, no tree. -/
theorem arenaSound_empty {s : State} (hnode : ∀ i, nodeAt s i = Node.empty) (hroot : s.root = Root.none)
    (hnleaf : s.nleaf = 0#9) (hnnode : s.nnode = 0#10) : ArenaSound s := by
  simp [ArenaSound, ArenaCounts, TreeShape, SumsExact, RootLast, hnode, hroot, hnleaf, hnnode, Node.empty]

namespace Forest

variable {s : State} (h : Forest s) (hone : pqSize s.node = 1)
include h hone

/-- R116: the one member left is the last node. -/
theorem mem_iff_last {i : Nat} : i ∈ members s.node ↔ i + 1 = s.nnode.toNat := by
  have hlast := h.last_mem
  have hpos := h.nleaf_pos
  have hle := h.nleaf_le_nnode
  rw [pqSize_eq_card, Finset.card_eq_one] at hone
  obtain ⟨r, hr⟩ := hone
  rw [hr, Finset.mem_singleton] at hlast ⊢
  omega

theorem pqMin_eq : pqMin s.node = some (s.nnode.toNat - 1) := by
  cases hmin : pqMin s.node with
  | none =>
    have hlast := h.last_mem
    rw [mem_members, (pqMin_eq_none _).mp hmin] at hlast
    cases hlast
  | some m =>
    have hm := (h.mem_iff_last hone).mp (mem_members.mpr (pqMin_eq_some hmin).2.1)
    rw [← hm, Nat.add_sub_cancel]

theorem inq_iff_last {i : Nat} (hi : i < s.nnode.toNat) : (nodeAt s i).inq = true ↔ i + 1 = s.nnode.toNat := by
  rw [← h.mem_iff hi, h.mem_iff_last hone]

theorem arenaCounts : ArenaCounts s := by
  have hpos := h.nleaf_pos
  have hsize := h.size
  refine ⟨h.nleaf_le, ?_, fun i _ => ⟨fun hv => ?_, h.used i⟩, h.unused⟩
  · rw [if_neg fun e => by simp [e] at hpos]
    omega
  · by_contra hge
    rw [h.unused i (by omega)] at hv
    cases hv

/-- R42: every node but the last has left the queue, and so has its one parent. -/
theorem treeShape : TreeShape s := by
  refine ⟨h.leaf, h.sorted, h.internal, fun c hc => ?_, fun q hge hlt => ?_⟩
  · have hout : ¬ (nodeAt s c).inq = true := by
      rw [h.inq_iff_last hone (by omega)]
      omega
    rw [h.queued c (by omega), not_forall_not] at hout
    obtain ⟨p, hp⟩ := hout
    exact ⟨p, hp, fun q hge hlt hq => h.parent_unique q p c ⟨hge, hlt, hq⟩ hp⟩
  · obtain ⟨-, -, hl, hr, -⟩ := h.internal q hge hlt
    omega

/-- R116: with one member left in the queue, the root stage makes the forest a tree. -/
theorem arenaSound_stageRoot : ArenaSound (stageRoot s) := by
  have hpos := h.nleaf_pos
  have hle := h.nleaf_le_nnode
  have hsize := h.size
  have hmax := h.nleaf_le
  have hnz : s.nleaf ≠ 0#9 := fun e => by simp [e] at hpos
  rw [stageRoot, if_neg hnz, h.pqMin_eq hone]
  refine ⟨h.arenaCounts hone, h.treeShape hone, h.sums, fun e => absurd e hnz, fun _ => ⟨rfl, ?_, ?_⟩⟩
  · simp only [Option.getD_some, BitVec.toNat_ofNat]
    omega
  · exact fun i hi => h.inq_iff_last hone hi

end Forest

theorem arenaSound_stageCodes {s : State} (h : ArenaSound s) : ArenaSound (stageCodes s) := by
  obtain ⟨c, e⟩ := stageCodes_frame s
  rw [e]
  exact h

/-- R110 to R116: whatever the arena held, BUILD leaves it sound. -/
theorem arenaSound_buildTree (s : State) : ArenaSound (buildTree s) := by
  refine arenaSound_stageCodes ?_
  have hl := leavesAre_stageLeaves s
  have hlen := present_length_le s
  have hnnode := stageLeaves_nnode (stageClear s)
  have hmem := hl.members_eq
  have hsize : pqSize (stageLeaves (stageClear s)).node = (present s).length := by
    rw [pqSize_eq_card, hmem, Finset.card_range]
  by_cases hpos : 0 < (present s).length
  · have hforest := hl.forest hlen hpos (present_sorted s) hnnode
    obtain ⟨hf, hone⟩ := forest_mergeLoop (Config.nsym - 1) hforest (hsize ▸ hlen)
    exact hf.arenaSound_stageRoot hone
  · have hnone : (present s).length = 0 := by omega
    have hnleaf : (stageLeaves (stageClear s)).nleaf = 0#9 := BitVec.eq_of_toNat_eq (hl.nleaf.trans hnone)
    have hmerge : stageMerge (stageLeaves (stageClear s)) = stageLeaves (stageClear s) := by
      rw [stageMerge, mergeLoop.eq_def]
      simp [hsize, hnone]
    rw [hmerge, stageRoot, if_pos hnleaf]
    refine arenaSound_empty (fun i => hl.node_of_ge (by omega)) rfl hnleaf (BitVec.eq_of_toNat_eq ?_)
    exact hnnode.trans (hl.nleaf.trans hnone)

/-! ## Every step -/

/-- BUILD and CLRALL alone write the arena (R22). -/
theorem stepClosed_arenaSound : StepClosed ArenaSound where
  port _ _ h := h
  count _ h := h
  clear _ h := h
  fault _ _ _ _ _ h := h
  rule i w idx s hi hf hl hs := by
    cases i
    case clrall => exact arenaSound_empty (nodeAt_clearTree s) rfl rfl rfl
    case build => exact arenaSound_buildTree s
    all_goals
      exact ruleOf_keeps (fun _ _ _ _ h => h) (fun u hu => arenaSound_congr (hu .node (by simp [writesOf]))
        (hu .root (by simp [writesOf])) (hu .nleaf (by simp [writesOf])) (hu .nnode (by simp [writesOf])) hs) w idx

/-- Settles O44: the merge loop keeps a forest whose roots are the queue, and ends with one root. -/
theorem stepKeepsArenaSound : Obligations.StepKeepsArenaSound :=
  fun _ _ hs h => stepClosed_arenaSound.step hs h

/-- Settles O45: at reset the tables are cleared, the record is 0 and nothing was pushed. -/
theorem resetMeetsInvariants : Obligations.ResetMeetsInvariants :=
  ⟨codesCanonical_clearCode (s := State.reset) codeCanonical_empty, recordConsistent_clearRecord State.reset,
    ⟨fun _ => rfl, fun _ => rfl⟩, arenaSound_empty nodeAt_reset rfl rfl rfl⟩

end Sys2Proof.Proofs

/-! SUPPORT. The readback map of the tables, and which of its words a command can change (20_memory.md R62, R66, R70). -/

namespace Sys2Proof.Proofs

open Sys2Proof.Machine Sys2Proof.Safety

/-! ## The map, range by range (20_memory.md R66) -/

theorem memRead_freqRange (s : State) {a : RbAddr} (h : 0x0100 ≤ a.toNat) (h' : a.toNat < 0x0200) :
    memRead s a = freqAt s (BitVec.ofNat 8 (a.toNat - 0x0100)) := by
  simp only [memRead, readback]
  rw [if_neg (by omega), if_pos h']

theorem memRead_codeLenRange (s : State) {a : RbAddr} (h : 0x0200 ≤ a.toNat) (h' : a.toNat < 0x0300) :
    memRead s a = (codeAt s (BitVec.ofNat 8 (a.toNat - 0x0200))).len.setWidth 32 := by
  simp only [memRead, readback]
  rw [if_neg (by omega), if_neg (by omega), if_pos h']

theorem memRead_codeWordRange (s : State) {a : RbAddr} (h : 0x0800 ≤ a.toNat) (h' : a.toNat < 0x1000) :
    memRead s a =
      bitsWord (codeAt s (BitVec.ofNat 8 ((a.toNat - 0x0800) / 8))).bits ((a.toNat - 0x0800) % 8) := by
  simp only [memRead, readback]
  rw [if_neg (by omega), if_neg (by omega), if_neg (by omega), if_neg (by omega), if_pos h']

theorem memRead_nodeRange (s : State) {a : RbAddr} (h : 0x1000 ≤ a.toNat) (h' : a.toNat < 0x17FC) :
    memRead s a = nodeWord (nodeAt s ((a.toNat - 0x1000) / 4)) ((a.toNat - 0x1000) % 4) := by
  simp only [memRead, readback]
  rw [if_neg (by omega), if_neg (by omega), if_neg (by omega), if_neg (by omega), if_neg (by omega), if_pos h']

theorem memRead_reserved (s : State) {a : RbAddr}
    (h : (0x0300 ≤ a.toNat ∧ a.toNat < 0x0800) ∨ 0x17FC ≤ a.toNat) : memRead s a = 0#32 := by
  simp only [memRead, readback]
  rw [if_neg (by omega), if_neg (by omega), if_neg (by omega)]
  rcases h with ⟨-, h⟩ | h
  · rw [if_pos h]
  · rw [if_neg (by omega), if_neg (by omega), if_neg (by omega)]

/-! ## The map, entry by entry -/

theorem toNat_rbAddr {n : Nat} (h : n < 2 ^ 16) : (BitVec.ofNat 16 n).toNat = n := by
  rw [BitVec.toNat_ofNat, Nat.mod_eq_of_lt h]

theorem memRead_freq (s : State) (b : Sym) : memRead s (BitVec.ofNat 16 (0x0100 + b.toNat)) = freqAt s b := by
  have hb := b.isLt
  have ha := toNat_rbAddr (n := 0x0100 + b.toNat) (by omega)
  rw [memRead_freqRange s (by omega) (by omega), ha, Nat.add_sub_cancel_left, BitVec.ofNat_toNat, BitVec.setWidth_eq]

theorem memRead_codeLen (s : State) (b : Sym) :
    memRead s (BitVec.ofNat 16 (0x0200 + b.toNat)) = (codeAt s b).len.setWidth 32 := by
  have hb := b.isLt
  have ha := toNat_rbAddr (n := 0x0200 + b.toNat) (by omega)
  rw [memRead_codeLenRange s (by omega) (by omega), ha, Nat.add_sub_cancel_left, BitVec.ofNat_toNat,
    BitVec.setWidth_eq]

theorem memRead_codeWord (s : State) (b : Sym) {w : Nat} (hw : w < 8) :
    memRead s (BitVec.ofNat 16 (0x0800 + 8 * b.toNat + w)) = bitsWord (codeAt s b).bits w := by
  have hb := b.isLt
  have ha := toNat_rbAddr (n := 0x0800 + 8 * b.toNat + w) (by omega)
  have hdiv : (0x0800 + 8 * b.toNat + w - 0x0800) / 8 = b.toNat := by omega
  have hmod : (0x0800 + 8 * b.toNat + w - 0x0800) % 8 = w := by omega
  rw [memRead_codeWordRange s (by omega) (by omega), ha, hdiv, hmod, BitVec.ofNat_toNat, BitVec.setWidth_eq]

theorem memRead_nodeWord (s : State) {i k : Nat} (hi : i < 511) (hk : k < 4) :
    memRead s (BitVec.ofNat 16 (0x1000 + 4 * i + k)) = nodeWord (nodeAt s i) k := by
  have ha := toNat_rbAddr (n := 0x1000 + 4 * i + k) (by omega)
  have hdiv : (0x1000 + 4 * i + k - 0x1000) / 4 = i := by omega
  have hmod : (0x1000 + 4 * i + k - 0x1000) % 4 = k := by omega
  rw [memRead_nodeRange s (by omega) (by omega), ha, hdiv, hmod]

/-! ## The four words of a node, field by field -/

theorem nodeWord_flags (n : Node) : (nodeWord n 0).getLsbD 0 = n.valid ∧ (nodeWord n 0).getLsbD 1 = n.leaf ∧
    (nodeWord n 0).getLsbD 2 = n.inq := by
  simp only [nodeWord, BitVec.getLsbD_append]
  simp

theorem nodeWord_sym (n : Node) : (nodeWord n 0).extractLsb' 3 5 = 0#5 ∧ (nodeWord n 0).extractLsb' 8 8 = n.sym ∧
    (nodeWord n 0).extractLsb' 16 16 = 0#16 := by
  rw [nodeWord]
  refine ⟨?_, ?_, ?_⟩
  · iterate 3 rw [BitVec.extractLsb'_append_eq_of_le (by decide)]
    exact BitVec.extractLsb'_append_eq_right
  · iterate 4 rw [BitVec.extractLsb'_append_eq_of_le (by decide)]
    exact BitVec.extractLsb'_append_eq_right
  · iterate 4 rw [BitVec.extractLsb'_append_eq_of_le (by decide)]
    exact BitVec.extractLsb'_append_eq_left

theorem nodeWord_freqLow (n : Node) : (nodeWord n 1).toNat = n.freq.toNat % 2 ^ 32 := by
  simp [nodeWord]

theorem nodeWord_freqHigh (n : Node) : (nodeWord n 2).toNat = n.freq.toNat / 2 ^ 32 := by
  have hf := n.freq.isLt
  simp only [nodeWord, BitVec.toNat_setWidth, BitVec.extractLsb'_toNat, Nat.shiftRight_eq_div_pow]
  omega

theorem nodeWord_children (n : Node) : (nodeWord n 3).extractLsb' 0 9 = n.left ∧
    (nodeWord n 3).extractLsb' 9 7 = 0#7 ∧ (nodeWord n 3).extractLsb' 16 9 = n.right ∧
    (nodeWord n 3).extractLsb' 25 7 = 0#7 := by
  rw [nodeWord]
  refine ⟨BitVec.extractLsb'_append_eq_right, ?_, ?_, ?_⟩
  · rw [BitVec.extractLsb'_append_eq_of_le (by decide)]
    exact BitVec.extractLsb'_append_eq_right
  · iterate 2 rw [BitVec.extractLsb'_append_eq_of_le (by decide)]
    exact BitVec.extractLsb'_append_eq_right
  · iterate 2 rw [BitVec.extractLsb'_append_eq_of_le (by decide)]
    exact BitVec.extractLsb'_append_eq_left

/-- Settles O51: each address of a table reads its entry's word, and each word is read field by field. -/
theorem tablesReadByTheMap : Obligations.TablesReadByTheMap := by
  intro s
  refine ⟨memRead_freq s, fun b => ?_, fun b w j hw hj => ?_, fun i hi => ?_, fun a ha => ?_⟩
  · rw [memRead_codeLen]
    exact BitVec.toNat_setWidth_of_le (by decide)
  · rw [memRead_codeWord s b hw, getLsbD_bitsWord _ _ hj]
  · have word {k : Nat} (hk : k < 4) := memRead_nodeWord s hi hk
    have word₀ : memRead s (BitVec.ofNat 16 (0x1000 + 4 * i)) = nodeWord (nodeAt s i) 0 := word (k := 0) (by decide)
    rw [word₀, word (k := 1) (by decide), word (k := 2) (by decide), word (k := 3) (by decide)]
    obtain ⟨hvalid, hleaf, hinq⟩ := nodeWord_flags (nodeAt s i)
    exact ⟨⟨hvalid, hleaf, hinq, nodeWord_sym _⟩, nodeWord_freqLow _, nodeWord_freqHigh _, nodeWord_children _⟩
  · simp only [BitVec.le_def, BitVec.toNat_ofNat] at ha
    exact memRead_reserved s (by omega)

/-! ## What a command can change of the map (20_memory.md R62, R70) -/

/-- A table address reads the same in two states that agree on the entry it belongs to. -/
theorem memRead_congr {s t : State} {a : RbAddr} (ha : 0x0100 ≤ a.toNat)
    (hfreq : ∀ b : Sym, a.toNat = 0x0100 + b.toNat → freqAt t b = freqAt s b)
    (hcode : ∀ b : Sym, a.toNat = 0x0200 + b.toNat ∨
      (0x0800 + 8 * b.toNat ≤ a.toNat ∧ a.toNat < 0x0808 + 8 * b.toNat) → codeAt t b = codeAt s b)
    (hnode : 0x1000 ≤ a.toNat → t.node = s.node) : memRead t a = memRead s a := by
  have sym {n : Nat} (h : n < 256) : (BitVec.ofNat 8 n).toNat = n := by
    rw [BitVec.toNat_ofNat, Nat.mod_eq_of_lt h]
  by_cases h₁ : a.toNat < 0x0200
  · rw [memRead_freqRange t ha h₁, memRead_freqRange s ha h₁, hfreq _ (by rw [sym (by omega)]; omega)]
  by_cases h₂ : a.toNat < 0x0300
  · have h := Nat.not_lt.mp h₁
    rw [memRead_codeLenRange t h h₂, memRead_codeLenRange s h h₂, hcode _ (by rw [sym (by omega)]; omega)]
  by_cases h₃ : a.toNat < 0x0800
  · rw [memRead_reserved t (by omega), memRead_reserved s (by omega)]
  by_cases h₄ : a.toNat < 0x1000
  · have h := Nat.not_lt.mp h₃
    rw [memRead_codeWordRange t h h₄, memRead_codeWordRange s h h₄, hcode _ (by rw [sym (by omega)]; omega)]
  by_cases h₅ : a.toNat < 0x17FC
  · have h := Nat.not_lt.mp h₄
    rw [memRead_nodeRange t h h₅, memRead_nodeRange s h h₅, nodeAt, nodeAt, hnode h]
  · rw [memRead_reserved t (by omega), memRead_reserved s (by omega)]

theorem memRead_of_tables {s t : State} {a : RbAddr} (ha : 0x0100 ≤ a.toNat) (hfreq : t.freq = s.freq)
    (hcode : t.code = s.code) (hnode : t.node = s.node) : memRead t a = memRead s a :=
  memRead_congr ha (fun b _ => freqAt_congr hfreq b) (fun b _ => codeAt_congr hcode b) fun _ => hnode

theorem memRead_countWord (s : State) {a : RbAddr} (ha : 0x0100 ≤ a.toNat) : memRead (countWord s) a = memRead s a :=
  memRead_of_tables ha rfl rfl rfl

theorem memRead_raise (c : Cause) (w idx : Word) (s : State) {a : RbAddr} (ha : 0x0100 ≤ a.toNat) :
    memRead (raise c w idx s) a = memRead s a := memRead_of_tables ha rfl rfl rfl

theorem memRead_setFreq {b : Sym} (v : Freq) (s : State) {a : RbAddr} (ha : 0x0100 ≤ a.toNat)
    (hst : a.toNat ≠ 0x0100 + b.toNat) : memRead (setFreq b v s) a = memRead s a :=
  memRead_congr ha (fun _ h => freqAt_setFreq_ne (by rintro rfl; exact hst h) v s) (fun _ _ => rfl) fun _ => rfl

theorem memRead_setCode {b : Sym} (c : Code) (s : State) {a : RbAddr} (ha : 0x0100 ≤ a.toNat)
    (hst : ¬ (a.toNat = 0x0200 + b.toNat ∨ (0x0800 + 8 * b.toNat ≤ a.toNat ∧ a.toNat < 0x0808 + 8 * b.toNat))) :
    memRead (setCode b c s) a = memRead s a :=
  memRead_congr ha (fun _ _ => rfl) (fun _ h => codeAt_setCode_ne (by rintro rfl; exact hst h) c s) fun _ => rfl

/-- The rule of a command that writes a whole table is covered by R22's column, of one that writes an entry by the
entry's own address. -/
theorem memRead_ruleOf {i : Instr} {a : RbAddr} (ha : 0x0100 ≤ a.toNat) (hst : ¬ storesAt i a.toNat) (w idx : Word)
    (s : State) : memRead (ruleOf i w idx s) a = memRead s a := by
  have frame (h : ∀ u, UnchangedBut (writesOf i) s u → memRead u a = memRead s a) :
      memRead (ruleOf i w idx s) a = memRead s a :=
    ruleOf_keeps (P := fun u => memRead u a = memRead s a)
      (fun c w idx u hu => (memRead_raise c w idx u ha).trans hu) h w idx
  cases i
  case clrall => exact absurd trivial hst
  case clrfreq =>
    refine frame fun u hu => memRead_congr ha (fun b hb => ?_)
      (fun b _ => codeAt_congr (hu .code (by simp [writesOf])) b) fun _ => hu .node (by simp [writesOf])
    have := b.isLt
    simp only [storesAt] at hst
    omega
  case clrcode =>
    refine frame fun u hu => memRead_congr ha (fun b _ => freqAt_congr (hu .freq (by simp [writesOf])) b)
      (fun b hb => ?_) fun _ => hu .node (by simp [writesOf])
    have := b.isLt
    simp only [storesAt] at hst
    omega
  case build =>
    simp only [storesAt] at hst
    exact frame fun u hu => memRead_congr ha (fun b _ => freqAt_congr (hu .freq (by simp [writesOf])) b)
      (fun b hb => by omega) (fun hn => by omega)
  case fsym b =>
    rw [ruleOf]
    split
    · exact memRead_raise _ _ _ _ ha
    · exact memRead_setFreq _ _ ha hst
  case ldfreql b v | ldfreqh b v => exact memRead_setFreq _ _ ha hst
  case clrc b => exact memRead_setCode _ _ ha hst
  case ldcbit b v =>
    rw [ruleOf]
    split
    · exact memRead_raise _ _ _ _ ha
    · exact memRead_setCode _ _ ha hst
  all_goals
    exact frame fun u hu => memRead_of_tables ha (hu .freq (by simp [writesOf])) (hu .code (by simp [writesOf]))
      (hu .node (by simp [writesOf]))

/-- Only the rule of a command stores to a table: counting, the fault entry and CLRERR's return do not. -/
theorem memRead_exec {i : Instr} {s t : State} {a : RbAddr} (h : exec i s = .next t) (ha : 0x0100 ≤ a.toNat)
    (hst : ¬ storesAt i a.toNat) : memRead t a = memRead s a := by
  by_cases hi : i = .clrerr
  · subst hi
    obtain rfl : clearRecord (countWord s) = t := by simpa [exec_clrerr] using h
    exact memRead_of_tables ha rfl rfl rfl
  · obtain rfl : runCommand i (ruleOf i) s = t := by simpa [exec_eq_runCommand hi] using h
    rcases runCommand_cases i (ruleOf i) s with ⟨-, e⟩ | ⟨-, -, e⟩ | ⟨-, -, -, e⟩ | ⟨-, -, -, e⟩
    · rw [e, memRead_countWord s ha]
    · rw [e, memRead_raise _ _ _ _ ha, memRead_countWord s ha]
    · rw [e, memRead_raise _ _ _ _ ha, memRead_countWord s ha]
    · rw [e, memRead_ruleOf ha hst, memRead_countWord s ha]

/-- Settles O52: a command stores by its rule alone, and a rejected word is dropped or takes a fault. -/
theorem storesChangeOnlyTheirReadback : Obligations.StoresChangeOnlyTheirReadback := by
  refine ⟨fun i s t a h ha hst => memRead_exec h ha hst, ?_⟩
  rintro w s t a h ⟨why, hw⟩ ha
  rcases stepWord_cases h with ⟨i, hi, -⟩ | ⟨-, rfl⟩ | ⟨-, rfl⟩
  · rw [hw] at hi
    cases hi
  · exact memRead_countWord s ha
  · rw [memRead_raise _ _ _ _ ha, memRead_countWord s ha]

end Sys2Proof.Proofs

/-! SUPPORT. The commands of 45_control.md (R170 to R174), after what every command's statement needs: which words
of an opcode are legal (30_encoding.md R83, R85) and what a legal command does (R84, R186). -/

namespace Sys2Proof.Proofs

open Sys2Proof.Machine Sys2Proof.Safety

/-! ## Legal and illegal words (30_encoding.md R81, R83, R85) -/

/-- A mask of all ones keeps its field; `BitVec.and_allOnes` for the masks as R83 writes them. -/
theorem and_full8 (x : BitVec 8) : x &&& 0xFF#8 = x := BitVec.and_allOnes

theorem and_full16 (v : BitVec 16) : v &&& 0xFFFF#16 = v := BitVec.and_allOnes

/-- An `imm` field with only bit 0 in use is the field of that bit (R81, R87). -/
theorem bitImm_getLsbD_zero {v : Imm} (h : v &&& 0xFFFE#16 = 0#16) : bitImm (v.getLsbD 0) = v := by
  have hmask : ∀ j < 16, (0xFFFE#16).getLsbD j = decide (j ≠ 0) := by decide
  have hbit : ∀ b, ∀ j < 16, (bitImm b).getLsbD j = (decide (j = 0) && b) := by decide
  refine BitVec.eq_of_getLsbD_eq fun j hj => ?_
  have hv := congrArg (BitVec.getLsbD · j) h
  simp only [BitVec.getLsbD_and, hmask j hj, BitVec.getLsbD_zero] at hv
  rw [hbit _ j hj]
  by_cases h0 : j = 0
  · simp [h0]
  · simpa [h0] using hv.symm

/-- R83's test of a word by a row, field by field. -/
theorem fields_of_and {w m p : Word} (h : w &&& m = p) : opField w &&& opField m = opField p ∧
    symField w &&& symField m = symField p ∧ immField w &&& immField m = immField p := by
  rw [← and_eq_iff_fields, mkWord_fields, mkWord_fields, h]

/-- A row's test fixes every field that its command does not take as an operand (R83). -/
theorem encode_rowCommand {r : Row} (hr : r ∈ rows) {w : Word} (h : w &&& r.mask = r.pat) :
    encode (rowCommand r w) = w := by
  obtain ⟨hop, hsym, himm⟩ := fields_of_and h
  have hbit := bitImm_getLsbD_zero (v := immField w)
  suffices hfields : opcode (rowCommand r w) = opField w ∧ symOperand (rowCommand r w) = symField w ∧
      immOperand (rowCommand r w) = immField w by
    rw [encode, mkWord_inj.mpr hfields, mkWord_fields]
  simp only [rows, List.cons_append, List.nil_append, List.mem_cons, List.not_mem_nil, or_false] at hr
  rcases hr with rfl | rfl | rfl | rfl | rfl | rfl | rfl | rfl | rfl | rfl | rfl | rfl | rfl | rfl | rfl | rfl |
    rfl | rfl
  -- A field masked whole is the row's constant; any other is the command's operand, a bit operand by `hbit`.
  all_goals
    simp [opField, symField, immField, and_full8, and_full16] at hop hsym himm hbit
    simp [rowCommand, opcode, symOperand, immOperand, opField, symField, immField, *]

/-- A word that spells a command is that command's word (R81, R83). -/
theorem encode_of_decode {w : Word} {i : Instr} (h : decode w = .command i) : encode i = w := by
  unfold decode at h
  split at h
  · rename_i r hr
    obtain rfl : rowCommand r w = i := by simpa using h
    have hs := List.find?_some hr
    simp only [spells, Bool.and_eq_true, beq_iff_eq] at hs
    exact encode_rowCommand (List.mem_of_find?_eq_some hr) hs.1
  · cases h

/-- R85: a word that spells no command takes IllegalCommand. -/
theorem illegalWord_of_decode {w : Word} (h : ∀ i, decode w ≠ .command i) : IllegalWord w := by
  intro s hf
  obtain ⟨t, ht⟩ := stepWord_next w s
  rcases stepWord_cases ht with ⟨i, hi, -⟩ | ⟨hf', -⟩ | ⟨-, rfl⟩
  · exact absurd hi (h i)
  · rw [hf] at hf'
    cases hf'
  · exact ⟨_, ht, faultsOnly_raise .illegalCommand w s⟩

/-- R81: the opcodes of the commands that take no operand. -/
def operandlessOps : List (BitVec 8) :=
  [0x00#8, 0x01#8, 0x02#8, 0x03#8, 0x04#8, 0x20#8, 0x40#8, 0x42#8, 0x50#8, 0x53#8]

/-- R81: the fields such a command does not use are 0. -/
theorem operands_zero {i : Instr} (h : opcode i ∈ operandlessOps) : symOperand i = 0#8 ∧ immOperand i = 0#16 := by
  cases i
  case fsym | ldfreql | ldfreqh | clrc | ldcbit | encSym | decBit | decWord =>
    exact absurd h (by simp [opcode, operandlessOps])
  all_goals exact ⟨rfl, rfl⟩

/-- A command without operands has one word, and no other word of its opcode spells a command. -/
theorem onlyWordOfOp {op : BitVec 8} (h : op ∈ operandlessOps) : OnlyWordOfOp op := by
  rintro w rfl hne
  refine illegalWord_of_decode fun i hi => ?_
  obtain rfl := encode_of_decode hi
  rw [opField_encode] at h
  rw [symField_encode, immField_encode, (operands_zero h).1, (operands_zero h).2] at hne
  simp at hne

/-! ## A command in and out of its phases (30_encoding.md R84, 60_exceptions.md R186) -/

/-- R84 step 5: where R84 reaches it, a command does what its rule says. -/
theorem exec_ready {p : Phase} {i : Instr} {s : State} (h : Ready p s) (hi : i ≠ .clrerr) (hw : i.wellFormed = true)
    (hl : legalIn i p = true) : exec i s = .next (ruleOf i (encode i) s.cmdcnt (countWord s)) := by
  obtain ⟨hf, rfl⟩ := h
  rw [exec_eq_runCommand hi, runCommand_run hf hw hl]

/-- R84 step 4: a command legal in one phase alone takes BadPhase in the others. -/
theorem badPhaseBut_of_legalIn {p : Phase} {i : Instr} (hi : i ≠ .clrerr) (hw : i.wellFormed = true)
    (hl : ∀ q, legalIn i q = true → q = p) : BadPhaseBut p i := by
  intro s hf hp
  have hbad : legalIn i s.phase = false := by
    rw [← Bool.not_eq_true]
    exact mt (hl _) hp
  exact ⟨_, by rw [exec_eq_runCommand hi, runCommand_badPhase hf hw hbad], faultsOnly_raise .badPhase _ s⟩

/-- R22: a command that takes no fault, or clears one, writes CMDCNT and its own elements. -/
theorem exec_frame {i : Instr} {s t : State} {es : List Elem} (h : exec i s = .next t)
    (hf : t.fault = s.fault ∨ i = .clrerr) (hes : .cmdcnt :: writesOf i ⊆ es) : UnchangedBut es s t :=
  unchangedBut_mono hes ((onlyTheListedCommandsWrite i s t h).1 hf)

/-! ## NOP (45_control.md R170) -/

/-- NOP's rule does nothing, so that it is run or dropped makes no difference. -/
theorem exec_nop (s : State) : exec .nop s = .next (countWord s) := by
  rw [exec_eq_runCommand (by simp)]
  cases hf : s.fault
  · rw [runCommand_run hf rfl rfl, ruleOf]
  · rw [runCommand_held hf]

/-- Settles O14: NOP leads to the counted state, whether it runs or is dropped. -/
theorem nopOnlyCounts : Obligations.NopOnlyCounts :=
  ⟨rfl, onlyWordOfOp (by decide), fun s => ⟨countWord s, exec_nop s, rfl, unchangedBut_countWord s⟩⟩

/-! ## CLRERR (45_control.md R171) -/

/-- With FAULT = 0 a consistent record has nothing to clear (R33). -/
theorem clearRecord_of_consistent {s : State} (h : RecordConsistent s) (hf : s.fault = false) : clearRecord s = s := by
  obtain ⟨hcode, hcmd, hidx⟩ := h.1 hf
  cases s
  simp_all [clearRecord]

/-- Settles O15: the return from a fault is the state named by `exec_clrerr`. -/
theorem clrerrAcknowledges : Obligations.ClrerrAcknowledges := by
  refine ⟨rfl, onlyWordOfOp (by decide), fun s => ?_⟩
  have hframe := exec_frame (exec_clrerr s) (.inr rfl) (List.Subset.refl _)
  refine ⟨_, exec_clrerr s, rfl, rfl, rfl, rfl, rfl, hframe, ?_, ?_⟩
  · intro hrec hf
    rw [clearRecord_of_consistent (s := countWord s) hrec hf]
    exact unchangedBut_countWord s
  · intro hrec hf
    exact (hrec.2 hf).1

/-! ## CLRALL, CLRFREQ and CLRCODE (45_control.md R172 to R174) -/

/-- R36: FEMPTY = 1 once every count is 0, by CLRFREQ (R173). -/
theorem fempty_clearFreq (s : State) : fempty (clearFreq s) = true :=
  (fempty_iff _).mpr (freqAt_clearFreq s)

/-- R36: TEMPTY = 1 once every code is empty, by CLRCODE (R174). -/
theorem tempty_clearCode (s : State) : tempty (clearCode s) = true :=
  (tempty_iff _).mpr fun a => congrArg Code.len (codeAt_clearCode s a)

/-- R172: CLRALL's rule makes of a Ready IDLE state with a consistent record the reset state, but for CMDCNT, the
histories and the model's port. -/
theorem ruleOf_clrall_eq_reset {s : State} (h : Ready .idle s) (hrec : RecordConsistent s) (w idx : Word) :
    ruleOf .clrall w idx s =
      { State.reset with cmdcnt := s.cmdcnt, bout := s.bout, sout := s.sout, port := s.port } := by
  obtain ⟨hf, hp⟩ := h
  obtain ⟨hcode, hcmd, hidx⟩ := hrec.1 hf
  simp [ruleOf, State.reset, clearCode, clearTree, clearFreq, hf, hp, hcode, hcmd, hidx]

/-- Settles O16: each table of CLRALL's state reads as after its own clearing. -/
theorem clrallEmptiesTables : Obligations.ClrallEmptiesTables := by
  refine ⟨rfl, onlyWordOfOp (by decide),
    badPhaseBut_of_legalIn (by simp) rfl fun q => by simp [legalIn], fun s hs => ?_⟩
  have hexec := exec_ready hs (i := .clrall) (by simp) rfl rfl
  exact ⟨_, hexec, freqAt_clearFreq s, nodeAt_clearTree s, rfl, rfl, rfl, codeAt_clearCode s, rfl, rfl, rfl,
    rfl, tempty_clearCode s, fempty_clearFreq s, exec_frame hexec (.inl rfl) (by simp [writesOf]),
    fun hrec => ruleOf_clrall_eq_reset (s := countWord s) hs hrec _ _⟩

/-- Settles O17: each command's state is its one table's clearing of the counted state. -/
theorem clrfreqAndClrcodeEmptyOneTable : Obligations.ClrfreqAndClrcodeEmptyOneTable := by
  refine ⟨rfl, rfl, onlyWordOfOp (by decide), onlyWordOfOp (by decide),
    badPhaseBut_of_legalIn (by simp) rfl fun q => by simp [legalIn],
    badPhaseBut_of_legalIn (by simp) rfl fun q => by simp [legalIn], fun s hs => ?_, fun s hs => ?_⟩
  · have hexec := exec_ready hs (i := .clrfreq) (by simp) rfl rfl
    exact ⟨_, hexec, freqAt_clearFreq s, fempty_clearFreq s, rfl, exec_frame hexec (.inl rfl) (by simp [writesOf])⟩
  · have hexec := exec_ready hs (i := .clrcode) (by simp) rfl rfl
    exact ⟨_, hexec, codeAt_clearCode s, tempty_clearCode s, rfl, exec_frame hexec (.inl rfl) (by simp [writesOf])⟩

end Sys2Proof.Proofs

/-! SUPPORT. The exceptions (60_exceptions.md): what a word does while FAULT = 1 and while FAULT = 0, which fault a
command can take, and what a faulting command has done by then. -/

namespace Sys2Proof.Proofs

open Sys2Proof.Machine Sys2Proof.Safety

/-! ## The host's moves and the fault entry (R184, R199) -/

/-- Settles O4: `fetch` answers the first word of the port, and `step` is a match on its answer. -/
theorem stepWithoutWordKeepsState : Obligations.StepWithoutWordKeepsState := by
  refine fun s => ⟨fun hport => ?_, fun w rest hport => ?_⟩
  · rw [step, fetch, hport]
    rfl
  · rw [step, fetch, hport]

/-- Settles O53: a move other than reset writes at most the port. -/
theorem hostMovesActAsListed : Obligations.HostMovesActAsListed := by
  refine fun s => ⟨fun w => ⟨rfl, fun e he => ?_⟩, fun _ => ⟨rfl, rfl⟩, fun _ => ⟨rfl, rfl⟩, rfl⟩
  cases e
  case port => simp at he
  all_goals rfl

/-- R184: the fault entry ends the open frame in ABT. -/
theorem aborted_raise (c : Cause) (w idx : Word) (s : State) : Aborted s (raise c w idx s) := by
  refine ⟨rfl, ?_, ?_⟩
  · rw [raise_bout]
    split <;> simp
  · rw [raise_sout]
    split <;> simp

/-- Settles O12: the record and the codes are the definition's, the channels are `aborted_raise`. -/
theorem faultEntry : Obligations.FaultEntry :=
  ⟨fun c w idx s => ⟨⟨rfl, rfl, rfl, rfl⟩, aborted_raise c w idx s, unchangedBut_raise c w idx s⟩,
    rfl, rfl, rfl, rfl, rfl, rfl, rfl⟩

/-! ## Words that spell no command (30_encoding.md R82, R85; R181) -/

/-- R83: a word spells only well-formed commands; this rules out DEC_WORD's counts above 16. -/
theorem wellFormed_of_decode {w : Word} {i : Instr} (h : decode w = .command i) : i.wellFormed = true := by
  unfold decode at h
  split at h
  · rename_i r hr
    obtain rfl : rowCommand r w = i := by simpa using h
    have hs := List.find?_some hr
    simp only [spells, Bool.and_eq_true] at hs
    exact hs.2
  · cases h

/-- R85: a word that spells no command is rejected for the reason `whyIllegal` gives. -/
theorem decode_eq_illegal {w : Word} (h : ∀ i, decode w ≠ .command i) : decode w = .illegal (whyIllegal w) := by
  unfold decode at h ⊢
  split
  · rename_i r hr
    rw [hr] at h
    exact absurd rfl (h _)
  · rfl

/-- R82: the opcodes of the table's rows, in order. -/
theorem assignedOps_eq : assignedOps = [0x00#8, 0x01#8, 0x02#8, 0x03#8, 0x04#8, 0x10#8, 0x11#8, 0x12#8, 0x20#8,
    0x30#8, 0x31#8, 0x40#8, 0x41#8, 0x42#8, 0x50#8, 0x51#8, 0x52#8, 0x53#8] := rfl

theorem opcode_mem_assignedOps (i : Instr) : opcode i ∈ assignedOps := by
  rw [assignedOps_eq]
  cases i <;> simp [opcode]

/-- R82: a word of an unassigned opcode spells no command. -/
theorem decode_of_unassigned {w : Word} (h : opField w ∉ assignedOps) : decode w = .illegal .unassignedOp := by
  have hdecode : decode w = .illegal (whyIllegal w) := decode_eq_illegal fun i hi => by
    rw [← encode_of_decode hi, opField_encode] at h
    exact h (opcode_mem_assignedOps i)
  rw [hdecode, whyIllegal, if_neg h]

/-- R81: only DEC_WORD has the opcode 0x52. -/
theorem eq_decWord_of_opcode {i : Instr} (h : opcode i = 0x52#8) : i = .decWord (symOperand i) (immOperand i) := by
  cases i
  case decWord => rfl
  all_goals exact absurd h (by simp [opcode])

/-- R83: a DEC_WORD of more than 16 bits spells no command. -/
theorem decode_of_badCount {w : Word} (hop : opField w = 0x52#8) (hn : 16 < (symField w).toNat) :
    decode w = .illegal .badCount := by
  have hdecode : decode w = .illegal (whyIllegal w) := decode_eq_illegal fun i hi => by
    have hwf := wellFormed_of_decode hi
    obtain rfl := encode_of_decode hi
    rw [opField_encode] at hop
    rw [symField_encode] at hn
    rw [eq_decWord_of_opcode hop, Instr.wellFormed, decide_eq_true_eq] at hwf
    exact absurd hwf (Nat.not_le.mpr hn)
  rw [hdecode, whyIllegal, hop, if_pos (by simp [assignedOps_eq]), if_pos rfl]

/-- Settles O9: a rejected word is no command's, and the two kinds of words named are rejected by their opcode and
by their count. -/
theorem illegalWordsTakeIllegalCommand : Obligations.IllegalWordsTakeIllegalCommand := by
  refine ⟨?_, fun w hop => decode_of_unassigned (assignedOps_eq ▸ hop), fun w => decode_of_badCount⟩
  rintro w ⟨why, hwhy⟩
  exact illegalWord_of_decode fun i => by simp [hwhy]

/-! ## While FAULT = 1 (R185, R193) -/

/-- R185: a held core counts a word other than CLRERR's and drops it. -/
theorem stepWord_held {w : Word} {s : State} (hf : s.fault = true) (hw : w ≠ 0x01000000#32) :
    stepWord w s = .next (countWord s) := by
  obtain ⟨t, ht⟩ := stepWord_next w s
  rcases stepWord_cases ht with ⟨i, hi, hexec⟩ | ⟨-, rfl⟩ | ⟨hfree, -⟩
  · have hne : i ≠ .clrerr := by
      rintro rfl
      exact hw (encode_of_decode hi).symm
    rw [ht, ← hexec, exec_eq_runCommand hne, runCommand_held hf]
  · exact ht
  · simp [hf] at hfree

/-- R171: CLRERR's word acknowledges in every state. -/
theorem stepWord_clrerr (s : State) : stepWord 0x01000000#32 s = .next (clearRecord (countWord s)) := rfl

/-- Settles O10: CLRERR's word acknowledges, every other word is dropped. -/
theorem heldCoreDropsWords : Obligations.HeldCoreDropsWords := by
  intro s w hf
  by_cases hw : w = 0x01000000#32
  · subst hw
    exact ⟨_, stepWord_clrerr s, rfl, fun hne => absurd rfl hne, fun _ => ⟨rfl, rfl, rfl, rfl,
      unchangedBut_trans (unchangedBut_countWord s) (unchangedBut_clearRecord _)⟩⟩
  · exact ⟨_, stepWord_held hf hw, rfl, fun _ => unchangedBut_countWord s, fun heq => absurd heq hw⟩

/-- R193: a held core changes nothing but the count, by one for each word dropped. -/
theorem runWords_held {ws : List Word} {s : State} (hf : s.fault = true) (hws : ∀ x ∈ ws, x ≠ 0x01000000#32) :
    runWords ws s = .next { s with cmdcnt := s.cmdcnt + BitVec.ofNat 32 ws.length } := by
  induction ws generalizing s with
  | nil => simp [runWords]
  | cons w ws ih =>
    obtain ⟨hw, hws⟩ := List.forall_mem_cons.mp hws
    rw [runWords_cons (stepWord_held hf hw), ih (s := countWord s) hf hws, countWord_cmdcnt, List.length_cons,
      Nat.add_comm ws.length, BitVec.ofNat_add, BitVec.add_assoc]
    rfl

/-! ## While FAULT = 0 (30_encoding.md R84, R190) -/

theorem stepWord_of_decode {w : Word} {i : Instr} (h : decode w = .command i) (s : State) :
    stepWord w s = exec i s := by
  rw [stepWord, h]

/-- R84 step 4: out of its phases a command takes BadPhase; CLRERR is legal in every phase. -/
theorem exec_badPhase {i : Instr} {s : State} (hf : s.fault = false) (hw : i.wellFormed = true)
    (hl : legalIn i s.phase = false) : exec i s = .next (raise .badPhase (encode i) s.cmdcnt (countWord s)) := by
  have hi : i ≠ .clrerr := by
    rintro rfl
    cases hl
  rw [exec_eq_runCommand hi, runCommand_badPhase hf hw hl]

/-- R84 step 5: a fault that a command takes in its phases is taken by its rule, CLRERR taking none. -/
theorem exec_fault_of_legal {i : Instr} {s t : State} (h : exec i s = .next t) (hf : s.fault = false)
    (hw : i.wellFormed = true) (hl : legalIn i s.phase = true) (ht : t.fault = true) :
    t = ruleOf i (encode i) s.cmdcnt (countWord s) := by
  have hi : i ≠ .clrerr := by
    rintro rfl
    obtain rfl : clearRecord (countWord s) = t := by simpa [exec_clrerr] using h
    cases ht
  simpa [exec_ready ⟨hf, rfl⟩ hi hw hl] using h.symm

/-- R155: the commands whose rule feeds bits to the decoder. -/
def TakesBits (i : Instr) : Prop := (∃ b, i = .decBit b) ∨ ∃ n v, i = .decWord n v

/-- What such a command may have written before it faults (R187). -/
def bitElems : List Elem := [.cbuf, .done, .sout]

/-- R180, R187: the rule of a command takes no fault but the command's own, and takes it before it writes anything,
decoded bits excepted. -/
theorem ruleOf_fault {i : Instr} {w idx : Word} {s : State} (hf : s.fault = false)
    (ht : (ruleOf i w idx s).fault = true) :
    ∃ c u, ruleOf i w idx s = raise c w idx u ∧ causeCode c = ownFault i ∧ UnchangedBut bitElems s u ∧
      (TakesBits i ∨ u = s) := by
  have bits (bs : Bits) (hb : (decBits w idx bs s).fault = true) :
      ∃ u, decBits w idx bs s = raise .ambiguousCode w idx u ∧ UnchangedBut bitElems s u := by
    obtain ⟨d, c, o, -, h | h⟩ := decBits_cases w idx bs s
    · simp [h, hf] at hb
    · exact ⟨_, h, unchangedBut_decBits (List.Subset.refl _) s d c o⟩
  cases i
  case decBit b =>
    obtain ⟨u, hu, hframe⟩ := bits [b] ht
    exact ⟨_, u, hu, rfl, hframe, .inl (.inl ⟨b, rfl⟩)⟩
  case decWord n v =>
    obtain ⟨u, hu, hframe⟩ := bits (wordBits n v) ht
    exact ⟨_, u, hu, rfl, hframe, .inl (.inr ⟨n, v, rfl⟩)⟩
  case build =>
    have hkept : (buildTree s).fault = s.fault := unchangedBut_buildTree s .fault (by simp [writesOf])
    simp [ruleOf, hkept, hf] at ht
  case fsym | ldcbit | encSym =>
    rw [ruleOf] at ht ⊢
    split at ht
    · rename_i hc
      exact ⟨_, s, if_pos hc, rfl, unchangedBut_refl _ s, .inr rfl⟩
    · simp [hf] at ht
  case decEnd =>
    rw [ruleOf] at ht ⊢
    split at ht
    · simp [hf] at ht
    · rename_i hc
      exact ⟨_, s, if_neg hc, rfl, unchangedBut_refl _ s, .inr rfl⟩
  all_goals simp [ruleOf, hf] at ht

/-- R180: BadPhase is no command's own fault. -/
theorem ownFault_ne_badPhase (i : Instr) : ownFault i ≠ 2#8 := by
  cases i <;> simp [ownFault]

/-- Settles O13: the table is the definition's, out of it the common step raises, and in it only the command's own
fault can be taken. -/
theorem badPhaseExactly : Obligations.BadPhaseExactly := by
  refine ⟨fun p => ⟨rfl, rfl⟩, by simp [legalIn], by simp [legalIn], fun i s hw hf => ?_⟩
  cases hl : legalIn i s.phase
  · exact ⟨_, exec_badPhase hf hw hl, fun _ => faultsOnly_raise .badPhase _ s, fun h => (nomatch h)⟩
  · obtain ⟨t, hexec⟩ := exec_next i s
    refine ⟨t, hexec, fun h => (nomatch h), ?_⟩
    rintro - ⟨ht, hcode⟩
    obtain rfl := exec_fault_of_legal hexec hf hw hl ht
    obtain ⟨c, u, hu, hown, -⟩ := ruleOf_fault (s := countWord s) hf ht
    rw [hu, raise_errcode, hown] at hcode
    exact ownFault_ne_badPhase i hcode

/-- Settles O48: a held word is dropped, a rejected one is IllegalCommand, and of a command the phase is tested
before its rule. -/
theorem faultPriority : Obligations.FaultPriority := by
  intro w s t h
  refine ⟨fun hf hw => ?_, ?_, fun hf i hi => ⟨fun hl => ?_, fun hl ht => ?_⟩⟩
  · obtain rfl : countWord s = t := by simpa [stepWord_held hf hw] using h
    exact unchangedBut_countWord s
  · rintro hf ⟨why, hwhy⟩
    obtain ⟨u, hu, ⟨hfault, hcode, -⟩, -⟩ := illegalWordsTakeIllegalCommand.1 w ⟨why, hwhy⟩ s hf
    obtain rfl : t = u := by simpa [h] using hu
    exact ⟨hfault, hcode⟩
  · rw [stepWord_of_decode hi, exec_badPhase hf (wellFormed_of_decode hi) hl] at h
    obtain rfl : raise .badPhase _ _ _ = t := by simpa using h
    exact ⟨rfl, rfl⟩
  · rw [stepWord_of_decode hi] at h
    obtain rfl := exec_fault_of_legal h hf (wellFormed_of_decode hi) hl ht
    obtain ⟨c, u, hu, hown, -⟩ := ruleOf_fault (s := countWord s) hf ht
    rw [hu, raise_errcode, ← hown]
    refine ⟨rfl, fun h0 => ?_⟩
    have := (causeCode_range c).1
    simp [h0] at this

/-! ## The effect of a faulting word (R187) -/

/-- R187: a word that takes a fault has been counted, and nothing else has been written but what a DEC_BIT or DEC_WORD
in phase DEC decoded. -/
theorem stepWord_fault {w : Word} {s t : State} (h : stepWord w s = .next t) (hf : s.fault = false)
    (ht : t.fault = true) :
    ∃ c u, t = raise c w s.cmdcnt u ∧ UnchangedBut bitElems (countWord s) u ∧
      ((s.phase = .dec ∧ ∃ i, decode w = .command i ∧ TakesBits i) ∨ u = countWord s) := by
  rcases stepWord_cases h with ⟨i, hi, hexec⟩ | ⟨hheld, -⟩ | ⟨-, rfl⟩
  · have hw := wellFormed_of_decode hi
    obtain rfl := encode_of_decode hi
    cases hl : legalIn i s.phase
    · rw [exec_badPhase hf hw hl] at hexec
      obtain rfl : raise .badPhase _ _ _ = t := by simpa using hexec
      exact ⟨_, _, rfl, unchangedBut_refl _ _, .inr rfl⟩
    · obtain rfl := exec_fault_of_legal hexec hf hw hl ht
      obtain ⟨c, u, hu, -, hframe, hbits⟩ := ruleOf_fault (s := countWord s) hf ht
      refine ⟨c, u, hu, hframe, hbits.imp_left fun hb => ⟨?_, i, hi, hb⟩⟩
      rcases hb with ⟨b, rfl⟩ | ⟨n, v, rfl⟩ <;> simpa [legalIn] using hl
  · simp [hf] at hheld
  · exact ⟨_, _, rfl, unchangedBut_refl _ _, .inr rfl⟩

/-- Settles O49: the words of the list are dropped, so that the record stands and the count grows by their number. -/
theorem droppedWordsAreCounted : Obligations.DroppedWordsAreCounted := by
  intro w s t h hf ht ws hws
  refine ⟨_, runWords_held ht hws, ?_, ?_, fun e he => ?_⟩
  · obtain ⟨c, u, rfl, -⟩ := stepWord_fault h hf ht
    exact ⟨rfl, rfl, rfl, rfl⟩
  · obtain ⟨hcnt, hidx⟩ := stepWord_counts h
    simp only [hcnt, hidx hf ht]
    bv_omega
  · cases e
    case cmdcnt => simp at he
    all_goals rfl

/-! ## The bits of a faulting DEC_BIT or DEC_WORD (R187; 44_decoder.md R152 to R155) -/

/-- R152, R153: a bit that faults has been counted and appended. -/
theorem decBits_singleton_fault {w idx : Word} {b : Bool} {s : State} (hf : s.fault = false)
    (ht : (decBits w idx [b] s).fault = true) : decBits w idx [b] s =
      raise .ambiguousCode w idx { s with done := s.done + 1#32, cbuf := codeSnoc s.cbuf b } := by
  rw [← bitState_decBit] at ht ⊢
  rcases decBit_cases w idx b s with ⟨-, h⟩ | ⟨-, -, ⟨-, h⟩ | ⟨_, -, h⟩ | ⟨-, h⟩⟩
  · simp [h, bitState, hf] at ht
  · simp [h, bitState, hf] at ht
  · simp [h, bitState, hf] at ht
  · rw [h, bitState]

/-- R152: what a bit does depends neither on the word and index it is decoded for, but for the record of a fault, nor
on CMDCNT. -/
theorem decBit_congr (w idx w' idx' : Word) (b : Bool) (s : State) (n : Word) :
    (∃ d c o, decBit w idx b s = .ok { s with done := d, cbuf := c, sout := o } ∧
      decBit w' idx' b { s with cmdcnt := n } = .ok { s with cmdcnt := n, done := d, cbuf := c, sout := o }) ∨
    ∃ d c, decBit w idx b s = .raised (raise .ambiguousCode w idx { s with done := d, cbuf := c }) ∧
      decBit w' idx' b { s with cmdcnt := n } =
        .raised (raise .ambiguousCode w' idx' { s with cmdcnt := n, done := d, cbuf := c }) := by
  have htempty (d n' : Word) : tempty { s with done := d, cmdcnt := n' } = tempty s := rfl
  have hmatch (q c : Code) (d n' : Word) :
      matchSyms { s with done := d, cmdcnt := n', cbuf := c } q = matchSyms s q := rfl
  simp only [decBit, decMatch, htempty, hmatch]
  cases tempty s
  · cases codeFull s.cbuf
    · match hm : matchSyms s (codeSnoc s.cbuf b) with
      | [] => exact .inl ⟨_, codeSnoc s.cbuf b, s.sout, rfl, rfl⟩
      | [a] => exact .inl ⟨_, _, _, rfl, rfl⟩
      | _ :: _ :: _ => exact .inr ⟨_, _, rfl, rfl⟩
    · exact .inl ⟨_, s.cbuf, s.sout, rfl, rfl⟩
  · exact .inl ⟨_, s.cbuf, s.sout, rfl, rfl⟩

/-- R154: in phase DEC the word of a DEC_BIT leads where the decoder's answer to its bit does. -/
theorem stepWord_encode_decBit {s : State} (h : Ready .dec s) {b : Bool} {a : BitAnswer}
    (ha : decBit (encode (.decBit b)) s.cmdcnt b (countWord s) = a) :
    stepWord (encode (.decBit b)) s = .next (bitState a) := by
  have hdecode : decode (encode (.decBit b)) = .command (.decBit b) := by
    cases b <;> rfl
  rw [stepWord_of_decode hdecode, exec_ready h (by simp) rfl rfl, ruleOf, ← bitState_decBit, ha]

/-- The words of the DEC_BITs of a list of bits. -/
def bitWords (bs : Bits) : List Word := bs.map fun b => encode (.decBit b)

/-- R155, R187: bits decoded for one word that fault leave in DONE, CBUF and SOUT what the DEC_BITs leave there of the
bits up to and with the first that faults. -/
theorem decBits_fault_eq_runWords {w idx : Word} {bs : Bits} {s : State} (hs : Ready .dec s) (n : Word)
    (ht : (decBits w idx bs s).fault = true) :
    ∃ k u₀ u, k < bs.length ∧ runWords (bitWords (bs.take k)) { s with cmdcnt := n } = .next u₀ ∧ u₀.fault = false ∧
      runWords (bitWords (bs.take (k + 1))) { s with cmdcnt := n } = .next u ∧ u.fault = true ∧
      (decBits w idx bs s).done = u.done ∧ (decBits w idx bs s).cbuf = u.cbuf ∧
      (decBits w idx bs s).sout = u.sout := by
  induction bs generalizing s n with
  | nil =>
    rw [decBits, hs.1] at ht
    cases ht
  | cons b bs ih =>
    rcases decBit_congr w idx (encode (.decBit b)) n b s (n + 1#32) with ⟨d, c, o, h, h'⟩ | ⟨d, c, h, h'⟩
    · simp only [decBits, h] at ht ⊢
      have hstep := stepWord_encode_decBit (s := { s with cmdcnt := n }) hs h'
      obtain ⟨k, u₀, u, hk, hrun₀, hf₀, hrun, hrest⟩ :=
        ih (s := { s with done := d, cbuf := c, sout := o }) hs (n + 1#32) ht
      exact ⟨k + 1, u₀, u, Nat.succ_lt_succ hk, (runWords_cons hstep _).trans hrun₀, hf₀,
        (runWords_cons hstep _).trans hrun, hrest⟩
    · simp only [decBits, h] at ht ⊢
      have hstep := stepWord_encode_decBit (s := { s with cmdcnt := n }) hs h'
      exact ⟨0, _, _, Nat.succ_pos _, rfl, hs.1, runWords_cons hstep [], rfl, rfl, rfl, rfl⟩

/-- Settles O47: the fault entry of `stepWord_fault`, and in phase DEC the bits decoded before it. -/
theorem faultsArePrecise : Obligations.FaultsArePrecise := by
  intro w s t h hf ht
  obtain ⟨c, u, hraise, hframe, hbits⟩ := stepWord_fault h hf ht
  have hcnt := (stepWord_counts h).1
  have hother (hu : u = countWord s) : FaultsOnly t.errcode w s t := by
    subst hu hraise
    exact faultsOnly_raise c w s
  have hrule {i : Instr} (hi : decode w = .command i) (hl : legalIn i s.phase = true) :
      t = ruleOf i w s.cmdcnt (countWord s) := by
    have hw := wellFormed_of_decode hi
    obtain rfl := encode_of_decode hi
    exact exec_fault_of_legal (stepWord_of_decode hi s ▸ h) hf hw hl ht
  refine ⟨hraise ▸ ⟨rfl, rfl, rfl, rfl⟩, hraise ▸ rfl, hcnt, fun hbit hword => ?_, fun hp => ?_, fun b hi hp => ?_,
    fun n v hi hp => ?_, ?_⟩
  · rcases hbits with ⟨-, i, hi, ⟨b, rfl⟩ | ⟨n, v, rfl⟩⟩ | hu
    · exact absurd hi (hbit b)
    · exact absurd hi (hword n v)
    · exact hother hu
  · exact hother (hbits.resolve_left fun hb => hp hb.1)
  · have hr := hrule hi (by simp [legalIn, hp])
    rw [hr] at ht
    rw [hr, ruleOf, decBits_singleton_fault (s := countWord s) hf ht]
    exact ⟨rfl, rfl, by simp [hp]⟩
  · have hr := hrule hi (by simp [legalIn, hp])
    rw [hr] at ht ⊢
    rw [← wordBits_length n v]
    exact decBits_fault_eq_runWords (s := countWord s) ⟨hf, hp⟩ s.cmdcnt ht
  · rw [hraise]
    refine unchangedBut_mono ?_ (unchangedBut_trans (unchangedBut_trans (unchangedBut_countWord s) hframe)
      (unchangedBut_raise c w s.cmdcnt u))
    simp [bitElems, faultElems]

end Sys2Proof.Proofs

/-! SUPPORT. What the host reads at reset (20_memory.md R66; 70_reset_and_hazards.md R211). -/

namespace Sys2Proof.Proofs

open Sys2Proof.Machine Sys2Proof.Safety

theorem tempty_reset : tempty State.reset = true := (tempty_iff _).mpr fun a => by rw [codeAt_reset]; rfl

theorem fempty_reset : fempty State.reset = true := (fempty_iff _).mpr freqAt_reset

theorem bitsWord_zero (w : Nat) : bitsWord 0#255 w = 0#32 := BitVec.extractLsb'_zero

theorem nodeWord_empty (k : Nat) : nodeWord Node.empty k = 0#32 := by
  unfold nodeWord
  split <;> rfl

/-- Past ID, PARAM and STATUS every status register reads an element that is 0 at reset, or nothing (R40, R43). -/
theorem statusReg_reset {n : Nat} (h : 3 ≤ n) : statusReg State.reset n = 0#32 := by
  unfold statusReg
  split
  case h_1 | h_2 | h_3 => omega
  case h_13 =>
    split
    · exact bitsWord_zero _
    · rfl
  all_goals rfl

/-- The map range by range: each table's entry is empty at reset, and an empty entry's words are 0 (R43, R66). -/
theorem memRead_reset {a : RbAddr} (h : 3 ≤ a.toNat) : memRead State.reset a = 0#32 := by
  by_cases h₁ : a.toNat < 0x0100
  · rw [memRead_status _ h₁, statusReg_reset h]
  by_cases h₂ : a.toNat < 0x0200
  · rw [memRead_freqRange _ (Nat.not_lt.mp h₁) h₂, freqAt_reset]
  by_cases h₃ : a.toNat < 0x0300
  · rw [memRead_codeLenRange _ (Nat.not_lt.mp h₂) h₃, codeAt_reset]
    rfl
  by_cases h₄ : a.toNat < 0x0800
  · exact memRead_reserved _ (.inl ⟨Nat.not_lt.mp h₃, h₄⟩)
  by_cases h₅ : a.toNat < 0x1000
  · rw [memRead_codeWordRange _ (Nat.not_lt.mp h₄) h₅, codeAt_reset]
    exact bitsWord_zero _
  by_cases h₆ : a.toNat < 0x17FC
  · rw [memRead_nodeRange _ (Nat.not_lt.mp h₅) h₆, nodeAt_reset, nodeWord_empty]
  · exact memRead_reserved _ (.inr (Nat.not_lt.mp h₆))

/-- Settles O2: ID and PARAM are constants, STATUS is `reset_status`, and every address past them is `memRead_reset`. -/
theorem resetReadback : Obligations.ResetReadback := by
  refine ⟨rfl, rfl, rfl, tempty_reset, fempty_reset, rfl, rfl, rfl, reset_status, fun a h₀ h₁ h₂ => memRead_reset ?_⟩
  simp only [ne_eq, ← BitVec.toNat_inj, BitVec.toNat_ofNat] at h₀ h₁ h₂
  omega

end Sys2Proof.Proofs

/-! SUPPORT. The decoder and the encoder are inverse to each other, and the decoder is the table of R83
(30_encoding.md R81 to R89). -/

namespace Sys2Proof.Proofs

open Sys2Proof.Machine Sys2Proof.Safety

/-! ## The rows of the table (R83) -/

/-- No word meets two rows whose matches differ where both masks look (R83). -/
theorem rows_disjoint : rows.Pairwise fun r q => ∀ w : Word, w &&& r.mask = r.pat → w &&& q.mask ≠ q.pat := by
  have hpats : rows.Pairwise fun r q => r.pat &&& q.mask ≠ q.pat &&& r.mask := by decide
  refine hpats.imp fun {r q} hne w hr hq => hne ?_
  rw [← hr, ← hq, BitVec.and_assoc, BitVec.and_assoc, BitVec.and_comm q.mask]

/-- Two rows that one word meets are one row. -/
theorem row_unique {r q : Row} (hr : r ∈ rows) (hq : q ∈ rows) {w : Word} (hrw : w &&& r.mask = r.pat)
    (hqw : w &&& q.mask = q.pat) : r = q := by
  by_contra hne
  have hsymm : Std.Symm fun r q : Row => ∀ w : Word, w &&& r.mask = r.pat → w &&& q.mask ≠ q.pat :=
    ⟨fun _ _ h w h1 h2 => h w h2 h1⟩
  exact rows_disjoint.forall hr hq hne w hrw hqw

/-- R83: the test of a row on a word, DEC_WORD's extra condition written out. -/
theorem spells_iff {r : Row} (hr : r ∈ rows) (w : Word) :
    spells r w = true ↔ w &&& r.mask = r.pat ∧ (r.pat = 0x52000000#32 → (symField w).toNat ≤ 16) := by
  rw [spells, Bool.and_eq_true, beq_iff_eq, and_congr_right_iff]
  intro _
  simp only [rows, List.cons_append, List.nil_append, List.mem_cons, List.not_mem_nil, or_false] at hr
  rcases hr with rfl | rfl | rfl | rfl | rfl | rfl | rfl | rfl | rfl | rfl | rfl | rfl | rfl | rfl | rfl | rfl |
    rfl | rfl <;> simp [rowCommand, Instr.wellFormed]

/-- R83: the row a word spells gives its command. -/
theorem decode_of_spells {r : Row} (hr : r ∈ rows) {w : Word} (h : spells r w = true) :
    decode w = .command (rowCommand r w) := by
  unfold decode
  split
  · rename_i q hq
    have hqs : spells q w = true := List.find?_some (p := fun r => spells r w) hq
    have hqw := (spells_iff (List.mem_of_find?_eq_some hq) w).mp hqs
    rw [row_unique hr (List.mem_of_find?_eq_some hq) ((spells_iff hr w).mp h).1 hqw.1]
  · rename_i hnone
    exact absurd h (List.find?_eq_none.mp hnone r hr)

/-- R83: a word that spells a command spells it by a row. -/
theorem exists_row_of_decode {w : Word} {i : Instr} (h : decode w = .command i) :
    ∃ r ∈ rows, spells r w = true := by
  unfold decode at h
  split at h
  · rename_i r hr
    exact ⟨r, List.mem_of_find?_eq_some hr, List.find?_some (p := fun r => spells r w) hr⟩
  · cases h

/-! ## Decode and encode (R81, R83) -/

/-- The word of a well-formed command spells it: it matches the command's own row. -/
theorem decode_encode {i : Instr} (hw : i.wellFormed = true) : decode (encode i) = .command i := by
  have hrow : Laws.RowOf.Statement i := by
    cases i
    case nop => exact Laws.RowOf.nop
    case clrerr => exact Laws.RowOf.clrerr
    case clrall => exact Laws.RowOf.clrall
    case clrfreq => exact Laws.RowOf.clrfreq
    case clrcode => exact Laws.RowOf.clrcode
    case fsym s => exact Laws.RowOf.fsym s
    case ldfreql s v => exact Laws.RowOf.ldfreql s v
    case ldfreqh s v => exact Laws.RowOf.ldfreqh s v
    case build => exact Laws.RowOf.build
    case clrc s => exact Laws.RowOf.clrc s
    case ldcbit s b => exact Laws.RowOf.ldcbit s b
    case encBegin => exact Laws.RowOf.encBegin
    case encSym s => exact Laws.RowOf.encSym s
    case encEnd => exact Laws.RowOf.encEnd
    case decBegin => exact Laws.RowOf.decBegin
    case decBit b => exact Laws.RowOf.decBit b
    case decWord n v => exact Laws.RowOf.decWord n v
    case decEnd => exact Laws.RowOf.decEnd
  obtain ⟨r, hr, hmatch, hmake⟩ := hrow hw
  have hspells : spells r (encode i) = true := by
    rw [spells, hmatch, hmake, hw, Bool.and_true, beq_self_eq_true]
  rw [decode_of_spells hr hspells, hmake]

/-- Settles O6: the command's row is the only one its word meets, and it makes the command of the word's fields. -/
theorem decodeEncodeAgree : Obligations.DecodeEncodeAgree := fun _ hw => decode_encode hw

/-- Settles O7: a row fixes every field its command does not take, and spells well-formed commands only. -/
theorem decodedCommandHasItsWord : Obligations.DecodedCommandHasItsWord :=
  fun _ _ h => ⟨wellFormed_of_decode h, encode_of_decode h⟩

/-- Settles O8: the decoder takes the one row that a word meets. -/
theorem maskAndMatchTable : Obligations.MaskAndMatchTable := by
  refine ⟨rfl, rows_disjoint, fun r hr w h => decode_of_spells hr ((spells_iff hr w).mpr h), fun w hnone => ?_⟩
  refine ⟨whyIllegal w, decode_eq_illegal fun i hi => ?_⟩
  obtain ⟨r, hr, hspells⟩ := exists_row_of_decode hi
  exact hnone r hr ((spells_iff hr w).mp hspells)

/-- Settles O5: each word is the encoding of its command. -/
theorem specWordsDecode : Obligations.SpecWordsDecode :=
  ⟨decode_encode (i := .fsym 0x61#8) rfl, decode_encode (i := .ldfreql 0x41#8 3#16) rfl,
    decode_encode (i := .ldcbit 0x62#8 true) rfl, decode_encode (i := .decBit true) rfl,
    decode_encode (i := .decWord 11#8 0x0785#16) rfl, decode_encode (i := .build) rfl,
    decode_encode (i := .encSym 0x61#8) rfl, decode_encode (i := .clrerr) rfl⟩

/-- Settles O3: `step` takes the first word of the port, and that word runs its command. -/
theorem stepRunsDecodedCommand : Obligations.StepRunsDecodedCommand := by
  intro s w rest i hport hi
  rw [(stepWithoutWordKeepsState s).2 w rest hport, stepWord_of_decode hi]

end Sys2Proof.Proofs

/-! SUPPORT. The commands of the frequency table, the code table, the encoder and the decoder (40_frequency.md R101
to R103, 42_code_table.md R130, R131, 43_encoder.md R140 to R142, 44_decoder.md R150 to R156). -/

namespace Sys2Proof.Proofs

open Sys2Proof.Machine Sys2Proof.Safety

/-! ## The words of an opcode (30_encoding.md R81) -/

/-- A command's word as a number, field by field. -/
theorem encode_eq_ofNat (i : Instr) : encode i =
    BitVec.ofNat 32 ((opcode i).toNat * 2 ^ 24 + (symOperand i).toNat * 2 ^ 16 + (immOperand i).toNat) := by
  rw [encode, ← mkWord_toNat, BitVec.ofNat_toNat, BitVec.setWidth_eq]

/-- A word whose operands no command of its opcode has is illegal. -/
theorem illegalWord_of_operands {w : Word}
    (h : ∀ i, opcode i = opField w → symOperand i = symField w → immOperand i = immField w →
      i.wellFormed = false) : IllegalWord w := by
  refine illegalWord_of_decode fun i hi => ?_
  have hwf := wellFormed_of_decode hi
  obtain rfl := encode_of_decode hi
  simp [h i (opField_encode i).symm (symField_encode i).symm (immField_encode i).symm] at hwf

/-- R81: FSYM, CLRC and ENC_SYM take a symbol and no `imm`. -/
theorem immOperand_of_symbolOp {i : Instr} (h : opcode i ∈ [0x10#8, 0x30#8, 0x41#8]) : immOperand i = 0#16 := by
  cases i
  case ldfreql | ldfreqh | ldcbit | decBit | decWord => exact absurd h (by simp [opcode])
  all_goals rfl

theorem illegalWord_of_symbolOp {w : Word} (hop : opField w ∈ [0x10#8, 0x30#8, 0x41#8]) (himm : immField w ≠ 0#16) :
    IllegalWord w :=
  illegalWord_of_operands fun _ h _ h' => absurd (h' ▸ immOperand_of_symbolOp (h ▸ hop)) himm

/-- R81: LDCBIT and DEC_BIT take `imm[0]`, and DEC_BIT no symbol. -/
theorem operands_of_bitOp {i : Instr} (h : opcode i ∈ [0x31#8, 0x51#8]) :
    (immOperand i).toNat / 2 = 0 ∧ (opcode i = 0x51#8 → symOperand i = 0#8) := by
  cases i
  case ldcbit a b => exact ⟨by cases b <;> simp [immOperand, bitImm], fun h => absurd h (by simp [opcode])⟩
  case decBit b => exact ⟨by cases b <;> simp [immOperand, bitImm], fun _ => rfl⟩
  all_goals exact absurd h (by simp [opcode])

theorem illegalWord_of_bitOp {w : Word} (hop : opField w ∈ [0x31#8, 0x51#8])
    (h : (immField w).toNat / 2 ≠ 0 ∨ (opField w = 0x51#8 ∧ symField w ≠ 0#8)) : IllegalWord w := by
  refine illegalWord_of_operands fun i h₁ h₂ h₃ => ?_
  obtain ⟨himm, hsym⟩ := operands_of_bitOp (h₁ ▸ hop)
  rw [h₃] at himm
  rw [h₁, h₂] at hsym
  exact absurd h (by tauto)

/-- A word with the fields of a well-formed command spells it. -/
theorem decode_of_fields {w : Word} {i : Instr} (hw : i.wellFormed = true) (hop : opcode i = opField w)
    (hsym : symOperand i = symField w) (himm : immOperand i = immField w) : decode w = .command i := by
  rw [← mkWord_fields w, ← hop, ← hsym, ← himm]
  exact decode_encode hw

/-! ## FSYM, LDFREQL and LDFREQH (40_frequency.md R101 to R103) -/

theorem fempty_eq_false {s : State} {a : Sym} (h : freqAt s a ≠ 0#32) : fempty s = false := by
  rw [← Bool.not_eq_true, fempty_iff]
  exact fun hall => h (hall a)

/-- R104: below the top a count has room for one more. -/
theorem succ_toNat {v : Freq} (h : v ≠ 0xFFFFFFFF#32) : (v + 1#32).toNat = v.toNat + 1 := by
  bv_omega

/-- R102: what LDFREQL loads. -/
theorem lowCount_toNat (v : Imm) : (lowCount v).toNat = v.toNat := BitVec.toNat_setWidth_of_le (by decide)

/-- R103: what LDFREQH loads above what it keeps. -/
theorem highCount_toNat (v : Imm) (old : Freq) : (highCount v old).toNat = v.toNat * 65536 + old.toNat % 65536 := by
  have hlow : old.toNat % 65536 < 2 ^ 16 := Nat.mod_lt _ (by decide)
  rw [highCount, BitVec.toNat_append, BitVec.toNat_setWidth, ← Nat.shiftLeft_add_eq_or_of_lt hlow, Nat.shiftLeft_eq]

/-- Settles O18: the rule tests the count for the top before it adds. -/
theorem fsymCountsOrOverflows : Obligations.FsymCountsOrOverflows := by
  intro a
  refine ⟨by simp [encode_eq_ofNat, opcode, symOperand, immOperand],
    fun w hop => illegalWord_of_symbolOp (by simp [hop]),
    badPhaseBut_of_legalIn (by simp) rfl fun q => by simp [legalIn], fun s hs htop => ?_, fun s hs htop => ?_⟩
  all_goals have hexec := exec_ready hs (i := .fsym a) (by simp) rfl rfl
  · have hrule (w idx : Word) : ruleOf (.fsym a) w idx (countWord s) =
        setFreq a (freqAt s a + 1#32) (countWord s) := if_neg htop
    rw [hrule] at hexec
    have hself : freqAt (setFreq a (freqAt s a + 1#32) (countWord s)) a = freqAt s a + 1#32 :=
      freqAt_setFreq_self _ _ _
    refine ⟨_, hexec, by rw [hself, succ_toNat htop], fun b hb => freqAt_setFreq_ne hb _ _,
      fempty_eq_false (a := a) ?_, rfl, exec_frame hexec (.inl rfl) (by simp [writesOf])⟩
    rw [hself]
    bv_omega
  · have hrule (w idx : Word) : ruleOf (.fsym a) w idx (countWord s) = raise .freqOverflow w idx (countWord s) :=
      if_pos htop
    exact ⟨_, hexec, hrule _ _ ▸ faultsOnly_raise .freqOverflow _ s⟩

/-- Settles O19: the rule writes the zero-extended operand. -/
theorem ldfreqlLoadsLowHalf : Obligations.LdfreqlLoadsLowHalf := by
  intro a v
  refine ⟨by simp [encode_eq_ofNat, opcode, symOperand, immOperand],
    fun w hop => decode_of_fields rfl hop.symm rfl rfl,
    badPhaseBut_of_legalIn (by simp) rfl fun q => by simp [legalIn], fun s hs => ?_⟩
  have hexec := exec_ready hs (i := .ldfreql a v) (by simp) rfl rfl
  refine ⟨_, hexec, ?_, fun b hb => freqAt_setFreq_ne hb _ _, fempty_iff _, rfl,
    exec_frame hexec (.inl rfl) (by simp [writesOf])⟩
  rw [ruleOf, freqAt_setFreq_self, lowCount_toNat]

/-- Settles O20: the rule writes the operand above the low half of the old count. -/
theorem ldfreqhLoadsHighHalf : Obligations.LdfreqhLoadsHighHalf := by
  intro a v
  refine ⟨by simp [encode_eq_ofNat, opcode, symOperand, immOperand],
    fun w hop => decode_of_fields rfl hop.symm rfl rfl,
    badPhaseBut_of_legalIn (by simp) rfl fun q => by simp [legalIn], fun s hs => ?_⟩
  have hexec := exec_ready hs (i := .ldfreqh a v) (by simp) rfl rfl
  refine ⟨_, hexec, ?_, fun b hb => freqAt_setFreq_ne hb _ _, fempty_iff _, rfl,
    exec_frame hexec (.inl rfl) (by simp [writesOf])⟩
  rw [ruleOf, freqAt_setFreq_self, highCount_toNat]
  rfl

/-! ## CLRC and LDCBIT (42_code_table.md R130, R131) -/

theorem hasCode_eq_false_iff (s : State) (a : Sym) : hasCode s a = false ↔ (codeAt s a).len = 0#8 := by
  simp [hasCode, codeNone]

theorem tempty_eq_false {s : State} {a : Sym} (h : (codeAt s a).len ≠ 0#8) : tempty s = false := by
  rw [← Bool.not_eq_true, tempty_iff]
  exact fun hall => h (hall a)

/-- R36: TEMPTY after one code is removed. -/
theorem tempty_setCode_empty (a : Sym) (s : State) :
    tempty (setCode a Code.empty s) = true ↔ ∀ b : Sym, b ≠ a → hasCode s b = false := by
  simp only [tempty_iff, hasCode_eq_false_iff]
  refine ⟨fun h b hb => codeAt_setCode_ne hb Code.empty s ▸ h b, fun h b => ?_⟩
  by_cases hb : b = a
  · rw [hb, codeAt_setCode_self]
    rfl
  · rw [codeAt_setCode_ne hb]
    exact h b hb

/-- Writing back what an entry holds changes nothing. -/
theorem setCode_codeAt (a : Sym) (s : State) : setCode a (codeAt s a) s = s := by
  simp [setCode, codeAt]

/-- Settles O21: the rule writes the empty code to one entry. -/
theorem clrcRemovesOneCode : Obligations.ClrcRemovesOneCode := by
  intro a
  refine ⟨by simp [encode_eq_ofNat, opcode, symOperand, immOperand],
    fun w hop => illegalWord_of_symbolOp (by simp [hop]),
    badPhaseBut_of_legalIn (by simp) rfl fun q => by simp [legalIn], fun s hs => ?_⟩
  have hexec := exec_ready hs (i := .clrc a) (by simp) rfl rfl
  refine ⟨_, hexec, codeAt_setCode_self _ _ _, fun b hb => codeAt_setCode_ne hb _ _,
    tempty_setCode_empty a (countWord s), rfl, exec_frame hexec (.inl rfl) (by simp [writesOf]), fun hempty => ?_⟩
  have hkept : setCode a Code.empty (countWord s) = countWord s := hempty ▸ setCode_codeAt a (countWord s)
  rw [ruleOf, hkept]
  exact unchangedBut_countWord s

/-- Settles O22: the rule tests the code for 255 bits before it appends. -/
theorem ldcbitAppendsOrOverflows : Obligations.LdcbitAppendsOrOverflows := by
  intro a b
  refine ⟨by cases b <;> simp [encode_eq_ofNat, opcode, symOperand, immOperand, bitImm],
    fun w hop himm => illegalWord_of_bitOp (by simp [hop]) (.inl himm),
    badPhaseBut_of_legalIn (by simp) rfl fun q => by simp [legalIn], fun s hs hroom => ?_, fun s hs hfull => ?_⟩
  all_goals have hexec := exec_ready hs (i := .ldcbit a b) (by simp) rfl rfl
  · have hrule (w idx : Word) : ruleOf (.ldcbit a b) w idx (countWord s) =
        setCode a (codeSnoc (codeAt s a) b) (countWord s) := if_neg (mt (codeFull_iff _).mp hroom)
    rw [hrule] at hexec
    have hself : codeAt (setCode a (codeSnoc (codeAt s a) b) (countWord s)) a = codeSnoc (codeAt s a) b :=
      codeAt_setCode_self _ _ _
    have hlen := codeSnoc_len_toNat (codeAt s a) b hroom
    refine ⟨_, hexec, ?_, by rw [hself, hlen], fun k hk => ?_, fun c hc => codeAt_setCode_ne hc _ _,
      tempty_eq_false (a := a) fun hzero => ?_, rfl, exec_frame hexec (.inl rfl) (by simp [writesOf])⟩
    · rw [codeOf, hself, codeBits_codeSnoc _ _ hroom, codeOf]
    · rw [hself, codeSnoc_getLsbD _ _ hroom, if_neg hk]
    · rw [← hself, hzero] at hlen
      exact absurd hlen (Nat.succ_ne_zero _).symm
  · have hrule (w idx : Word) : ruleOf (.ldcbit a b) w idx (countWord s) = raise .codeOverflow w idx (countWord s) :=
      if_pos ((codeFull_iff _).mpr hfull)
    exact ⟨_, hexec, hrule _ _ ▸ faultsOnly_raise .codeOverflow _ s⟩

/-! ## ENC_BEGIN, ENC_SYM and ENC_END (43_encoder.md R140 to R142) -/

/-- Settles O23: the rule opens the frame and checks no table. -/
theorem encBeginOpensFrame : Obligations.EncBeginOpensFrame := by
  refine ⟨rfl, onlyWordOfOp (by decide),
    badPhaseBut_of_legalIn (by simp) rfl fun q => by simp [legalIn], fun s hs => ?_⟩
  have hexec := exec_ready hs (i := .encBegin) (by simp) rfl rfl
  exact ⟨_, hexec, rfl, rfl, rfl, statusWord_phase _, exec_frame hexec (.inl rfl) (by simp [writesOf])⟩

/-- R141: with a code ENC_SYM pushes its bits and counts the symbol. -/
theorem exec_encSym_code {s : State} (hs : Ready .enc s) {a : Sym} (ha : (codeAt s a).len ≠ 0#8) :
    exec (.encSym a) s =
      .next { countWord s with bout := s.bout ++ bitToks (codeOf s a), done := s.done + 1#32 } := by
  rw [exec_ready hs (by simp) rfl rfl]
  exact congrArg Host.Outcome.next (if_neg (mt (codeNone_iff _).mp ha))

/-- R141: without a code it takes UnknownSymbol. -/
theorem exec_encSym_noCode {s : State} (hs : Ready .enc s) {a : Sym} (ha : (codeAt s a).len = 0#8) :
    exec (.encSym a) s = .next (raise .unknownSymbol (encode (.encSym a)) s.cmdcnt (countWord s)) := by
  rw [exec_ready hs (by simp) rfl rfl]
  exact congrArg Host.Outcome.next (if_pos ((codeNone_iff _).mpr ha))

/-- Settles O24: the rule tests the code's length before it pushes. -/
theorem encSymPushesCode : Obligations.EncSymPushesCode := by
  intro a
  refine ⟨by simp [encode_eq_ofNat, opcode, symOperand, immOperand],
    fun w hop => illegalWord_of_symbolOp (by simp [hop]),
    badPhaseBut_of_legalIn (by simp) rfl fun q => by simp [legalIn], fun s hs hcode => ?_, fun s hs hnone => ?_⟩
  · have hexec := exec_encSym_code hs hcode
    exact ⟨_, hexec, rfl, codeBits_length _, fun k hk => codeBits_getElem? _ k hk, rfl, rfl,
      exec_frame hexec (.inl rfl) (by simp [writesOf])⟩
  · exact ⟨_, exec_encSym_noCode hs hnone, faultsOnly_raise .unknownSymbol _ s⟩

/-- Settles O25: the rule pushes EOF and closes the phase. -/
theorem encEndClosesFrame : Obligations.EncEndClosesFrame := by
  refine ⟨rfl, onlyWordOfOp (by decide),
    badPhaseBut_of_legalIn (by simp) rfl fun q => by simp [legalIn], fun s hs => ?_⟩
  have hexec := exec_ready hs (i := .encEnd) (by simp) rfl rfl
  exact ⟨_, hexec, rfl, rfl, rfl, statusWord_phase _, exec_frame hexec (.inl rfl) (by simp [writesOf])⟩

/-! ## DEC_BEGIN and DEC_END (44_decoder.md R150, R156) -/

/-- Settles O26: the rule opens the frame with an empty buffer and checks no table. -/
theorem decBeginOpensFrame : Obligations.DecBeginOpensFrame := by
  refine ⟨rfl, onlyWordOfOp (by decide),
    badPhaseBut_of_legalIn (by simp) rfl fun q => by simp [legalIn], fun s hs => ?_⟩
  have hexec := exec_ready hs (i := .decBegin) (by simp) rfl rfl
  exact ⟨_, hexec, rfl, rfl, rfl, rfl, statusWord_phase _, exec_frame hexec (.inl rfl) (by simp [writesOf])⟩

/-- R156: on an empty buffer DEC_END closes the frame. -/
theorem exec_decEnd_empty {s : State} (hs : Ready .dec s) (h : s.cbuf.len = 0#8) :
    exec .decEnd s = .next { pushS .eof (countWord s) with phase := .idle } := by
  rw [exec_ready hs (by simp) rfl rfl]
  exact congrArg Host.Outcome.next (if_pos ((codeNone_iff _).mpr h))

/-- R156: with unmatched bits it takes TruncatedCode. -/
theorem exec_decEnd_truncated {s : State} (hs : Ready .dec s) (h : s.cbuf.len ≠ 0#8) :
    exec .decEnd s = .next (raise .truncatedCode (encode .decEnd) s.cmdcnt (countWord s)) := by
  rw [exec_ready hs (by simp) rfl rfl]
  exact congrArg Host.Outcome.next (if_neg (mt (codeNone_iff _).mp h))

/-- Settles O29: the rule tests the buffer before it closes the frame. -/
theorem decEndClosesOrTruncates : Obligations.DecEndClosesOrTruncates := by
  refine ⟨rfl, onlyWordOfOp (by decide),
    badPhaseBut_of_legalIn (by simp) rfl fun q => by simp [legalIn], fun s hs hempty => ?_, fun s hs hbits => ?_⟩
  · have hexec := exec_decEnd_empty hs hempty
    exact ⟨_, hexec, rfl, rfl, rfl, exec_frame hexec (.inl rfl) (by simp [writesOf])⟩
  · exact ⟨_, exec_decEnd_truncated hs hbits, faultsOnly_raise .truncatedCode _ s⟩

end Sys2Proof.Proofs

/-! SUPPORT. What a run of words does, and the runs of FSYM (40_frequency.md R100) and of an encode frame
(43_encoder.md R145). -/

namespace Sys2Proof.Proofs

open Sys2Proof.Machine Sys2Proof.Safety

/-! ## Runs (00_scope.md R12) -/

theorem runWords_append {ws : List Word} {s t : State} (h : runWords ws s = .next t) (ws' : List Word) :
    runWords (ws ++ ws') s = runWords ws' t := by
  induction ws generalizing s with
  | nil =>
    obtain rfl : s = t := by simpa [runWords] using h
    rfl
  | cons w ws ih =>
    obtain ⟨u, hu⟩ := stepWord_next w s
    rw [runWords_cons hu] at h
    rw [List.cons_append, runWords_cons hu, ih h]

theorem stepWord_encode {i : Instr} (hw : i.wellFormed = true) (s : State) : stepWord (encode i) s = exec i s :=
  stepWord_of_decode (decode_encode hw) s

/-- A run of commands starts with the first one. -/
theorem runWords_encode_cons {i : Instr} {s t : State} (hw : i.wellFormed = true) (h : exec i s = .next t)
    (is : List Instr) : runWords ((i :: is).map encode) s = runWords (is.map encode) t :=
  runWords_cons ((stepWord_encode hw s).trans h) _

theorem runWords_encode_append {is : List Instr} {s t : State} (h : runWords (is.map encode) s = .next t)
    (is' : List Instr) : runWords ((is ++ is').map encode) s = runWords (is'.map encode) t := by
  rw [List.map_append, runWords_append h]

theorem runWords_encode_singleton {i : Instr} {s t : State} (hw : i.wellFormed = true) (h : exec i s = .next t) :
    runWords ([i].map encode) s = .next t := runWords_encode_cons hw h []

/-- A word count of one more (R34). -/
theorem add_ofNat_succ (x : Word) (n : Nat) : x + 1#32 + BitVec.ofNat 32 n = x + BitVec.ofNat 32 (n + 1) := by
  rw [BitVec.add_assoc, Nat.add_comm n 1, BitVec.ofNat_add]

/-! ## Counting (40_frequency.md R100) -/

/-- One FSYM below the top counts its symbol and nothing else (R101). -/
theorem exec_fsym {s : State} (hs : Ready .idle s) {a : Sym} (h : (freqAt s a).toNat + 1 < 2 ^ 32) :
    ∃ t, exec (.fsym a) s = .next t ∧ Ready .idle t ∧ UnchangedBut [.freq, .cmdcnt] s t ∧
      ∀ b, (freqAt t b).toNat = (freqAt s b).toNat + [a].count b := by
  have htop : freqAt s a ≠ 0xFFFFFFFF#32 := fun e => by simp [e] at h
  obtain ⟨-, -, -, hadd, -⟩ := fsymCountsOrOverflows a
  obtain ⟨t, ht, hself, hother, -, -, hframe⟩ := hadd s hs htop
  have hfault : t.fault = s.fault := hframe .fault (by simp)
  have hphase : t.phase = s.phase := hframe .phase (by simp)
  refine ⟨t, ht, ⟨hfault.trans hs.1, hphase.trans hs.2⟩, hframe, fun b => ?_⟩
  by_cases hb : b = a
  · simp [hb, hself]
  · simp [hother b hb, Ne.symm hb]

/-- FSYMs add to each count the symbol's occurrences, while these fit. -/
theorem runWords_pseudoCount {ts : List Sym} {s : State} (hs : Ready .idle s)
    (h : ∀ a, (freqAt s a).toNat + ts.count a < 2 ^ 32) :
    ∃ t, runWords ((pseudoCount ts).map encode) s = .next t ∧ Ready .idle t ∧ UnchangedBut [.freq, .cmdcnt] s t ∧
      ∀ a, (freqAt t a).toNat = (freqAt s a).toNat + ts.count a := by
  induction ts generalizing s with
  | nil => exact ⟨s, rfl, hs, unchangedBut_refl _ s, by simp⟩
  | cons x ts ih =>
    have hsplit (a : Sym) : (x :: ts).count a = [x].count a + ts.count a := by
      rw [← List.count_append, List.singleton_append]
    have hx : (freqAt s x).toNat + 1 < 2 ^ 32 := by
      have := h x
      simp only [List.count_cons_self] at this
      omega
    obtain ⟨u, hu, hready, hframe, hfreq⟩ := exec_fsym hs hx
    obtain ⟨t, ht, hready', hframe', hfreq'⟩ := ih hready fun a => by
      have := h a
      rw [hsplit] at this
      rw [hfreq]
      omega
    refine ⟨t, (runWords_encode_cons rfl hu _).trans ht, hready',
      unchangedBut_mono (by simp) (unchangedBut_trans hframe hframe'), fun a => ?_⟩
    rw [hfreq', hfreq, hsplit, Nat.add_assoc]

/-- Settles O54: CLRFREQ sets every count to 0, and each FSYM adds its occurrence. -/
theorem countingGivesTheFrequencies : Obligations.CountingGivesTheFrequencies := by
  intro s ts hs hcount
  have hexec := exec_ready hs (i := .clrfreq) (by simp) rfl rfl
  have hzero (a : Sym) : freqAt (clearFreq (countWord s)) a = 0#32 := freqAt_clearFreq _ a
  obtain ⟨t, ht, hready, -, hfreq⟩ := runWords_pseudoCount (s := clearFreq (countWord s)) (ts := ts) hs fun a => by
    simpa [hzero] using hcount a
  refine ⟨t, (runWords_encode_cons rfl hexec _).trans ht, hready, fun a => ?_⟩
  simpa [hzero] using hfreq a

/-! ## An encode frame (43_encoder.md R145) -/

/-- ENC_BEGIN opens the frame (R140). -/
theorem exec_encBegin {s : State} (hs : Ready .idle s) :
    exec .encBegin s = .next { countWord s with phase := .enc, done := 0#32 } :=
  exec_ready hs (by simp) rfl rfl

/-- ENC_END closes it (R142). -/
theorem exec_encEnd {s : State} (hs : Ready .enc s) :
    exec .encEnd s = .next { countWord s with bout := s.bout ++ [.eof], phase := .idle } :=
  exec_ready hs (by simp) rfl rfl

/-- The ENC_SYMs of symbols that have codes push these codes in order. -/
theorem runWords_encSyms {ts : List Sym} {s : State} (hs : Ready .enc s) (h : ∀ a ∈ ts, hasCode s a = true) :
    runWords ((ts.map Instr.encSym).map encode) s = .next { s with
      cmdcnt := s.cmdcnt + BitVec.ofNat 32 ts.length
      bout := s.bout ++ bitToks (codesOf s ts)
      done := s.done + BitVec.ofNat 32 ts.length } := by
  induction ts generalizing s with
  | nil => simp [runWords, codesOf, bitToks]
  | cons a ts ih =>
    obtain ⟨ha, hts⟩ := List.forall_mem_cons.mp h
    have hexec := exec_encSym_code hs ((hasCode_iff s a).mp ha)
    rw [List.map_cons, runWords_encode_cons rfl hexec, ih (by exact hs) (by exact hts)]
    have hcodes : codesOf s (a :: ts) = codeOf s a ++ codesOf s ts := rfl
    simp only [countWord, add_ofNat_succ, List.length_cons, hcodes, bitToks, List.map_append, List.append_assoc]
    rfl

/-- ENC_BEGIN and the ENC_SYMs of symbols that have codes. -/
theorem runWords_encBegin_encSyms {ts : List Sym} {s : State} (hs : Ready .idle s)
    (h : ∀ a ∈ ts, hasCode s a = true) :
    runWords ((Instr.encBegin :: ts.map Instr.encSym).map encode) s = .next { s with
      cmdcnt := s.cmdcnt + 1#32 + BitVec.ofNat 32 ts.length
      phase := .enc
      bout := s.bout ++ bitToks (codesOf s ts)
      done := BitVec.ofNat 32 ts.length } := by
  have hready : Ready .enc { countWord s with phase := .enc, done := 0#32 } := ⟨hs.1, rfl⟩
  rw [runWords_encode_cons rfl (exec_encBegin hs), runWords_encSyms hready (by exact h)]
  simp only [BitVec.zero_add]
  rfl

/-- The state after the frame of symbols that all have codes. -/
def afterEncode (s : State) (ts : List Sym) : State :=
  { s with
    cmdcnt := s.cmdcnt + 1#32 + BitVec.ofNat 32 ts.length + 1#32
    phase := .idle
    bout := s.bout ++ (bitToks (codesOf s ts) ++ [.eof])
    done := BitVec.ofNat 32 ts.length }

/-- R145: the frame of symbols that all have codes. -/
theorem runWords_pseudoEncode {ts : List Sym} {s : State} (hs : Ready .idle s) (h : ∀ a ∈ ts, hasCode s a = true) :
    runWords ((pseudoEncode ts).map encode) s = .next (afterEncode s ts) := by
  rw [pseudoEncode, ← List.cons_append, runWords_encode_append (runWords_encBegin_encSyms hs h)]
  refine (runWords_encode_singleton rfl (exec_encEnd ?_)).trans ?_
  · exact ⟨hs.1, rfl⟩
  · simp only [afterEncode, countWord, List.append_assoc]

theorem length_codesOf (s : State) (ts : List Sym) :
    (codesOf s ts).length = (ts.map fun a => (codeAt s a).len.toNat).sum := by
  simp [codesOf, codeOf, List.length_flatMap]

/-- A command other than CLRERR has a word other than CLRERR's. -/
theorem encode_ne_clrerr {i : Instr} (hw : i.wellFormed = true) (h : i ≠ .clrerr) : encode i ≠ 0x01000000#32 := by
  intro e
  have hclrerr : decode (encode i) = .command .clrerr := e ▸ decode_encode (i := .clrerr) rfl
  exact h (by simpa [decode_encode hw] using hclrerr)

/-- Settles O55: the codes go out one by one; at the first symbol without one the fault ends the frame, and the rest
is dropped. -/
theorem frameEquation : Obligations.FrameEquation := by
  intro s hs
  refine ⟨fun ts hts => ?_, fun pre post a hpre ha => ?_⟩
  · refine ⟨_, runWords_pseudoEncode hs hts, rfl, ⟨hs.1, rfl⟩, length_codesOf s ts, rfl, fun e he => ?_⟩
    cases e <;> simp [afterEncode, Agree, hs.2] at he ⊢
  · have hrun := runWords_encBegin_encSyms hs hpre
    have hexec := fun t (ht : Ready .enc t) (hc : t.code = s.code) => exec_encSym_noCode ht (a := a)
      (by rw [codeAt_congr hc]; exact (hasCode_eq_false_iff s a).mp ha)
    have hfault := (runWords_encode_append hrun [.encSym a]).trans
      (runWords_encode_singleton rfl (hexec _ ⟨hs.1, rfl⟩ rfl))
    have hdropped : ∀ x ∈ (post.map Instr.encSym ++ [Instr.encEnd]).map encode, x ≠ 0x01000000#32 := by
      intro x hx
      simp only [List.map_append, List.map_map, List.mem_append, List.mem_map, Function.comp] at hx
      rcases hx with ⟨b, -, rfl⟩ | ⟨i, hi, rfl⟩
      · exact encode_ne_clrerr rfl (by simp)
      · rw [List.mem_singleton.mp hi]
        exact encode_ne_clrerr rfl (by simp)
    have hlist : pseudoEncode (pre ++ a :: post) =
        ((Instr.encBegin :: pre.map Instr.encSym) ++ [.encSym a]) ++ (post.map Instr.encSym ++ [.encEnd]) := by
      simp [pseudoEncode]
    refine ⟨_, _, by simpa using hfault, rfl,
      (congrArg (fun is => runWords (List.map encode is) s) hlist).trans
        ((runWords_encode_append hfault _).trans (runWords_held rfl hdropped)), fun e he => ?_, ?_, ?_, rfl, ?_⟩
    · cases e <;> simp [Agree] at he ⊢
    · simp [countWord]
    · exact ⟨rfl, rfl, rfl, rfl⟩
    · simp only [raise_cmdcnt, countWord_cmdcnt, List.length_map, List.length_append, List.length_singleton]
      bv_omega

end Sys2Proof.Proofs

/-! SUPPORT. What DEC_BIT and DEC_WORD do, and a DEC_WORD against the DEC_BITs of its bits (44_decoder.md R151 to
R155). -/

namespace Sys2Proof.Proofs

open Sys2Proof.Machine Sys2Proof.Safety

/-! ## One bit, by the members of the match (R152, R153) -/

/-- R152: on an empty table or a full buffer a bit is only counted. -/
theorem decBit_discarded {s : State} (h : tempty s = true ∨ s.cbuf.len = 255#8) (w idx : Word) (b : Bool) :
    decBit w idx b s = .ok { s with done := s.done + 1#32 } := by
  rcases decBit_cases w idx b s with ⟨-, e⟩ | ⟨ht, hl, -⟩
  · exact e
  · simp [ht, hl] at h

section
variable {s : State} {b : Bool} (ht : tempty s = false) (hl : s.cbuf.len ≠ 255#8)
include ht hl

/-- R152: a bit that the table's codes do not end at is kept. -/
theorem decBit_of_noMatch (h : NoMatch s (codeSnoc s.cbuf b)) (w idx : Word) :
    decBit w idx b s = .ok { s with done := s.done + 1#32, cbuf := codeSnoc s.cbuf b } := by
  rcases decBit_cases w idx b s with ⟨h', -⟩ | ⟨-, -, ⟨-, e⟩ | ⟨a, ha, -⟩ | ⟨⟨a, _, -, ha, -⟩, -⟩⟩
  · simp [ht, hl] at h'
  · exact e
  · exact absurd ((ha a).mpr rfl) (h a)
  · exact absurd ha (h a)

/-- R152: a bit that completes one code emits its symbol and empties the buffer. -/
theorem decBit_of_oneMatch {a : Sym} (h : OneMatch s (codeSnoc s.cbuf b) a) (w idx : Word) : decBit w idx b s =
    .ok { s with done := s.done + 1#32, cbuf := Code.empty, sout := s.sout ++ [.sym a] } := by
  rcases decBit_cases w idx b s with ⟨h', -⟩ | ⟨-, -, ⟨hno, -⟩ | ⟨c, hc, e⟩ | ⟨⟨c, d, hne, hc, hd⟩, -⟩⟩
  · simp [ht, hl] at h'
  · exact absurd ((h a).mpr rfl) (hno a)
  · rw [e, (h c).mp ((hc c).mpr rfl)]
  · exact absurd (((h c).mp hc).trans ((h d).mp hd).symm) hne

/-- R153: a bit that completes two codes takes AmbiguousCode. -/
theorem decBit_of_manyMatch (h : ManyMatch s (codeSnoc s.cbuf b)) (w idx : Word) : decBit w idx b s =
    .raised (raise .ambiguousCode w idx { s with done := s.done + 1#32, cbuf := codeSnoc s.cbuf b }) := by
  obtain ⟨a, c, hne, ha, hc⟩ := h
  rcases decBit_cases w idx b s with ⟨h', -⟩ | ⟨-, -, ⟨hno, -⟩ | ⟨d, hd, -⟩ | ⟨-, e⟩⟩
  · simp [ht, hl] at h'
  · exact absurd ha (hno a)
  · exact absurd (((hd a).mp ha).trans ((hd c).mp hc).symm) hne
  · exact e

end

/-! ## DEC_BIT (R154) -/

theorem exec_decBit {s : State} (hs : Ready .dec s) (b : Bool) : exec (.decBit b) s =
    .next (bitState (decBit (encode (.decBit b)) s.cmdcnt b (countWord s))) := by
  rw [exec_ready hs (by simp) rfl rfl, ruleOf, bitState_decBit]

/-- R152, R154: whatever the bit does, it is counted in DONE and its word in CMDCNT. -/
theorem bitState_decBit_counts (w idx : Word) (b : Bool) (s : State) :
    (bitState (decBit w idx b s)).cmdcnt = s.cmdcnt ∧ (bitState (decBit w idx b s)).done = s.done + 1#32 := by
  rcases decBit_cases w idx b s with ⟨-, e⟩ | ⟨-, -, ⟨-, e⟩ | ⟨_, -, e⟩ | ⟨-, e⟩⟩ <;> rw [e] <;> exact ⟨rfl, rfl⟩

/-- Settles O27: the bit's case by its match; the word's count is besides. -/
theorem decBitAppendsAndMatches : Obligations.DecBitAppendsAndMatches := by
  intro b
  refine ⟨by cases b <;> simp [encode_eq_ofNat, opcode, symOperand, immOperand, bitImm], fun w hop h => ?_,
    badPhaseBut_of_legalIn (by simp) rfl fun q => by simp [legalIn], fun q hq => ⟨codeBits_codeSnoc q b hq,
      fun k hk => by rw [codeSnoc_getLsbD q b hq, if_neg hk]⟩, fun s hs => ?_⟩
  · exact illegalWord_of_bitOp (by simp [hop]) (h.symm.imp_right fun hsym => ⟨hop, hsym⟩)
  · obtain ⟨hcmdcnt, hdone⟩ := bitState_decBit_counts (encode (.decBit b)) s.cmdcnt b (countWord s)
    have discarded (h : tempty s = true ∨ s.cbuf.len = 255#8) : UnchangedBut [.cmdcnt, .done] s
        (bitState (decBit (encode (.decBit b)) s.cmdcnt b (countWord s))) := by
      rw [decBit_discarded (s := countWord s) h]
      intro e he
      cases e <;> simp [bitState, Agree] at he ⊢
    refine ⟨_, exec_decBit hs b, hcmdcnt, hdone, fun hnone => discarded (.inl ((tempty_iff_hasCode s).mpr hnone)),
      fun _ hfull => discarded (.inr hfull), ?_⟩
    rintro ⟨c, hc⟩ hl
    have ht : tempty (countWord s) = false := tempty_eq_false ((hasCode_iff s c).mp hc)
    refine ⟨fun a ha => ?_, fun hno => ?_, fun hmany => ?_⟩
    · rw [decBit_of_oneMatch ht hl ha]
      refine ⟨rfl, rfl, fun e he => ?_⟩
      cases e <;> simp [bitState, Agree] at he ⊢
    · rw [decBit_of_noMatch ht hl hno]
      refine ⟨rfl, fun e he => ?_⟩
      cases e <;> simp [bitState, Agree] at he ⊢
    · rw [decBit_of_manyMatch ht hl hmany]
      refine ⟨rfl, ⟨rfl, rfl, rfl, rfl⟩, aborted_raise _ _ _ _, fun e he => ?_⟩
      cases e <;> simp [bitState, faultElems, Agree] at he ⊢

/-! ## DEC_WORD (R155) -/

theorem exec_decWord {s : State} (hs : Ready .dec s) {n : Sym} (hn : n.toNat ≤ 16) (v : Imm) :
    exec (.decWord n v) s =
      .next (decBits (encode (.decWord n v)) s.cmdcnt (wordBits n v) (countWord s)) := by
  rw [exec_ready hs (by simp) (by simpa [Instr.wellFormed] using hn) rfl, ruleOf]

/-- R155: the word decoded for shows in ERRCMD alone. -/
theorem unchangedBut_decBits_word (w w' idx : Word) (bs : Bits) (s : State) :
    UnchangedBut [.errcmd] (decBits w idx bs s) (decBits w' idx bs s) := by
  induction bs generalizing s with
  | nil => exact unchangedBut_refl _ s
  | cons b bs ih =>
    rcases decBit_congr w idx w' idx b s s.cmdcnt with ⟨d, c, o, h, h'⟩ | ⟨d, c, h, h'⟩
    · simp only [decBits, h, h']
      exact ih _
    · simp only [decBits, h, h']
      intro e he
      cases e <;> simp [Agree] at he ⊢

theorem bitWords_ne_clrerr (bs : Bits) : ∀ x ∈ bitWords bs, x ≠ 0x01000000#32 := by
  intro x hx
  obtain ⟨b, -, rfl⟩ := List.mem_map.mp hx
  exact encode_ne_clrerr rfl (by simp)

/-- Once a DEC_BIT has faulted, the words after it are dropped and the fault stays. -/
theorem fault_of_bitWords_held {bs : Bits} {s u : State} (hf : s.fault = true)
    (h : runWords (bitWords bs) s = .next u) : u.fault = true := by
  rw [runWords_held hf (bitWords_ne_clrerr bs)] at h
  obtain rfl : _ = u := by simpa using h
  exact hf

/-- R155: where the DEC_BITs run without a fault, so does the word, to their state but for CMDCNT. -/
theorem decBits_of_runWords {bs : Bits} {s u : State} (hs : Ready .dec s) {n : Word}
    (hrun : runWords (bitWords bs) { s with cmdcnt := n } = .next u) (hu : u.fault = false) (w idx : Word) :
    UnchangedBut [.cmdcnt] u (decBits w idx bs s) := by
  induction bs generalizing s n with
  | nil =>
    obtain rfl : _ = u := by simpa [bitWords, runWords] using hrun
    intro e he
    cases e <;> simp [decBits, Agree] at he ⊢
  | cons b bs ih =>
    rcases decBit_congr w idx (encode (.decBit b)) n b s (n + 1#32) with ⟨d, c, o, h, h'⟩ | ⟨d, c, h, h'⟩
    all_goals
      have hstep := stepWord_encode_decBit (s := { s with cmdcnt := n }) hs h'
      rw [bitWords, List.map_cons, runWords_cons hstep] at hrun
    · simp only [decBits, h]
      exact ih (s := { s with done := d, cbuf := c, sout := o }) hs hrun
    · simp [fault_of_bitWords_held rfl hrun] at hu

/-- R155: where the DEC_BIT of bit `k` is the first to fault, the word faults there, in the same state but for CMDCNT
and the word and index in the record. -/
theorem decBits_fault_of_runWords {bs : Bits} {s u₀ u : State} (hs : Ready .dec s) {n : Word} {k : Nat}
    (hk : k < bs.length) (hrun₀ : runWords (bitWords (bs.take k)) { s with cmdcnt := n } = .next u₀)
    (hu₀ : u₀.fault = false) (hrun : runWords (bitWords (bs.take (k + 1))) { s with cmdcnt := n } = .next u)
    (hu : u.fault = true) (w idx : Word) :
    Recorded 7#8 w idx (decBits w idx bs s) ∧ UnchangedBut [.cmdcnt, .errcmd, .erridx] u (decBits w idx bs s) := by
  induction bs generalizing s n k with
  | nil => exact absurd hk (Nat.not_lt_zero k)
  | cons b bs ih =>
    rcases decBit_congr w idx (encode (.decBit b)) n b s (n + 1#32) with ⟨d, c, o, h, h'⟩ | ⟨d, c, h, h'⟩
    all_goals
      have hstep := stepWord_encode_decBit (s := { s with cmdcnt := n }) hs h'
      rw [List.take_succ_cons, bitWords, List.map_cons, runWords_cons hstep] at hrun
      simp only [decBits, h]
      cases k
    · obtain rfl : _ = u := by simpa [runWords] using hrun
      simp [bitState, hs.1] at hu
    · rw [List.take_succ_cons, bitWords, List.map_cons, runWords_cons hstep] at hrun₀
      exact ih (s := { s with done := d, cbuf := c, sout := o }) hs (Nat.lt_of_succ_lt_succ hk) hrun₀ hrun
    · obtain rfl : _ = u := by simpa [runWords] using hrun
      refine ⟨⟨rfl, rfl, rfl, rfl⟩, fun e he => ?_⟩
      cases e <;> simp [bitState, Agree] at he ⊢
    · rw [List.take_succ_cons, bitWords, List.map_cons, runWords_cons hstep] at hrun₀
      simp [fault_of_bitWords_held rfl hrun₀] at hu₀

/-- R155: positions of `imm` at or past the count are not decoded. -/
theorem wordBits_congr {n : Sym} {v v' : Imm} (h : ∀ k, k < n.toNat → v'.getLsbD k = v.getLsbD k) :
    wordBits n v' = wordBits n v :=
  List.map_congr_left fun k hk => h k (List.mem_range.mp hk)

/-- Settles O28: the word decodes its bits from the counted state, as the DEC_BITs do. -/
theorem decWordIsItsBits : Obligations.DecWordIsItsBits := by
  intro n v hn
  refine ⟨by simp [encode_eq_ofNat, opcode, symOperand, immOperand],
    fun w hop hcount => illegalWord_of_decode fun i => by simp [decode_of_badCount hop hcount],
    badPhaseBut_of_legalIn (by simp) (by simpa [Instr.wellFormed] using hn) fun q => by simp [legalIn],
    ⟨wordBits_length n v, wordBits_getElem? n v⟩, fun s hs => ?_⟩
  have hframe := unchangedBut_countWord s
  have hcmdcnt (w : Word) (bs : Bits) : (decBits w s.cmdcnt bs (countWord s)).cmdcnt = s.cmdcnt + 1#32 := by
    obtain ⟨d, c, o, -, e | e⟩ := decBits_cases w s.cmdcnt bs (countWord s) <;> rw [e] <;> rfl
  refine ⟨_, exec_decWord hs hn v, hcmdcnt _ _, ?_, fun u hrun hu => ?_, fun k u₀ u hk hrun₀ hu₀ hrun hu => ?_,
    fun v' t' hv' ht' => ?_⟩
  · rintro rfl
    exact hframe
  · exact decBits_of_runWords (s := countWord s) hs hrun hu _ _
  · exact decBits_fault_of_runWords (s := countWord s) hs (by simpa using hk) hrun₀ hu₀ hrun hu _ _
  · rw [exec_decWord hs hn v', wordBits_congr hv'] at ht'
    obtain rfl : _ = t' := by simpa using ht'
    exact unchangedBut_decBits_word _ _ _ _ _

end Sys2Proof.Proofs

/-! SUPPORT. Bits that decode without a fault, whether they come by DEC_BITs or by DEC_WORDs, and the round trip of a
PrefixFree table (44_decoder.md R152 to R160). -/

namespace Sys2Proof.Proofs

open Sys2Proof.Machine Sys2Proof.Safety

/-! ## Bits that decode without a fault -/

/-- With the codes `c` and the buffer `q`, one bit emits `out` and leaves the buffer `q'` (R152). -/
def BitDecodes (c : Vector Code 256) (q : Code) (b : Bool) (out : List Sym) (q' : Code) : Prop :=
  ∀ (w idx : Word) (s : State), s.code = c → s.cbuf = q → decBit w idx b s =
    .ok { s with done := s.done + 1#32, cbuf := q', sout := s.sout ++ out.map STok.sym }

/-- With the codes `c` and the buffer `q`, the bits emit `out` and leave the buffer `q'` (R152, R155). -/
inductive Decodes (c : Vector Code 256) : Code → Bits → List Sym → Code → Prop
  | nil (q : Code) : Decodes c q [] [] q
  | cons {q q₁ q₂ : Code} {b : Bool} {bs : Bits} {out rest : List Sym} :
      BitDecodes c q b out q₁ → Decodes c q₁ bs rest q₂ → Decodes c q (b :: bs) (out ++ rest) q₂

/-- The state after `len` bits that emitted `out` and left the buffer `q`, with the count `n`. -/
def afterBits (s : State) (n : Word) (len : Nat) (out : List Sym) (q : Code) : State :=
  { s with cmdcnt := n, done := s.done + BitVec.ofNat 32 len, cbuf := q, sout := s.sout ++ out.map STok.sym }

theorem tempty_congr {s t : State} (h : t.code = s.code) : tempty t = tempty s := by
  rw [tempty, tempty, h]

theorem bitDecodes_discarded {s : State} {q : Code} (h : tempty s = true ∨ q.len = 255#8) (b : Bool) :
    BitDecodes s.code q b [] q := by
  rintro w idx t hc rfl
  rw [decBit_discarded (by rwa [tempty_congr hc])]
  simp

theorem bitDecodes_of_noMatch {s : State} {q : Code} {b : Bool} (ht : tempty s = false) (hl : q.len ≠ 255#8)
    (h : NoMatch s (codeSnoc q b)) : BitDecodes s.code q b [] (codeSnoc q b) := by
  rintro w idx t hc rfl
  have hno : NoMatch t (codeSnoc t.cbuf b) := fun a => codeAt_congr hc a ▸ h a
  rw [decBit_of_noMatch ((tempty_congr hc).trans ht) hl hno]
  simp

theorem bitDecodes_of_oneMatch {s : State} {q : Code} {b : Bool} {a : Sym} (ht : tempty s = false)
    (hl : q.len ≠ 255#8) (h : OneMatch s (codeSnoc q b) a) : BitDecodes s.code q b [a] Code.empty := by
  rintro w idx t hc rfl
  have hone : OneMatch t (codeSnoc t.cbuf b) a := fun x => codeAt_congr hc x ▸ h x
  rw [decBit_of_oneMatch ((tempty_congr hc).trans ht) hl hone]
  rfl

namespace Decodes

variable {c : Vector Code 256} {q q₁ q₂ : Code} {bs bs' : Bits} {out out' : List Sym}

theorem append (h : Decodes c q bs out q₁) (h' : Decodes c q₁ bs' out' q₂) :
    Decodes c q (bs ++ bs') (out ++ out') q₂ := by
  induction h with
  | nil => exact h'
  | cons hb _ ih =>
    rw [List.append_assoc]
    exact .cons hb (ih h')

/-- Bits decode in two parts wherever they are cut. -/
theorem split (h : Decodes c q (bs ++ bs') out q₂) :
    ∃ out₁ q₁ out₂, out = out₁ ++ out₂ ∧ Decodes c q bs out₁ q₁ ∧ Decodes c q₁ bs' out₂ q₂ := by
  induction bs generalizing q out with
  | nil => exact ⟨[], q, out, rfl, .nil q, h⟩
  | cons b bs ih =>
    rw [List.cons_append] at h
    cases h with
    | cons hb hrest =>
      obtain ⟨out₁, q₁, out₂, rfl, h₁, h₂⟩ := ih hrest
      exact ⟨_, q₁, out₂, (List.append_assoc ..).symm, .cons hb h₁, h₂⟩

/-- Bits that are all discarded (R159, R160). -/
theorem of_discarded {s : State} (h : tempty s = true ∨ q.len = 255#8) (bs : Bits) : Decodes s.code q bs [] q := by
  induction bs with
  | nil => exact .nil q
  | cons b bs ih => exact .cons (out := []) (bitDecodes_discarded h b) ih

/-- The shifter on such bits (R155). -/
theorem decBits_eq (h : Decodes c q bs out q₁) (w idx : Word) {s : State} (hc : s.code = c) (hq : s.cbuf = q) :
    decBits w idx bs s = afterBits s s.cmdcnt bs.length out q₁ := by
  induction h generalizing s with
  | nil =>
    subst hq
    simp [decBits, afterBits]
  | cons hb _ ih =>
    simp only [decBits, hb w idx s hc hq]
    rw [ih (by exact hc) rfl]
    simp only [afterBits, add_ofNat_succ, List.length_cons, List.map_append, List.append_assoc]

/-- The DEC_BITs of such bits (R154). -/
theorem runWords_decBits (h : Decodes c q bs out q₁) {s : State} (hs : Ready .dec s) (hc : s.code = c)
    (hq : s.cbuf = q) : runWords ((bs.map Instr.decBit).map encode) s =
      .next (afterBits s (s.cmdcnt + BitVec.ofNat 32 bs.length) bs.length out q₁) := by
  induction h generalizing s with
  | nil =>
    subst hq
    simp [runWords, afterBits]
  | @cons _ _ _ b _ _ _ hb _ ih =>
    have hexec := exec_decBit hs b
    rw [hb _ _ (countWord s) hc hq] at hexec
    rw [List.map_cons, runWords_encode_cons rfl hexec, bitState, ih (by exact hs) (by exact hc) rfl]
    simp only [afterBits, countWord, add_ofNat_succ, List.length_cons, List.map_append, List.append_assoc]

end Decodes

/-! ## The DEC_WORDs of DECODEW (30_encoding.md R90) -/

/-- The bits of a chunk stand in its `imm` in order. -/
theorem testBit_chunk (chunk : Bits) (k : Nat) :
    (chunk.foldr (fun (b : Bool) (n : Nat) => b.toNat + 2 * n) 0).testBit k = chunk[k]?.getD false := by
  induction chunk generalizing k with
  | nil => simp
  | cons b chunk ih =>
    rw [List.foldr_cons]
    cases k with
    | zero => cases b <;> simp [Nat.testBit_zero, Nat.add_mod]
    | succ k =>
      have hdiv : (b.toNat + 2 * chunk.foldr (fun (b : Bool) (n : Nat) => b.toNat + 2 * n) 0) / 2 =
          chunk.foldr (fun (b : Bool) (n : Nat) => b.toNat + 2 * n) 0 := by
        rw [Nat.add_mul_div_left _ _ two_pos]
        cases b <;> simp
      rw [Nat.testBit_succ, hdiv, ih, List.getElem?_cons_succ]

theorem wordBits_chunk {chunk : Bits} (h : chunk.length ≤ 16) :
    wordBits (BitVec.ofNat 8 chunk.length) (chunkImm chunk) = chunk := by
  have hlen : (BitVec.ofNat 8 chunk.length).toNat = chunk.length := by
    rw [BitVec.toNat_ofNat]
    omega
  refine List.ext_getElem? fun k => ?_
  by_cases hk : k < chunk.length
  · rw [wordBits_getElem? _ _ k (by omega), chunkImm, BitVec.getLsbD_ofNat, testBit_chunk,
      List.getElem?_eq_getElem hk]
    simp
    omega
  · rw [List.getElem?_eq_none (by rw [wordBits_length]; omega), List.getElem?_eq_none (by omega)]

/-- The DEC_WORDs of bits that decode without a fault lead where their DEC_BITs do, but for CMDCNT (R155). -/
theorem Decodes.runWords_chunks {fuel : Nat} {c : Vector Code 256} {q q₁ : Code} {bs : Bits} {out : List Sym}
    (h : Decodes c q bs out q₁) (hfuel : bs.length ≤ fuel) {s : State} (hs : Ready .dec s) (hc : s.code = c)
    (hq : s.cbuf = q) :
    ∃ n, runWords ((pseudoChunks fuel bs).map encode) s = .next (afterBits s n bs.length out q₁) := by
  induction fuel generalizing bs q out s with
  | zero =>
    obtain rfl := List.eq_nil_of_length_eq_zero (Nat.le_zero.mp hfuel)
    cases h
    subst hq
    exact ⟨s.cmdcnt, by simp [pseudoChunks, runWords, afterBits]⟩
  | succ fuel ih =>
    cases bs with
    | nil =>
      cases h
      subst hq
      exact ⟨s.cmdcnt, by simp [pseudoChunks, runWords, afterBits]⟩
    | cons b bs =>
      rw [← List.take_append_drop 16 (b :: bs)] at h
      obtain ⟨out₁, q', out₂, rfl, h₁, h₂⟩ := h.split
      have hlen : ((b :: bs).take 16).length ≤ 16 := List.length_take_le _ _
      have hcount : (BitVec.ofNat 8 ((b :: bs).take 16).length).toNat ≤ 16 := by
        rw [BitVec.toNat_ofNat]
        omega
      have hexec := exec_decWord hs hcount (chunkImm ((b :: bs).take 16))
      rw [wordBits_chunk hlen, h₁.decBits_eq _ _ (s := countWord s) hc hq] at hexec
      obtain ⟨n, hn⟩ := ih (s := afterBits (countWord s) _ _ out₁ q') h₂ (by simp at hfuel ⊢; omega) hs hc rfl
      refine ⟨n, (runWords_encode_cons (by simpa [Instr.wellFormed] using hcount) hexec _).trans (hn.trans ?_)⟩
      have htotal : (b :: bs).length = ((b :: bs).take 16).length + ((b :: bs).drop 16).length := by
        rw [← List.length_append, List.take_append_drop]
      rw [htotal]
      simp only [afterBits, countWord, BitVec.ofNat_add, BitVec.add_assoc, List.map_append, List.append_assoc]

/-! ## Decode frames (R150, R156) -/

/-- The state after DEC_BEGIN. -/
def decOpened (s : State) : State := { countWord s with phase := .dec, done := 0#32, cbuf := Code.empty }

theorem exec_decBegin {s : State} (hs : Ready .idle s) : exec .decBegin s = .next (decOpened s) :=
  exec_ready hs (by simp) rfl rfl

theorem ready_decOpened {s : State} (hs : Ready .idle s) : Ready .dec (decOpened s) := ⟨hs.1, rfl⟩

/-- The state after a decode frame of `len` bits that emitted `out` and left the buffer `q`, with the count `n`. -/
def afterFrame (s : State) (n : Word) (len : Nat) (out : List Sym) (q : Code) : State :=
  { s with
    cmdcnt := n
    phase := .idle
    done := BitVec.ofNat 32 len
    cbuf := q
    sout := s.sout ++ (out.map STok.sym ++ [.eof]) }

/-- A frame whose commands between DEC_BEGIN and DEC_END decode bits and leave the buffer empty. -/
theorem runWords_decodeFrame {s : State} (hs : Ready .idle s) {is : List Instr} {n : Word} {len : Nat}
    {out : List Sym} {q : Code} (hq : q.len = 0#8)
    (hrun : runWords (is.map encode) (decOpened s) = .next (afterBits (decOpened s) n len out q)) :
    runWords ((Instr.decBegin :: (is ++ [Instr.decEnd])).map encode) s =
      .next (afterFrame s (n + 1#32) len out q) := by
  have hready : Ready .dec (afterBits (decOpened s) n len out q) := ready_decOpened hs
  rw [runWords_encode_cons rfl (exec_decBegin hs), runWords_encode_append hrun,
    runWords_encode_singleton rfl (exec_decEnd_empty hready hq)]
  simp only [pushS, afterBits, afterFrame, decOpened, countWord, List.append_assoc, BitVec.zero_add]

/-- DECODE of bits that decode without a fault and leave the buffer empty. -/
theorem Decodes.runWords_pseudoDecode {s : State} (hs : Ready .idle s) {bs : Bits} {out : List Sym} {q : Code}
    (h : Decodes s.code Code.empty bs out q) (hq : q.len = 0#8) :
    ∃ n, runWords ((pseudoDecode bs).map encode) s = .next (afterFrame s n bs.length out q) :=
  ⟨_, runWords_decodeFrame hs hq (h.runWords_decBits (ready_decOpened hs) rfl rfl)⟩

/-- DECODEW of the same bits. -/
theorem Decodes.runWords_pseudoDecodew {s : State} (hs : Ready .idle s) {bs : Bits} {out : List Sym} {q : Code}
    (h : Decodes s.code Code.empty bs out q) (hq : q.len = 0#8) :
    ∃ n, runWords ((pseudoDecodew bs).map encode) s = .next (afterFrame s n bs.length out q) := by
  obtain ⟨n, hbits⟩ := h.runWords_chunks le_rfl (ready_decOpened hs) rfl rfl
  exact ⟨_, runWords_decodeFrame hs hq hbits⟩

/-- Settles O56: on an empty table every bit is discarded. -/
theorem emptyTableDecodesToNothing : Obligations.EmptyTableDecodesToNothing := by
  intro s bs hs hnone
  obtain ⟨n, hrun⟩ :=
    (Decodes.of_discarded (.inl ((tempty_iff_hasCode s).mpr hnone)) bs).runWords_pseudoDecode hs rfl
  refine ⟨_, hrun, ⟨hs.1, rfl⟩, rfl, rfl, rfl, fun e he => ?_⟩
  cases e <;> simp [afterFrame, Agree, hs.2] at he ⊢

/-- Settles O57: on a full buffer every bit is discarded, and DEC_END finds the buffer not empty. -/
theorem fullBufferEndsTruncated : Obligations.FullBufferEndsTruncated := by
  intro s bs hs hfull
  have hbits := (Decodes.of_discarded (.inr hfull) bs).runWords_decBits hs rfl rfl
  refine ⟨_, (runWords_encode_append hbits _).trans
    (runWords_encode_singleton rfl (exec_decEnd_truncated (by exact hs) ?_)), ?_, rfl, rfl, rfl, rfl, rfl, rfl⟩
  · simp [afterBits, hfull]
  · simp [afterBits, hs.2]

/-! ## Prefix-free tables (42_code_table.md R133; 44_decoder.md R153, R158) -/

theorem codeOf_eq_of_codeAt_eq {s : State} {a b : Sym} (h : codeAt s a = codeAt s b) : codeOf s a = codeOf s b :=
  congrArg codeBits h

/-- R133: equal codes are prefixes of each other. -/
theorem eq_of_codeAt_eq {s : State} (hp : PrefixFree s) {a b : Sym} (ha : hasCode s a = true)
    (h : codeAt s a = codeAt s b) : a = b := by
  by_contra hne
  have hb : hasCode s b = true := by rwa [hasCode, ← h]
  exact hp a b hne ha hb (codeOf_eq_of_codeAt_eq h ▸ List.prefix_rfl)

/-- A buffer that took a bit is not empty. -/
theorem codeSnoc_len_ne_zero {q : Code} (hl : q.len ≠ 255#8) (b : Bool) : (codeSnoc q b).len ≠ 0#8 := by
  intro h
  have hlen := codeSnoc_len_toNat q b hl
  rw [h] at hlen
  exact absurd hlen (Nat.succ_ne_zero _).symm

/-- R153: a PrefixFree table never takes AmbiguousCode. -/
theorem decBits_fault_of_prefixFree {s : State} (hf : s.fault = false) (hp : PrefixFree s) (w idx : Word)
    (bs : Bits) : (decBits w idx bs s).fault = false := by
  induction bs generalizing s with
  | nil => exact hf
  | cons b bs ih =>
    rcases decBit_cases w idx b s with ⟨-, h⟩ | ⟨-, hl, ⟨-, h⟩ | ⟨a, -, h⟩ | ⟨⟨a, c, hne, ha, hc⟩, -⟩⟩
    · simp only [decBits, h]
      exact ih (s := { s with done := s.done + 1#32 }) hf hp
    · simp only [decBits, h]
      exact ih (s := { s with done := s.done + 1#32, cbuf := codeSnoc s.cbuf b }) hf hp
    · simp only [decBits, h]
      exact ih (s := { s with done := s.done + 1#32, cbuf := Code.empty, sout := s.sout ++ [.sym a] }) hf hp
    · have hcode : hasCode s a = true := (hasCode_iff s a).mpr (ha ▸ codeSnoc_len_ne_zero hl b)
      exact absurd (eq_of_codeAt_eq hp hcode (ha.trans hc.symm)) hne

/-- Settles O58: only the rule of a DEC_BIT or DEC_WORD takes fault 7, and its bits decode without one. -/
theorem prefixFreeTableIsNeverAmbiguous : Obligations.PrefixFreeTableIsNeverAmbiguous := by
  intro s _ hp
  refine ⟨fun ⟨a, b, hne, ha, hab⟩ => hne (eq_of_codeAt_eq hp ha hab), ?_⟩
  rintro w t hf h ⟨ht, hcode⟩
  rcases stepWord_cases h with ⟨i, hi, hexec⟩ | ⟨hheld, -⟩ | ⟨-, rfl⟩
  · obtain ⟨-, -, hpriority⟩ := faultPriority w s t h
    obtain ⟨hbad, hown⟩ := hpriority hf i hi
    cases hl : legalIn i s.phase
    · simp [(hbad hl).2] at hcode
    · have hfault := exec_fault_of_legal hexec hf (wellFormed_of_decode hi) hl ht
      have hbits (bs : Bits) := decBits_fault_of_prefixFree (s := countWord s) hf hp (encode i) s.cmdcnt bs
      rw [(hown hl ht).1] at hcode
      cases i
      case decBit b => simp [hfault, ruleOf, hbits] at ht
      case decWord n v => simp [hfault, ruleOf, hbits] at ht
      all_goals exact absurd hcode (by simp [ownFault])
  · simp [hf] at hheld
  · simp [causeCode] at hcode

/-- R158: the rest of a symbol's code, from the buffer that holds the bits before it, emits the symbol. -/
theorem decodes_code_from {s : State} (hcan : CodesCanonical s) (hp : PrefixFree s) {a : Sym} {r : Bits} {q : Code}
    (hq : CodeCanonical q) (hcode : codeBits q ++ r = codeOf s a) (hr : r ≠ []) :
    Decodes s.code q r [a] Code.empty := by
  induction r generalizing q with
  | nil => exact absurd rfl hr
  | cons b r ih =>
    have hlen := congrArg List.length hcode
    rw [List.length_append, List.length_cons, codeBits_length, codeOf, codeBits_length] at hlen
    have hmax := (codeAt s a).len.isLt
    have hl : q.len ≠ 255#8 := fun h => by
      simp [h] at hlen
      omega
    have ha : hasCode s a = true := (hasCode_iff s a).mpr fun h => by
      simp [h] at hlen
    have ht : tempty s = false := tempty_eq_false ((hasCode_iff s a).mp ha)
    have hsnoc := codeBits_codeSnoc q b hl
    have hq' := codeCanonical_codeSnoc hq b hl
    have hcode' : codeBits (codeSnoc q b) ++ r = codeOf s a := by
      rw [hsnoc, ← hcode, List.append_assoc, List.singleton_append]
    -- A code that equals the buffer begins the symbol's.
    have hmatch (x : Sym) (hx : codeAt s x = codeSnoc q b) : x = a := by
      by_contra hne
      have hxcode : hasCode s x = true := (hasCode_iff s x).mpr (hx ▸ codeSnoc_len_ne_zero hl b)
      exact hp x a hne hxcode ha ⟨r, by rw [codeOf, hx, hcode']⟩
    cases r with
    | nil =>
      rw [List.append_nil] at hcode'
      have hself : codeAt s a = codeSnoc q b := (codeBits_inj (hcan.1 a) hq').mp hcode'.symm
      exact .cons (out := [a]) (bitDecodes_of_oneMatch ht hl fun x => ⟨hmatch x, fun h => h ▸ hself⟩) (.nil _)
    | cons b' r =>
      have hno : NoMatch s (codeSnoc q b) := fun x hx => by
        rw [← hmatch x hx, codeOf, hx] at hcode'
        simp at hcode'
      exact .cons (out := []) (bitDecodes_of_noMatch ht hl hno) (ih hq' hcode' (by simp))

/-- R158: the codes of a sequence decode to the sequence. -/
theorem decodes_codesOf {s : State} (hcan : CodesCanonical s) (hp : PrefixFree s) {ts : List Sym}
    (hts : ∀ a ∈ ts, hasCode s a = true) : Decodes s.code Code.empty (codesOf s ts) ts Code.empty := by
  induction ts with
  | nil => exact .nil _
  | cons a ts ih =>
    obtain ⟨ha, hts⟩ := List.forall_mem_cons.mp hts
    have hne : codeOf s a ≠ [] := fun h => by
      have hlen := codeBits_length (codeAt s a)
      rw [← codeOf, h] at hlen
      exact (hasCode_iff s a).mp ha (BitVec.eq_of_toNat_eq hlen.symm)
    exact (decodes_code_from hcan hp codeCanonical_empty rfl hne).append (ih hts)

/-- Settles O59: the frame of the sequence holds its codes, which decode to it. -/
theorem roundTripPrefixFreeTable : Obligations.RoundTripPrefixFreeTable := by
  intro s ts hs hcan hp hts
  have hdecodes := decodes_codesOf hcan hp hts
  have hencode := runWords_pseudoEncode hs hts
  have hready : Ready .idle (afterEncode s ts) := ⟨hs.1, rfl⟩
  obtain ⟨n, hdecode⟩ := hdecodes.runWords_pseudoDecode hready rfl
  obtain ⟨m, hdecodew⟩ := hdecodes.runWords_pseudoDecodew hready rfl
  exact ⟨codesOf s ts, _, _, _, hencode, ⟨hs.1, rfl⟩, rfl, hdecode, ⟨hs.1, rfl⟩, rfl, hdecodew, ⟨hs.1, rfl⟩, rfl⟩

end Sys2Proof.Proofs

/-! SUPPORT. BUILD from its leaves to its last round (41_tree_builder.md R110 to R118): an induction over the rounds,
the leaves, and the order in which nodes are joined. -/

namespace Sys2Proof.Proofs

open Sys2Proof.Machine Sys2Proof.Safety

/-! ## The symbols present (R113) -/

theorem mem_allSyms (a : Sym) : a ∈ allSyms :=
  List.mem_map.mpr ⟨a.toNat, List.mem_range.mpr a.isLt, by simp⟩

theorem mem_present {s : State} {a : Sym} : a ∈ present s ↔ freqAt s a ≠ 0#32 := by
  simp [present, mem_allSyms]

theorem present_nodup (s : State) : (present s).Nodup :=
  (present_sorted s).imp fun {a b} (h : a.toNat < b.toNat) (e : a = b) => Nat.lt_irrefl _ (e ▸ h)

theorem present_eq_nil {s : State} (h : ∀ a : Sym, freqAt s a = 0#32) : present s = [] :=
  List.eq_nil_iff_forall_not_mem.mpr fun a ha => mem_present.mp ha (h a)

theorem present_eq_singleton {s : State} {a : Sym} (ha : freqAt s a ≠ 0#32)
    (hother : ∀ b : Sym, b ≠ a → freqAt s b = 0#32) : present s = [a] := by
  refine List.perm_singleton.mp ((List.perm_ext_iff_of_nodup (present_nodup s) (List.nodup_singleton a)).mpr ?_)
  intro b
  rw [mem_present, List.mem_singleton]
  exact ⟨fun hb => by_contra fun hne => hb (hother b hne), fun e => e ▸ ha⟩

theorem length_present_pos {s : State} {a : Sym} (h : freqAt s a ≠ 0#32) : 0 < (present s).length :=
  List.length_pos_of_mem (mem_present.mpr h)

/-- R118: the counts of the symbols present are all the counts. -/
theorem sum_present (s : State) (f : Sym → Nat) (hf : ∀ a, freqAt s a = 0#32 → f a = 0) :
    ((present s).map f).sum = (allSyms.map f).sum := by
  rw [present]
  induction allSyms with
  | nil => rfl
  | cons a l ih =>
    by_cases ha : freqAt s a = 0#32
    · simp [ha, hf a ha, ih]
    · simp [ha, ih]

/-! ## The arena that BUILD leaves -/

/-- The state after R114's loop. -/
def grown (s : State) : State := stageMerge (stageLeaves (stageClear s))

theorem exec_build {s : State} (hs : Ready .idle s) : exec .build s = .next (buildTree (countWord s)) :=
  exec_ready hs (by simp) rfl rfl

/-- R110: BUILD's state is the built tree of the counts. -/
theorem exists_buildTree {s t : State} (hs : Ready .idle s) (h : exec .build s = .next t) :
    ∃ r, t = buildTree r ∧ freqAt r = freqAt s :=
  ⟨countWord s, by simpa [exec_build hs] using h.symm, rfl⟩

theorem present_congr {s r : State} (h : freqAt r = freqAt s) : present r = present s := by
  rw [present, h, present]

/-- R116, R117, R120: the root and code stages leave the arena as R114's loop did. -/
theorem buildTree_arena (s : State) : ∃ r c, buildTree s = { grown s with root := r, code := c } := by
  obtain ⟨r, hr⟩ := stageRoot_frame (grown s)
  obtain ⟨c, hc⟩ := stageCodes_frame (stageRoot (grown s))
  refine ⟨r, c, ?_⟩
  rw [buildTree, ← grown, hc, hr]

theorem grown_frame (s : State) : ∃ n l m, grown s = { stageClear s with node := n, nleaf := l, nnode := m } := by
  obtain ⟨n, l, h⟩ := leavesFrom_frame (stageClear s).freq.toList 0 (stageClear s)
  obtain ⟨n', m', h'⟩ := mergeLoop_frame (Config.nsym - 1) (stageLeaves (stageClear s))
  exact ⟨n', l, m', by rw [grown, stageMerge, h', stageLeaves, h]⟩

theorem grown_nleaf (s : State) : (grown s).nleaf.toNat = (present s).length := by
  obtain ⟨n, m, h⟩ := mergeLoop_frame (Config.nsym - 1) (stageLeaves (stageClear s))
  rw [grown, stageMerge, h]
  exact (leavesAre_stageLeaves s).nleaf

theorem buildTree_nleaf (s : State) : (buildTree s).nleaf.toNat = (present s).length := by
  obtain ⟨r, c, h⟩ := buildTree_arena s
  rw [h]
  exact grown_nleaf s

theorem nodeAt_buildTree (s : State) (i : Nat) : nodeAt (buildTree s) i = nodeAt (grown s) i := by
  obtain ⟨r, c, h⟩ := buildTree_arena s
  rw [h]
  rfl

theorem pqSize_stageLeaves (s : State) : pqSize (stageLeaves (stageClear s)).node = (present s).length := by
  rw [pqSize_eq_card, (leavesAre_stageLeaves s).members_eq, Finset.card_range]

theorem forest_stageLeaves {s : State} (hpos : 0 < (present s).length) : Forest (stageLeaves (stageClear s)) :=
  (leavesAre_stageLeaves s).forest (present_length_le s) hpos (present_sorted s) (stageLeaves_nnode _)

theorem forest_grown {s : State} (hpos : 0 < (present s).length) :
    Forest (grown s) ∧ pqSize (grown s).node = 1 :=
  forest_mergeLoop _ (forest_stageLeaves hpos) (pqSize_stageLeaves s ▸ present_length_le s)

/-- A property of the leaves that every round keeps holds at the end of R114's loop. -/
theorem mergeLoop_induct {P : State → Prop} (hround : ∀ s t a b, Forest s → Joins s t a b → P s → P t) (fuel : Nat)
    {s : State} (hf : Forest s) (h : P s) : P (mergeLoop fuel s) := by
  induction fuel generalizing s with
  | zero => exact h
  | succ fuel ih =>
    rw [mergeLoop]
    split
    · rename_i hsize
      obtain ⟨a, b, hj⟩ := hf.joins hsize
      exact ih (hj.forest hf) (hround _ _ a b hf hj h)
    · exact h

theorem grown_induct {P : State → Prop} {s : State} (hpos : 0 < (present s).length)
    (hleaves : P (stageLeaves (stageClear s))) (hround : ∀ s t a b, Forest s → Joins s t a b → P s → P t) :
    P (grown s) :=
  mergeLoop_induct hround _ (forest_stageLeaves hpos) hleaves

/-! ## The leaves at the end (R113) -/

/-- The leaves are those of the listed symbols with the counts of `u`, in the queue or not. -/
structure LeafPart (u : State) (l : List Sym) (s : State) : Prop where
  nleaf : s.nleaf.toNat = l.length
  node : ∀ i (hi : i < l.length), ∃ inq, nodeAt s i = { leafNode l[i] (freqAt u l[i]) with inq := inq }

theorem leafPart_stageLeaves (s : State) : LeafPart s (present s) (stageLeaves (stageClear s)) where
  nleaf := (leavesAre_stageLeaves s).nleaf
  node _ hi := ⟨true, (leavesAre_stageLeaves s).node_of_lt hi⟩

theorem Joins.leafPart {u s t : State} {a b : Nat} {l : List Sym} (h : Joins s t a b) (hs : Forest s)
    (hl : LeafPart u l s) : LeafPart u l t := by
  refine ⟨h.nleaf ▸ hl.nleaf, fun i hi => ?_⟩
  have := hs.nleaf_le_nnode
  have := hl.nleaf
  obtain ⟨inq, e⟩ := h.node_lt (i := i) (by omega)
  obtain ⟨_, e'⟩ := hl.node i hi
  exact ⟨inq, by rw [e, e']⟩

theorem leafPart_grown {s : State} (hpos : 0 < (present s).length) : LeafPart s (present s) (grown s) :=
  grown_induct hpos (leafPart_stageLeaves s) fun _ _ _ _ hf hj hl => hj.leafPart hf hl

/-- Settles O32: the leaf stage makes the leaves, and the rounds change only their place in the queue. -/
theorem buildMakesLeavesInOrder : Obligations.BuildMakesLeavesInOrder := by
  intro s t hs h
  obtain ⟨r, rfl, hfreq⟩ := exists_buildTree hs h
  have hnleaf := buildTree_nleaf r
  obtain ⟨⟨-, hnnode, -, -⟩, -⟩ := arenaSound_buildTree r
  rw [← hfreq, ← present_congr hfreq]
  refine ⟨hnleaf, hnnode, fun i hi => ?_⟩
  rw [hnleaf] at hi
  obtain ⟨inq, hnode⟩ := (leafPart_grown (Nat.lt_of_le_of_lt (Nat.zero_le i) hi)).node i hi
  rw [nodeAt_buildTree, hnode]
  exact ⟨List.getElem?_eq_getElem hi, rfl, rfl, BitVec.toNat_setWidth_of_le (by decide)⟩

/-! ## The order of the joins (R112, R114) -/

/-- Node `j` is the child of no internal node below `k`. -/
def Untaken (s : State) (k j : Nat) : Prop :=
  ∀ q, s.nleaf.toNat ≤ q → q < k → (nodeAt s q).left.toNat ≠ j ∧ (nodeAt s q).right.toNat ≠ j

/-- Internal node `k` joins the first two of the nodes below it that no earlier node has taken. -/
def JoinsFirstTwo (s : State) (k : Nat) : Prop :=
  Before s (nodeAt s k).left.toNat (nodeAt s k).right.toNat ∧
  ∀ j, j < k → j ≠ (nodeAt s k).left.toNat → j ≠ (nodeAt s k).right.toNat → Untaken s k j →
    Before s (nodeAt s k).right.toNat j

/-- The queue holds the nodes not taken (R26, R114). -/
theorem Forest.mem_of_untaken {s : State} (hs : Forest s) {j : Nat} (hj : j < s.nnode.toNat)
    (hfree : Untaken s s.nnode.toNat j) : j ∈ members s.node := by
  rw [hs.mem_iff hj, hs.queued j hj]
  rintro q ⟨hge, hlt, hchild⟩
  obtain ⟨hl, hr⟩ := hfree q hge hlt
  exact hchild.elim hl hr

namespace Joins

variable {s t : State} {a b : Nat} (h : Joins s t a b)
include h

/-- A round keeps the order of the nodes before it. -/
theorem before_iff {i j : Nat} (hi : i < s.nnode.toNat) (hj : j < s.nnode.toNat) : Before t i j ↔ Before s i j := by
  rw [Before, Before, h.freq_lt hi, h.freq_lt hj]

theorem untaken_iff {k j : Nat} (hk : k ≤ s.nnode.toNat) : Untaken t k j ↔ Untaken s k j := by
  rw [Untaken, Untaken, h.nleaf]
  refine forall_congr' fun q => forall_congr' fun _ => forall_congr' fun hq => ?_
  obtain ⟨_, e⟩ := h.node_lt (i := q) (by omega)
  rw [e]

variable (hs : Forest s)
include hs

/-- The new node joins the first two. -/
theorem joinsFirstTwo_new : JoinsFirstTwo t s.nnode.toNat := by
  have ha := h.left_lt hs
  have hb := h.right_lt hs
  rw [JoinsFirstTwo, h.new_left hs, h.new_right hs, h.before_iff ha hb]
  refine ⟨h.left_first b h.right_mem h.ne.symm, fun j hj hja hjb hfree => ?_⟩
  rw [h.before_iff hb hj]
  exact h.right_second j (hs.mem_of_untaken hj ((h.untaken_iff le_rfl).mp hfree)) hja hjb

/-- A round keeps what holds of the earlier internal nodes. -/
theorem joinsFirstTwo_old {k : Nat} (hge : s.nleaf.toNat ≤ k) (hk : k < s.nnode.toNat)
    (hfirst : JoinsFirstTwo s k) : JoinsFirstTwo t k := by
  obtain ⟨-, -, hl, hr, -⟩ := hs.internal k hge hk
  obtain ⟨_, e⟩ := h.node_lt hk
  rw [JoinsFirstTwo, e]
  simp only
  rw [h.before_iff (by omega) (by omega)]
  refine ⟨hfirst.1, fun j hj hjl hjr hfree => ?_⟩
  rw [h.before_iff (by omega) (by omega)]
  exact hfirst.2 j hj hjl hjr ((h.untaken_iff hk.le).mp hfree)

end Joins

theorem joinsFirstTwo_grown {s : State} (hpos : 0 < (present s).length) {k : Nat}
    (hge : (grown s).nleaf.toNat ≤ k) (hk : k < (grown s).nnode.toNat) : JoinsFirstTwo (grown s) k := by
  refine grown_induct (P := fun t => ∀ k, t.nleaf.toNat ≤ k → k < t.nnode.toNat → JoinsFirstTwo t k) hpos
    (fun k hge hk => ?_) (fun u t a b hf hj hall k hge hk => ?_) k hge hk
  · rw [stageLeaves_nnode] at hk
    omega
  · rw [hj.nleaf] at hge
    rw [hj.nnode_toNat hf] at hk
    by_cases hnew : k = u.nnode.toNat
    · exact hnew ▸ hj.joinsFirstTwo_new hf
    · exact hj.joinsFirstTwo_old hf hge (by omega) (hall k hge (by omega))

/-- Settles O33: at its round the two nodes were the first of the queue, which held the nodes not taken. -/
theorem buildMergesTwoLowest : Obligations.BuildMergesTwoLowest := by
  intro s t hs h k hge hk
  obtain ⟨r, rfl, -⟩ := exists_buildTree hs h
  obtain ⟨root, code, hbuilt⟩ := buildTree_arena r
  rw [hbuilt] at hge hk ⊢
  have hpos : 0 < (present r).length := by
    by_contra hzero
    obtain ⟨⟨-, hnnode, -, -⟩, -⟩ := arenaSound_buildTree r
    have hnleaf := buildTree_nleaf r
    rw [if_pos (BitVec.eq_of_toNat_eq (by simp; omega)), hbuilt] at hnnode
    omega
  obtain ⟨hf, -⟩ := forest_grown hpos
  obtain ⟨-, -, hl, hr, -⟩ := hf.internal k hge hk
  obtain ⟨hbefore, hsecond⟩ := joinsFirstTwo_grown hpos hge hk
  refine ⟨hl, hr, fun q hqge hqk => ?_, hbefore, hsecond, hf.sums k hge hk⟩
  -- A child shared with an earlier node would have two parents.
  have shared {c : Nat} (hc : (nodeAt (grown r) k).left.toNat = c ∨
      (nodeAt (grown r) k).right.toNat = c) :
      ¬ ((nodeAt (grown r) q).left.toNat = c ∨ (nodeAt (grown r) q).right.toNat = c) :=
    fun hq => absurd (hf.parent_unique q k c ⟨hqge, hqk.trans hk, hq⟩ ⟨hge, hk, hc⟩) hqk.ne
  obtain ⟨hll, hrl⟩ := not_or.mp (shared (.inl rfl))
  obtain ⟨hlr, hrr⟩ := not_or.mp (shared (.inr rfl))
  exact ⟨fun e => hll (congrArg BitVec.toNat e), fun e => hlr (congrArg BitVec.toNat e),
    fun e => hrl (congrArg BitVec.toNat e), fun e => hrr (congrArg BitVec.toNat e)⟩

end Sys2Proof.Proofs

/-! SUPPORT. The tree that an arena holds (41_tree_builder.md R114, R119, R120), as a value of its own: its leaves, its
paths, and what the code walk writes. -/

namespace Sys2Proof.Proofs

open Sys2Proof.Machine Sys2Proof.Safety

/-! ## Trees of symbols -/

/-- A binary tree with a symbol at each leaf. -/
inductive CodeTree where
  | leaf (a : Sym)
  | node (l r : CodeTree)

namespace CodeTree

/-- The symbols at the leaves, from left to right. -/
def syms : CodeTree → List Sym
  | leaf a => [a]
  | node l r => l.syms ++ r.syms

/-- The greatest length of a path. -/
def depth : CodeTree → Nat
  | leaf _ => 0
  | node l r => max l.depth r.depth + 1

/-- The bits lead from the top to the leaf of a symbol, 0 to the left and 1 to the right (R29, R120). -/
def At : CodeTree → Bits → Sym → Prop
  | leaf b, [], a => b = a
  | leaf _, _ :: _, _ => False
  | node _ _, [], _ => False
  | node l _, false :: p, a => l.At p a
  | node _ r, true :: p, a => r.At p a

@[simp] theorem at_leaf {b a : Sym} {p : Bits} : (leaf b).At p a ↔ p = [] ∧ b = a := by
  cases p <;> simp [At]

@[simp] theorem at_node_nil {l r : CodeTree} {a : Sym} : ¬ (node l r).At [] a := id

@[simp] theorem at_node_cons {l r : CodeTree} {b : Bool} {p : Bits} {a : Sym} :
    (node l r).At (b :: p) a ↔ (if b then r else l).At p a := by
  cases b <;> rfl

theorem mem_syms_iff {T : CodeTree} {a : Sym} : a ∈ T.syms ↔ ∃ p, T.At p a := by
  induction T with
  | leaf b => simp [syms, eq_comm]
  | node l r ihl ihr =>
    rw [syms, List.mem_append, ihl, ihr]
    constructor
    · rintro (⟨p, hp⟩ | ⟨p, hp⟩)
      · exact ⟨false :: p, hp⟩
      · exact ⟨true :: p, hp⟩
    · rintro ⟨p, hp⟩
      match p, hp with
      | false :: p, hp => exact .inl ⟨p, hp⟩
      | true :: p, hp => exact .inr ⟨p, hp⟩

theorem At.mem_syms {T : CodeTree} {p : Bits} {a : Sym} (h : T.At p a) : a ∈ T.syms := mem_syms_iff.mpr ⟨p, h⟩

theorem At.length_le {T : CodeTree} {p : Bits} {a : Sym} (h : T.At p a) : p.length ≤ T.depth := by
  induction T generalizing p with
  | leaf b => simp [(at_leaf.mp h).1]
  | node l r ihl ihr =>
    match p, h with
    | false :: p, h => exact Nat.succ_le_succ ((ihl h).trans (le_max_left _ _))
    | true :: p, h => exact Nat.succ_le_succ ((ihr h).trans (le_max_right _ _))

/-- R122 (a): no path begins another. -/
theorem At.eq_of_prefix {T : CodeTree} {p q : Bits} {a b : Sym} (hp : T.At p a) (hq : T.At q b) (h : p <+: q) :
    p = q ∧ a = b := by
  induction T generalizing p q with
  | leaf c =>
    obtain ⟨rfl, rfl⟩ := at_leaf.mp hp
    obtain ⟨rfl, rfl⟩ := at_leaf.mp hq
    exact ⟨rfl, rfl⟩
  | node l r ihl ihr =>
    match p, q, hp, hq with
    | x :: p, y :: q, hp, hq =>
      obtain ⟨rfl, hpq⟩ := List.cons_prefix_cons.mp h
      cases x with
      | false => exact (ihl hp hq hpq).imp_left (congrArg _)
      | true => exact (ihr hp hq hpq).imp_left (congrArg _)

/-- R122 (d): a sequence as long as the tree is deep starts with a path. -/
theorem exists_at_prefix (T : CodeTree) {bs : Bits} (h : T.depth ≤ bs.length) : ∃ p a, T.At p a ∧ p <+: bs := by
  induction T generalizing bs with
  | leaf a => exact ⟨[], a, at_leaf.mpr ⟨rfl, rfl⟩, List.nil_prefix⟩
  | node l r ihl ihr =>
    match bs, h with
    | b :: bs, h =>
      have hmax : max l.depth r.depth ≤ bs.length := Nat.le_of_succ_le_succ h
      obtain ⟨p, a, hp, hbs⟩ : ∃ p a, (if b then r else l).At p a ∧ p <+: bs := by
        cases b with
        | false => exact ihl ((le_max_left _ _).trans hmax)
        | true => exact ihr ((le_max_right _ _).trans hmax)
      exact ⟨b :: p, a, at_node_cons.mpr hp, List.cons_prefix_cons.mpr ⟨rfl, hbs⟩⟩

/-- A symbol that stands at one leaf has one path. -/
theorem At.path_unique {T : CodeTree} (hnd : T.syms.Nodup) {p q : Bits} {a : Sym} (hp : T.At p a) (hq : T.At q a) :
    p = q := by
  induction T generalizing p q with
  | leaf b => exact (at_leaf.mp hp).1.trans (at_leaf.mp hq).1.symm
  | node l r ihl ihr =>
    obtain ⟨hl, hr, hdisj⟩ := List.nodup_append'.mp hnd
    match p, q, hp, hq with
    | false :: p, false :: q, hp, hq => exact congrArg _ (ihl hl hp hq)
    | true :: p, true :: q, hp, hq => exact congrArg _ (ihr hr hp hq)
    | false :: p, true :: q, hp, hq => exact absurd (mem_syms (T := r) hq) (hdisj (mem_syms (T := l) hp))
    | true :: p, false :: q, hp, hq => exact absurd (mem_syms (T := r) hp) (hdisj (mem_syms (T := l) hq))

/-- The sum of a count over the leaves (R118). -/
def weight (f : Sym → Nat) (T : CodeTree) : Nat := (T.syms.map f).sum

/-- The sum of the weights of the internal nodes: the total code length (R122 (b)). -/
def cost (f : Sym → Nat) : CodeTree → Nat
  | leaf _ => 0
  | node l r => cost f l + cost f r + (weight f l + weight f r)

@[simp] theorem weight_leaf (f : Sym → Nat) (a : Sym) : weight f (leaf a) = f a := by simp [weight, syms]

@[simp] theorem weight_node (f : Sym → Nat) (l r : CodeTree) : weight f (node l r) = weight f l + weight f r := by
  simp [weight, syms]

/-- The total length of the paths, each `d` longer, is the cost and `d` for each count. -/
theorem sum_length_eq_cost {T : CodeTree} (f len : Sym → Nat) (d : Nat)
    (hlen : ∀ p a, T.At p a → len a = d + p.length) :
    (T.syms.map fun a => f a * len a).sum = cost f T + d * weight f T := by
  induction T generalizing d with
  | leaf a =>
    have := hlen [] a (at_leaf.mpr ⟨rfl, rfl⟩)
    simp [syms, cost, this, Nat.mul_comm]
  | node l r ihl ihr =>
    have hl := ihl (d + 1) fun p a hp => by
      rw [hlen (false :: p) a hp, List.length_cons]
      omega
    have hr := ihr (d + 1) fun p a hp => by
      rw [hlen (true :: p) a hp, List.length_cons]
      omega
    rw [syms, List.map_append, List.sum_append, hl, hr, cost, weight_node]
    ring

end CodeTree

/-! ## The tree below a node -/

/-- The tree below node `n` of an arena; where a child's index is not lower, which no sound arena has (R42), it is
cut off. -/
def treeIn (ns : Vector Node 511) (n : Nat) : CodeTree :=
  if (nodeIn ns n).leaf then .leaf (nodeIn ns n).sym
  else if _h : (nodeIn ns n).left.toNat < n ∧ (nodeIn ns n).right.toNat < n then
    .node (treeIn ns (nodeIn ns n).left.toNat) (treeIn ns (nodeIn ns n).right.toNat)
  else .leaf (nodeIn ns n).sym
termination_by n
decreasing_by
  · exact _h.1
  · exact _h.2

/-- The tree below `NODE[n]`. -/
def treeAt (s : State) (n : Nat) : CodeTree := treeIn s.node n

theorem treeAt_of_leaf {s : State} {n : Nat} (h : (nodeAt s n).leaf = true) :
    treeAt s n = .leaf (nodeAt s n).sym := by
  rw [treeAt, treeIn]
  exact if_pos h

theorem treeAt_of_internal {s : State} {n : Nat} (h : (nodeAt s n).leaf = false)
    (hlt : (nodeAt s n).left.toNat < n ∧ (nodeAt s n).right.toNat < n) :
    treeAt s n = .node (treeAt s (nodeAt s n).left.toNat) (treeAt s (nodeAt s n).right.toNat) := by
  rw [treeAt, treeIn]
  exact (if_neg (Bool.eq_false_iff.mp h)).trans (dif_pos hlt)

/-- R120: at a leaf the walk writes the path taken; at an internal node it goes left, then right. -/
theorem walk_succ (s : State) (fuel n : Nat) (path : Bits) (code : Vector Code 256) :
    walk s.node (fuel + 1) n path code =
      if (nodeAt s n).leaf then code.set (nodeAt s n).sym.toNat (packBits path) (nodeAt s n).sym.isLt
      else walk s.node fuel (nodeAt s n).right.toNat (path ++ [true])
        (walk s.node fuel (nodeAt s n).left.toNat (path ++ [false]) code) := rfl

theorem walk_leaf {s : State} {fuel n : Nat} {path : Bits} {code : Vector Code 256} (h : (nodeAt s n).leaf = true) :
    { s with code := walk s.node (fuel + 1) n path code } =
      setCode (nodeAt s n).sym (packBits path) { s with code := code } := by
  rw [walk_succ, if_pos h]
  rfl

namespace Forest

variable {s : State} (h : Forest s)
include h

theorem treeAt_leaf {i : Nat} (hi : i < s.nleaf.toNat) : treeAt s i = .leaf (nodeAt s i).sym :=
  treeAt_of_leaf (h.leaf i hi).1

theorem treeAt_internal {k : Nat} (hge : s.nleaf.toNat ≤ k) (hk : k < s.nnode.toNat) :
    treeAt s k = .node (treeAt s (nodeAt s k).left.toNat) (treeAt s (nodeAt s k).right.toNat) := by
  obtain ⟨hleaf, -, hl, hr, -⟩ := h.internal k hge hk
  exact treeAt_of_internal hleaf ⟨hl, hr⟩

/-- An induction over the nodes in use, from the leaves up. -/
theorem node_induct {P : Nat → Prop} (hleaf : ∀ i, i < s.nleaf.toNat → P i)
    (hinternal : ∀ k, s.nleaf.toNat ≤ k → k < s.nnode.toNat → P (nodeAt s k).left.toNat →
      P (nodeAt s k).right.toNat → P k) {n : Nat} (hn : n < s.nnode.toNat) : P n := by
  induction n using Nat.strong_induction_on with
  | _ n ih =>
    by_cases hlt : n < s.nleaf.toNat
    · exact hleaf n hlt
    · have hge := Nat.le_of_not_lt hlt
      obtain ⟨-, -, hl, hr, -⟩ := h.internal n hge hn
      exact hinternal n hge hn (ih _ hl (hl.trans hn)) (ih _ hr (hr.trans hn))

/-- R119: a path passes only internal nodes, each of a lower index than the one before. -/
theorem depth_treeAt_le {n : Nat} (hn : n < s.nnode.toNat) : (treeAt s n).depth ≤ n + 1 - s.nleaf.toNat := by
  refine h.node_induct (P := fun n => (treeAt s n).depth ≤ n + 1 - s.nleaf.toNat) (fun i hi => ?_)
    (fun k hge hk hl hr => ?_) hn
  · rw [h.treeAt_leaf hi]
    exact Nat.zero_le _
  · obtain ⟨-, -, hllt, hrlt, -⟩ := h.internal k hge hk
    rw [h.treeAt_internal hge hk, CodeTree.depth]
    omega

/-- R120: a path of the arena is a path of the tree. -/
theorem leadsTo_iff {n : Nat} (hn : n < s.nnode.toNat) {p : Bits} {a : Sym} :
    LeadsTo s n p a ↔ (treeAt s n).At p a := by
  induction p generalizing n with
  | nil =>
    rw [LeadsTo]
    by_cases hlt : n < s.nleaf.toNat
    · simp [h.treeAt_leaf hlt, h.used n hn, h.leaf n hlt]
    · have hge := Nat.le_of_not_lt hlt
      simp [h.treeAt_internal hge hn, h.internal n hge hn]
  | cons b p ih =>
    rw [LeadsTo]
    by_cases hlt : n < s.nleaf.toNat
    · simp [h.treeAt_leaf hlt, h.leaf n hlt]
    · have hge := Nat.le_of_not_lt hlt
      obtain ⟨hleaf, -, hl, hr, -⟩ := h.internal n hge hn
      have hchild : child s n b < s.nnode.toNat := by
        cases b
        · exact hl.trans hn
        · exact hr.trans hn
      rw [h.treeAt_internal hge hn, CodeTree.at_node_cons, ih hchild]
      simp only [h.used n hn, hleaf, true_and]
      cases b <;> rfl

/-- R120: the walk from a node writes to each symbol below it the path taken, and to no other symbol. -/
theorem codeAt_walk {fuel n : Nat} (hn : n < s.nnode.toNat) (hfuel : (treeAt s n).depth < fuel) (path : Bits)
    (code : Vector Code 256) :
    (∀ a, a ∉ (treeAt s n).syms →
      codeAt { s with code := walk s.node fuel n path code } a = codeAt { s with code := code } a) ∧
    ((treeAt s n).syms.Nodup → ∀ p a, (treeAt s n).At p a →
      codeAt { s with code := walk s.node fuel n path code } a = packBits (path ++ p)) := by
  induction fuel generalizing n path code with
  | zero => exact absurd hfuel (Nat.not_lt_zero _)
  | succ fuel ih =>
    by_cases hlt : n < s.nleaf.toNat
    · rw [h.treeAt_leaf hlt, walk_leaf (h.leaf n hlt).1]
      refine ⟨fun a ha => codeAt_setCode_ne (by simpa [CodeTree.syms] using ha) _ _, fun _ p a hp => ?_⟩
      obtain ⟨rfl, rfl⟩ := CodeTree.at_leaf.mp hp
      rw [codeAt_setCode_self, List.append_nil]
    · have hge := Nat.le_of_not_lt hlt
      obtain ⟨hleaf, -, hl, hr, -⟩ := h.internal n hge hn
      rw [h.treeAt_internal hge hn] at hfuel ⊢
      rw [CodeTree.depth] at hfuel
      rw [walk_succ, if_neg (by simp [hleaf])]
      obtain ⟨hlkept, hlpath⟩ := ih (hl.trans hn) (by omega) (path ++ [false]) code
      obtain ⟨hrkept, hrpath⟩ := ih (hr.trans hn) (by omega) (path ++ [true])
        (walk s.node fuel (nodeAt s n).left.toNat (path ++ [false]) code)
      refine ⟨fun a ha => ?_, fun hnd p a hp => ?_⟩
      · rw [CodeTree.syms, List.mem_append, not_or] at ha
        rw [hrkept a ha.2, hlkept a ha.1]
      · obtain ⟨hndl, hndr, hdisj⟩ := List.nodup_append'.mp hnd
        match p, hp with
        | false :: p, hp =>
          have hleft : (treeAt s (nodeAt s n).left.toNat).At p a := hp
          rw [hrkept a (hdisj hleft.mem_syms), hlpath hndl p a hleft, List.append_assoc]
          rfl
        | true :: p, hp =>
          rw [hrpath hndr p a hp, List.append_assoc]
          rfl

end Forest

/-- The count of a symbol as a number. -/
def countOf (s : State) (a : Sym) : Nat := (freqAt s a).toNat

/-- R118: a node's frequency is the exact sum of the counts below it. -/
theorem Forest.freq_eq_weight {u s : State} {l : List Sym} (h : Forest s) (hl : LeafPart u l s) {n : Nat}
    (hn : n < s.nnode.toNat) : (nodeAt s n).freq.toNat = (treeAt s n).weight (countOf u) := by
  refine h.node_induct (P := fun n => (nodeAt s n).freq.toNat = (treeAt s n).weight (countOf u))
    (fun i hi => ?_) (fun k hge hk hleft hright => ?_) hn
  · obtain ⟨_, e⟩ := hl.node i (hl.nleaf ▸ hi)
    rw [h.treeAt_leaf hi, e, CodeTree.weight_leaf]
    exact BitVec.toNat_setWidth_of_le (by decide)
  · rw [h.treeAt_internal hge hk, CodeTree.weight_node, ← hleft, ← hright]
    exact h.sums k hge hk

/-! ## The trees of the queue (R114) -/

namespace Joins

variable {s t : State} {a b : Nat} (h : Joins s t a b) (hs : Forest s)
include h hs

/-- A round keeps the trees below the earlier nodes. -/
theorem treeAt_eq {i : Nat} (hi : i < s.nnode.toNat) : treeAt t i = treeAt s i := by
  have ht := h.forest hs
  have hnn := h.nnode_toNat hs
  have hle := hs.nleaf_le_nnode
  refine hs.node_induct (P := fun i => treeAt t i = treeAt s i) (fun i hi => ?_) (fun k hge hk hl hr => ?_) hi
  · obtain ⟨_, e⟩ := h.node_lt (i := i) (by omega)
    rw [hs.treeAt_leaf hi, ht.treeAt_leaf (by rwa [h.nleaf]), e]
  · obtain ⟨_, e⟩ := h.node_lt hk
    rw [hs.treeAt_internal hge hk, ht.treeAt_internal (by rwa [h.nleaf]) (by omega), e]
    exact congrArg₂ _ hl hr

/-- The new tree has the two joined trees below it. -/
theorem treeAt_new : treeAt t s.nnode.toNat = .node (treeAt s a) (treeAt s b) := by
  have hle := hs.nleaf_le_nnode
  rw [(h.forest hs).treeAt_internal (by rwa [h.nleaf]) (by rw [h.nnode_toNat hs]; omega), h.new_left hs,
    h.new_right hs, h.treeAt_eq hs (h.left_lt hs), h.treeAt_eq hs (h.right_lt hs)]

/-- A sum over the queue's trees, before and after a round. -/
theorem sum_members {M : Type} [AddCommMonoid M] (F : CodeTree → M) :
    ∑ i ∈ members s.node, F (treeAt s i) = F (treeAt s a) + (F (treeAt s b) +
      ∑ i ∈ ((members s.node).erase a).erase b, F (treeAt s i)) ∧
    ∑ i ∈ members t.node, F (treeAt t i) = F (.node (treeAt s a) (treeAt s b)) +
      ∑ i ∈ ((members s.node).erase a).erase b, F (treeAt s i) := by
  constructor
  · rw [Finset.add_sum_erase _ (fun i => F (treeAt s i)) h.right_mem_erase,
      Finset.add_sum_erase _ (fun i => F (treeAt s i)) h.left_mem]
  · rw [h.members_eq hs.used_of_mem, Finset.sum_insert (nnode_notMem hs.used_of_mem), h.treeAt_new hs]
    refine congrArg _ (Finset.sum_congr rfl fun i hi => ?_)
    exact congrArg F (h.treeAt_eq hs (hs.used_of_mem i (Finset.mem_of_mem_erase (Finset.mem_of_mem_erase hi))))

end Joins

/-- The queue's trees hold the listed symbols, each once for each time it is listed. -/
def QueueHolds (l : List Sym) (s : State) : Prop :=
  ∑ i ∈ members s.node, ((treeAt s i).syms : Multiset Sym) = (l : Multiset Sym)

theorem queueHolds_stageLeaves (s : State) : QueueHolds (present s) (stageLeaves (stageClear s)) := by
  have hl := leavesAre_stageLeaves s
  have hleaf : ∀ i ∈ Finset.range (present s).length,
      ((treeAt (stageLeaves (stageClear s)) i).syms : Multiset Sym) = ({(present s)[i]?.getD 0#8} : Multiset Sym) := by
    intro i hi
    have hi := Finset.mem_range.mp hi
    rw [treeAt_of_leaf (by rw [hl.node_of_lt hi]; rfl), hl.node_of_lt hi]
    simp [CodeTree.syms, leafNode, hi]
  rw [QueueHolds, hl.members_eq, Finset.sum_congr rfl hleaf]
  induction present s using List.reverseRecOn with
  | nil => rfl
  | append_singleton l a ih =>
    rw [List.length_append, List.length_singleton, Finset.sum_range_succ, ← Multiset.coe_add, ← ih]
    refine congrArg₂ _ (Finset.sum_congr rfl fun i hi => ?_) (by simp)
    rw [List.getElem?_append_left (Finset.mem_range.mp hi)]

theorem queueHolds_grown {s : State} (hpos : 0 < (present s).length) : QueueHolds (present s) (grown s) := by
  refine grown_induct hpos (queueHolds_stageLeaves s) fun u t a b hf hj hu => ?_
  obtain ⟨hbefore, hafter⟩ := hj.sum_members hf fun T => (T.syms : Multiset Sym)
  rw [QueueHolds, hafter, ← hu, hbefore, CodeTree.syms, ← Multiset.coe_add, add_assoc]

end Sys2Proof.Proofs

/-! SUPPORT. What BUILD leaves (41_tree_builder.md R110 to R122): the tree and its root, the codes, and that they
depend on FREQ alone. -/

namespace Sys2Proof.Proofs

open Sys2Proof.Machine Sys2Proof.Safety

/-! ## The built tree -/

/-- The tree below the root. -/
def rootTree (t : State) : CodeTree := treeAt t t.root.idx.toNat

/-- `t` holds the tree of the symbols present in `s`, with the counts of `s` (R113 to R116). -/
structure Built (s t : State) : Prop where
  forest : Forest t
  leaves : LeafPart s (present s) t
  nnode : t.nnode.toNat + 1 = 2 * t.nleaf.toNat
  root_valid : t.root.v = true
  root_last : t.root.idx.toNat + 1 = t.nnode.toNat
  queued_iff : ∀ i, i < t.nnode.toNat → ((nodeAt t i).inq = true ↔ i + 1 = t.nnode.toNat)
  syms_perm : (rootTree t).syms.Perm (present s)

/-- The forest is a matter of NODE, NLEAF and NNODE. -/
theorem Forest.with_root_code {s : State} (h : Forest s) (r : Root) (c : Vector Code 256) :
    Forest { s with root := r, code := c } where
  nleaf_pos := h.nleaf_pos
  nleaf_le := h.nleaf_le
  nleaf_le_nnode := h.nleaf_le_nnode
  size := h.size
  used := h.used
  unused := h.unused
  leaf := h.leaf
  sorted := h.sorted
  internal := h.internal
  sums := h.sums
  queued := h.queued
  parent_unique := h.parent_unique
  sum_lt := h.sum_lt

theorem nleaf_buildTree_ne_zero {s : State} (hpos : 0 < (present s).length) : (buildTree s).nleaf ≠ 0#9 := by
  intro e
  have hnleaf := buildTree_nleaf s
  rw [e] at hnleaf
  exact Nat.ne_of_lt hpos hnleaf

/-- R116: the root is the one member left in the queue. -/
theorem members_grown {s : State} (hpos : 0 < (present s).length) :
    members (grown s).node = {(buildTree s).root.idx.toNat} := by
  obtain ⟨hf, hone⟩ := forest_grown hpos
  obtain ⟨r, c, hbuilt⟩ := buildTree_arena s
  obtain ⟨-, -, -, -, hroot⟩ := arenaSound_buildTree s
  obtain ⟨-, hlast, -⟩ := hroot (nleaf_buildTree_ne_zero hpos)
  have hnnode : (buildTree s).nnode = (grown s).nnode := by rw [hbuilt]
  rw [hnnode] at hlast
  ext i
  rw [hf.mem_iff_last hone, Finset.mem_singleton]
  omega

theorem rootTree_buildTree (s : State) :
    rootTree (buildTree s) = treeAt (grown s) (buildTree s).root.idx.toNat := by
  obtain ⟨r, c, hbuilt⟩ := buildTree_arena s
  rw [rootTree, hbuilt]
  rfl

theorem built_buildTree {s : State} (hpos : 0 < (present s).length) : Built s (buildTree s) := by
  obtain ⟨r, c, hbuilt⟩ := buildTree_arena s
  have hleaves : LeafPart s (present s) (buildTree s) := by
    rw [hbuilt]
    exact ⟨(leafPart_grown hpos).nleaf, (leafPart_grown hpos).node⟩
  have hnz := nleaf_buildTree_ne_zero hpos
  obtain ⟨⟨-, hnnode, -, -⟩, -, -, -, hroot⟩ := arenaSound_buildTree s
  obtain ⟨hvalid, hlast, hqueued⟩ := hroot hnz
  rw [if_neg hnz] at hnnode
  have hnleaf := hleaves.nleaf
  refine ⟨hbuilt ▸ (forest_grown hpos).1.with_root_code r c, hleaves, by omega, hvalid, hlast, hqueued, ?_⟩
  have hholds := queueHolds_grown hpos
  rw [QueueHolds, members_grown hpos, Finset.sum_singleton, ← rootTree_buildTree] at hholds
  exact Multiset.coe_eq_coe.mp hholds

namespace Built

variable {s t : State} (h : Built s t)
include h

theorem root_lt : t.root.idx.toNat < t.nnode.toNat := by
  have := h.root_last
  omega

theorem weight_rootTree : (rootTree t).weight (countOf s) = totalCount s := by
  rw [CodeTree.weight, (h.syms_perm.map _).sum_eq, sum_present]
  · rfl
  · intro a ha
    rw [countOf, ha]
    rfl

theorem syms_nodup : (rootTree t).syms.Nodup := h.syms_perm.nodup_iff.mpr (present_nodup s)

theorem mem_syms_iff {a : Sym} : a ∈ (rootTree t).syms ↔ freqAt s a ≠ 0#32 := by
  rw [h.syms_perm.mem_iff, mem_present]

/-- R119: no path is longer than 255 bits. -/
theorem depth_le : (rootTree t).depth ≤ 255 := by
  have hdepth := h.forest.depth_treeAt_le h.root_lt
  have := h.forest.nleaf_le
  have := h.nnode
  have := h.root_last
  rw [rootTree]
  omega

end Built

/-- Settles O34: the sums of the internal nodes add up at the root, which the last round left alone in the queue. -/
theorem buildRootCountsEverything : Obligations.BuildRootCountsEverything := by
  rintro s t hs h ⟨a, ha⟩
  obtain ⟨r, rfl, hfreq⟩ := exists_buildTree hs h
  rw [totalCount, ← hfreq, ← totalCount]
  rw [← hfreq] at ha
  have hb : Built r (buildTree r) := built_buildTree (length_present_pos ha)
  have hlast := hb.root_last
  have hnnode := hb.nnode
  have htotal := (hb.forest.freq_eq_weight hb.leaves hb.root_lt).trans hb.weight_rootTree
  refine ⟨hb.root_valid, hlast, by omega, fun i _ => ?_, htotal, htotal ▸ BitVec.isLt _⟩
  by_cases hi : i < (buildTree r).nnode.toNat
  · rw [hb.queued_iff i hi]
    omega
  · rw [hb.forest.unused i (Nat.le_of_not_lt hi)]
    exact ⟨fun e => (nomatch e), fun e => by omega⟩

/-! ## The codes of tables with fewer than two symbols (R116, R117) -/

/-- Before the code stage every code is empty (R111). -/
theorem codeAt_stageRoot_grown (s : State) (a : Sym) : codeAt (stageRoot (grown s)) a = Code.empty := by
  obtain ⟨r, hr⟩ := stageRoot_frame (grown s)
  obtain ⟨n, l, m, hg⟩ := grown_frame s
  rw [hr, hg]
  exact codeAt_clearCode (clearTree s) a

theorem nleaf_stageRoot_grown (s : State) : (stageRoot (grown s)).nleaf.toNat = (present s).length := by
  obtain ⟨r, hr⟩ := stageRoot_frame (grown s)
  rw [hr]
  exact grown_nleaf s

/-- R116: with no symbol present there is no tree and no code. -/
theorem buildTree_of_none {s : State} (h : present s = []) : (∀ i, nodeAt (buildTree s) i = Node.empty) ∧
    (buildTree s).root = Root.none ∧ (buildTree s).nleaf = 0#9 ∧ (buildTree s).nnode = 0#10 ∧
    ∀ a, codeAt (buildTree s) a = Code.empty := by
  have hnleaf : (buildTree s).nleaf = 0#9 := BitVec.eq_of_toNat_eq (by rw [buildTree_nleaf, h]; rfl)
  have hstage : (stageRoot (grown s)).nleaf = 0#9 := BitVec.eq_of_toNat_eq (by rw [nleaf_stageRoot_grown, h]; rfl)
  obtain ⟨⟨-, hnnode, -, hunused⟩, -, -, hroot, -⟩ := arenaSound_buildTree s
  rw [if_pos hnleaf] at hnnode
  refine ⟨fun i => hunused i (by omega), hroot hnleaf, hnleaf, BitVec.eq_of_toNat_eq hnnode, fun a => ?_⟩
  rw [buildTree, ← grown, stageCodes, if_pos hstage, codeAt_stageRoot_grown]

/-- The one code of a one-symbol table is the bit 0 (R117). -/
theorem codeBits_single : codeBits { len := 1#8, bits := 0#255 } = [false] := rfl

/-- With one member in the queue R114's loop runs no round (R115). -/
theorem grown_of_single {s : State} {a : Sym} (h : present s = [a]) : grown s = stageLeaves (stageClear s) := by
  have hsize := pqSize_stageLeaves s
  rw [grown, stageMerge, mergeLoop.eq_def]
  simp [hsize, h]

/-- R117: with one symbol present its leaf is the root, and its code is the bit 0. -/
theorem buildTree_of_single {s : State} {a : Sym} (h : present s = [a]) :
    nodeAt (buildTree s) 0 = leafNode a (freqAt s a) ∧ (buildTree s).root = { v := true, idx := 0#9 } ∧
    (buildTree s).nleaf = 1#9 ∧ (buildTree s).nnode = 1#10 ∧
    codeAt (buildTree s) a = { len := 1#8, bits := 0#255 } ∧
    ∀ b, b ≠ a → codeAt (buildTree s) b = Code.empty := by
  have hb : Built s (buildTree s) := built_buildTree (by simp [h])
  have hlen : (present s).length = 1 := by simp [h]
  have hnleaf := hb.leaves.nleaf
  have hnnode := hb.nnode
  have hlast := hb.root_last
  have hleaf : nodeAt (grown s) 0 = leafNode a (freqAt s a) := by
    rw [grown_of_single h, (leavesAre_stageLeaves s).node]
    simp [h]
  have hcodes : buildTree s = setCode a { len := 1#8, bits := 0#255 } (stageRoot (grown s)) := by
    have hstage := nleaf_stageRoot_grown s
    have hone : (stageRoot (grown s)).nleaf = 1#9 := BitVec.eq_of_toNat_eq (hstage.trans hlen)
    have hnode : nodeAt (stageRoot (grown s)) 0 = leafNode a (freqAt s a) := by
      obtain ⟨r, hr⟩ := stageRoot_frame (grown s)
      rw [hr]
      exact hleaf
    rw [buildTree, ← grown, stageCodes, if_neg (by simp [hone]), if_pos hone, hnode]
    rfl
  have hidx : (buildTree s).root.idx = 0#9 := BitVec.eq_of_toNat_eq (by simp; omega)
  refine ⟨(nodeAt_buildTree s 0).trans hleaf, ?_, BitVec.eq_of_toNat_eq (by simp; omega),
    BitVec.eq_of_toNat_eq (by simp; omega), ?_, fun b hb => ?_⟩
  · rw [← hidx, ← hb.root_valid]
  · rw [hcodes, codeAt_setCode_self]
  · rw [hcodes, codeAt_setCode_ne hb, codeAt_stageRoot_grown]

/-- Settles O31: the two tables on which no round is run. -/
theorem buildSmallTables : Obligations.BuildSmallTables := by
  intro s t hs h
  obtain ⟨r, rfl, hfreq⟩ := exists_buildTree hs h
  rw [← hfreq]
  refine ⟨fun hnone => buildTree_of_none (present_eq_nil hnone), fun a ha hother => ?_⟩
  obtain ⟨hnode, hroot, hnleaf, hnnode, hcode, hempty⟩ := buildTree_of_single (present_eq_singleton ha hother)
  refine ⟨?_, hroot, hnleaf, hnnode, ?_, hcode, hempty⟩
  · rw [hnode, BitVec.ofNat_toNat, leafNode]
  · rw [codeOf, hcode, codeBits_single]

/-! ## The codes of tables with two symbols or more (R119, R120) -/

/-- The codes of `t` are the paths of its tree, which holds the symbols present in `s`. -/
structure PathCodes (s t : State) : Prop where
  built : Built s t
  root_internal : t.nleaf.toNat ≤ t.root.idx.toNat
  at_codeOf : ∀ a, freqAt s a ≠ 0#32 → (rootTree t).At (codeOf t a) a
  empty : ∀ a, freqAt s a = 0#32 → codeAt t a = Code.empty
  canonical : ∀ a, CodeCanonical (codeAt t a)

/-- R120: a tree of two leaves or more, whose codes the walk from its root wrote over empty ones. -/
theorem Built.pathCodes {s t : State} (h : Built s t) (htwo : 2 ≤ t.nleaf.toNat) {code : Vector Code 256}
    (hcleared : ∀ a, codeAt { t with code := code } a = Code.empty)
    (hwalk : t.code = walk t.node Config.nsym t.root.idx.toNat [] code) : PathCodes s t := by
  have hnnode := h.nnode
  have hlast := h.root_last
  have hdepth := h.depth_le
  obtain ⟨hkept, hpath⟩ := h.forest.codeAt_walk h.root_lt (fuel := Config.nsym) (Nat.lt_succ_of_le hdepth) [] code
  rw [← hwalk] at hkept hpath
  have hempty (a : Sym) (ha : freqAt s a = 0#32) : codeAt t a = Code.empty :=
    (hkept a fun hmem => h.mem_syms_iff.mp hmem ha).trans (hcleared a)
  have hcode {p : Bits} {a : Sym} (hp : (rootTree t).At p a) : codeOf t a = p ∧ CodeCanonical (codeAt t a) := by
    have hlen := hp.length_le.trans hdepth
    have hpacked : codeAt t a = packBits p := hpath h.syms_nodup p a hp
    rw [codeOf, hpacked]
    exact ⟨codeBits_packBits p hlen, codeCanonical_packBits p hlen⟩
  have hat {a : Sym} (ha : freqAt s a ≠ 0#32) : ∃ p, (rootTree t).At p a :=
    CodeTree.mem_syms_iff.mp (h.mem_syms_iff.mpr ha)
  refine ⟨h, by omega, fun a ha => ?_, hempty, fun a => ?_⟩
  · obtain ⟨p, hp⟩ := hat ha
    rwa [(hcode hp).1]
  · by_cases ha : freqAt s a = 0#32
    · rw [hempty a ha]
      exact codeCanonical_empty
    · obtain ⟨p, hp⟩ := hat ha
      exact (hcode hp).2

/-- The code stage on two leaves or more is the walk. -/
theorem stageCodes_of_two {s : State} (h : 2 ≤ s.nleaf.toNat) :
    stageCodes s = { s with code := walk s.node Config.nsym s.root.idx.toNat [] s.code } := by
  rw [stageCodes, if_neg fun e => by simp [e] at h, if_neg fun e => by simp [e] at h]

theorem pathCodes_buildTree {s : State} (htwo : 2 ≤ (present s).length) : PathCodes s (buildTree s) := by
  have hb : Built s (buildTree s) := built_buildTree (by omega)
  have hcleared := codeAt_stageRoot_grown s
  have hstage := nleaf_stageRoot_grown s
  have htree : buildTree s = stageCodes (stageRoot (grown s)) := rfl
  rw [stageCodes_of_two (by omega)] at htree
  generalize stageRoot (grown s) = r at hcleared hstage htree
  rw [htree] at hb ⊢
  exact hb.pathCodes (hstage ▸ htwo) (code := r.code) hcleared rfl

namespace PathCodes

variable {s t : State} (h : PathCodes s t)
include h

theorem rootTree_eq_node : ∃ l r, rootTree t = .node l r :=
  ⟨_, _, h.built.forest.treeAt_internal h.root_internal h.built.root_lt⟩

/-- A path of the tree is its symbol's code, and has at least one bit. -/
theorem at_iff {p : Bits} {a : Sym} : (rootTree t).At p a ↔ freqAt s a ≠ 0#32 ∧ codeOf t a = p := by
  constructor
  · intro hp
    have ha := h.built.mem_syms_iff.mp hp.mem_syms
    exact ⟨ha, (h.at_codeOf a ha).path_unique h.built.syms_nodup hp⟩
  · rintro ⟨ha, rfl⟩
    exact h.at_codeOf a ha

theorem ne_nil_of_at {p : Bits} {a : Sym} (hp : (rootTree t).At p a) : p ≠ [] := by
  rintro rfl
  obtain ⟨l, r, e⟩ := h.rootTree_eq_node
  rw [e] at hp
  exact CodeTree.at_node_nil hp

/-- R120: a symbol's code is a path of the arena. -/
theorem leadsTo_codeOf {a : Sym} (ha : freqAt s a ≠ 0#32) : LeadsTo t t.root.idx.toNat (codeOf t a) a :=
  (h.built.forest.leadsTo_iff h.built.root_lt).mpr (h.at_codeOf a ha)

/-- R122 (c): a symbol has a code exactly when it is present. -/
theorem hasCode_iff (a : Sym) : hasCode t a = true ↔ freqAt s a ≠ 0#32 := by
  rw [Machine.hasCode_iff]
  constructor
  · intro hlen ha
    rw [h.empty a ha] at hlen
    exact hlen rfl
  · intro ha hlen
    refine h.ne_nil_of_at (h.at_codeOf a ha) (List.eq_nil_of_length_eq_zero ?_)
    rw [codeOf, codeBits_length, hlen]
    rfl

/-- R122 (a). -/
theorem prefixFree : PrefixFree t := fun a b hne ha hb hprefix =>
  hne (((h.at_codeOf a ((h.hasCode_iff a).mp ha)).eq_of_prefix
    (h.at_codeOf b ((h.hasCode_iff b).mp hb)) hprefix).2)

end PathCodes

/-- Settles O35: the walk writes the paths of the tree, which are paths of the arena. -/
theorem buildCodesArePaths : Obligations.BuildCodesArePaths := by
  intro s t hs h htwo
  obtain ⟨r, rfl, hfreq⟩ := exists_buildTree hs h
  have hp : PathCodes r (buildTree r) := pathCodes_buildTree (buildTree_nleaf r ▸ htwo)
  rw [← hfreq]
  generalize buildTree r = t at hp ⊢
  exact ⟨fun a ha => ⟨hp.leadsTo_codeOf ha, hp.canonical a⟩, hp.empty⟩

/-! ## Tables of any size (R122) -/

/-- The table of one symbol alone. -/
theorem hasCode_of_single {s : State} {a : Sym} (h : present s = [a]) (b : Sym) :
    hasCode (buildTree s) b = true ↔ b = a := by
  obtain ⟨-, -, -, -, hcode, hempty⟩ := buildTree_of_single h
  rw [Machine.hasCode_iff]
  constructor
  · intro hb
    by_contra hne
    rw [hempty b hne] at hb
    exact hb rfl
  · rintro rfl
    simp [hcode]

/-- The three kinds of table. -/
theorem present_cases (s : State) : present s = [] ∨ (∃ a, present s = [a]) ∨ 2 ≤ (present s).length := by
  match present s with
  | [] => exact .inl rfl
  | [a] => exact .inr (.inl ⟨a, rfl⟩)
  | _ :: _ :: _ => exact .inr (.inr (by simp))

/-- R122 (c): a built table has codes for the symbols present. -/
theorem hasCode_buildTree (s : State) (a : Sym) : hasCode (buildTree s) a = true ↔ freqAt s a ≠ 0#32 := by
  rcases present_cases s with h | ⟨b, h⟩ | h
  · obtain ⟨-, -, -, -, hempty⟩ := buildTree_of_none h
    rw [Machine.hasCode_iff, hempty a, ← mem_present, h]
    simp [Code.empty]
  · rw [hasCode_of_single h, ← mem_present, h, List.mem_singleton]
  · exact (pathCodes_buildTree h).hasCode_iff a

/-- R122 (a): a built table is PrefixFree. -/
theorem prefixFree_buildTree (s : State) : PrefixFree (buildTree s) := by
  rcases present_cases s with h | ⟨c, h⟩ | h
  · intro a b _ ha
    rw [hasCode_buildTree, ← mem_present, h] at ha
    exact absurd ha List.not_mem_nil
  · intro a b hne ha hb
    rw [hasCode_of_single h] at ha hb
    exact absurd (ha.trans hb.symm) hne
  · exact (pathCodes_buildTree h).prefixFree

/-- Settles O37: two symbols or more have the paths of a tree, one symbol has no other beside it. -/
theorem builtTableIsPrefixFreeAndCovers : Obligations.BuiltTableIsPrefixFreeAndCovers := by
  intro s t hs h
  obtain ⟨r, rfl, hfreq⟩ := exists_buildTree hs h
  rw [← hfreq]
  exact ⟨prefixFree_buildTree r, hasCode_buildTree r⟩

/-- Settles O38: a tree of depth up to 255 has a path at the start of every such sequence, and paths are no prefixes
of each other. -/
theorem builtTableIsComplete : Obligations.BuiltTableIsComplete := by
  intro s t hs h htwo bs hlen
  obtain ⟨r, rfl, -⟩ := exists_buildTree hs h
  have hp : PathCodes r (buildTree r) := pathCodes_buildTree (buildTree_nleaf r ▸ htwo)
  obtain ⟨p, a, hat, hprefix⟩ := (rootTree (buildTree r)).exists_at_prefix (hlen ▸ hp.built.depth_le)
  obtain ⟨ha, rfl⟩ := hp.at_iff.mp hat
  refine ⟨a, ⟨(hp.hasCode_iff a).mpr ha, hprefix⟩, fun b hb hbs => ?_⟩
  have hatb := hp.at_codeOf b ((hp.hasCode_iff b).mp hb)
  rcases List.prefix_or_prefix_of_prefix hbs hprefix with hle | hle
  · exact (hatb.eq_of_prefix hat hle).2
  · exact (hat.eq_of_prefix hatb hle).2.symm

/-- R36, R116: a built state has a root exactly when a symbol is present. -/
theorem rootv_buildTree (s : State) : rootv (buildTree s) = true ↔ ∃ a : Sym, freqAt s a ≠ 0#32 := by
  constructor
  · intro hroot
    by_contra hnone
    push Not at hnone
    obtain ⟨-, hroot', -⟩ := buildTree_of_none (present_eq_nil hnone)
    rw [rootv, hroot'] at hroot
    cases hroot
  · rintro ⟨a, ha⟩
    exact (built_buildTree (length_present_pos ha)).root_valid

/-- R36: it has a code exactly when a symbol is present. -/
theorem tempty_buildTree (s : State) : tempty (buildTree s) = true ↔ ∀ a : Sym, freqAt s a = 0#32 := by
  rw [tempty_iff_hasCode]
  refine forall_congr' fun a => ?_
  rw [← Bool.not_eq_true, hasCode_buildTree, not_not]

/-- Settles O30: BUILD has no rule that faults; the root is valid and codes exist exactly when a symbol is present. -/
theorem buildCompletes : Obligations.BuildCompletes := by
  refine ⟨rfl, onlyWordOfOp (by decide),
    badPhaseBut_of_legalIn (by simp) rfl fun q => by simp [legalIn], fun s hs => ?_⟩
  obtain ⟨t, ht⟩ := exec_next .build s
  have hframe := unchangedBut_buildTree (countWord s)
  have heq : t = buildTree (countWord s) := by simpa [exec_build hs] using ht.symm
  have hfault : t.fault = s.fault := heq ▸ hframe .fault (by simp [writesOf])
  have hcmdcnt : t.cmdcnt = s.cmdcnt + 1#32 := heq ▸ hframe .cmdcnt (by simp [writesOf])
  obtain ⟨r, rfl, hfreq⟩ := exists_buildTree hs ht
  rw [← hfreq]
  exact ⟨_, ht, hfault.trans hs.1, hcmdcnt, rootv_buildTree r, tempty_buildTree r,
    exec_frame ht (.inl hfault) (by simp [writesOf])⟩

end Sys2Proof.Proofs

/-! SUPPORT. BUILD as a function of FREQ (41_tree_builder.md R121), the decoder on a built table (44_decoder.md R161),
and the round trip from reset (R158). -/

namespace Sys2Proof.Proofs

open Sys2Proof.Machine Sys2Proof.Safety

/-! ## BUILD as a function of FREQ (R121) -/

/-- The elements of `u` that BUILD neither reads nor writes, with the others of `s` (R22). -/
def graft (u s : State) : State :=
  { u with freq := s.freq, node := s.node, root := s.root, nleaf := s.nleaf, nnode := s.nnode, code := s.code }

/-- What BUILD writes is taken from `s`. -/
theorem graft_written (u s : State) : (graft u s).node = s.node ∧ (graft u s).root = s.root ∧
    (graft u s).nleaf = s.nleaf ∧ (graft u s).nnode = s.nnode ∧ (graft u s).code = s.code :=
  ⟨rfl, rfl, rfl, rfl, rfl⟩

theorem leavesFrom_graft (u : State) (fs : List Freq) (k : Nat) (s : State) :
    leavesFrom fs k (graft u s) = graft u (leavesFrom fs k s) := by
  induction fs generalizing k s with
  | nil => rfl
  | cons f fs ih =>
    rw [leavesFrom, leavesFrom, ← ih]
    refine congrArg _ ?_
    rw [leafStep, leafStep]
    split <;> rfl

theorem mergeRound_graft (u s : State) : mergeRound (graft u s) = graft u (mergeRound s) := by
  have hnode : (graft u s).node = s.node := rfl
  rw [mergeRound, mergeRound, hnode]
  cases extractMin s.node with
  | none => rfl
  | some first =>
    obtain ⟨a, ns⟩ := first
    simp only
    cases extractMin ns with
    | none => rfl
    | some second => rfl

theorem mergeLoop_graft (u : State) (fuel : Nat) (s : State) :
    mergeLoop fuel (graft u s) = graft u (mergeLoop fuel s) := by
  induction fuel generalizing s with
  | zero => rfl
  | succ fuel ih =>
    have hnode : (graft u s).node = s.node := rfl
    rw [mergeLoop, mergeLoop, hnode, mergeRound_graft, ih]
    split <;> rfl

theorem stageRoot_graft (u s : State) : stageRoot (graft u s) = graft u (stageRoot s) := by
  have hnleaf : (graft u s).nleaf = s.nleaf := rfl
  rw [stageRoot, stageRoot, hnleaf]
  split <;> rfl

theorem stageCodes_graft (u s : State) : stageCodes (graft u s) = graft u (stageCodes s) := by
  have hnleaf : (graft u s).nleaf = s.nleaf := rfl
  rw [stageCodes, stageCodes, hnleaf]
  split
  · rfl
  · split <;> rfl

/-- R121: BUILD reads FREQ alone, and what else it reads it has written. -/
theorem buildTree_graft {s u : State} (h : u.freq = s.freq) : buildTree u = graft u (buildTree s) := by
  have hclear : stageClear u = graft u (stageClear s) := by
    rw [stageClear, stageClear, graft, clearCode, clearTree, clearCode, clearTree, ← h]
  have hleaves : stageLeaves (stageClear u) = graft u (stageLeaves (stageClear s)) := by
    have hfreq : (graft u (stageClear s)).freq = (stageClear s).freq := rfl
    rw [hclear, stageLeaves, hfreq, leavesFrom_graft]
    rfl
  rw [buildTree, hleaves, stageMerge, mergeLoop_graft, stageRoot_graft, stageCodes_graft]
  rfl

/-- Settles O36: with equal counts BUILD writes the same to both states; a built state keeps its counts. -/
theorem buildDependsOnFreqAlone : Obligations.BuildDependsOnFreqAlone := by
  have same {s s' t t' : State} (hs : Ready .idle s) (hs' : Ready .idle s') (hfreq : s.freq = s'.freq)
      (ht : exec .build s = .next t) (ht' : exec .build s' = .next t') :
      t.node = t'.node ∧ t.root = t'.root ∧ t.nleaf = t'.nleaf ∧ t.nnode = t'.nnode ∧ t.code = t'.code := by
    obtain rfl : buildTree (countWord s) = t := by simpa [exec_build hs] using ht
    obtain rfl : buildTree (countWord s') = t' := by simpa [exec_build hs'] using ht'
    have hgraft : buildTree (countWord s) = graft (countWord s) (buildTree (countWord s')) := buildTree_graft hfreq
    rw [hgraft]
    exact graft_written _ _
  refine ⟨fun s s' t t' => same, fun s t u hs ht hu => ?_⟩
  obtain ⟨-, -, -, hbuild⟩ := buildCompletes
  obtain ⟨t', ht', hfault, -, -, -, hframe⟩ := hbuild s hs
  obtain rfl : t = t' := by simpa [ht] using ht'
  have hphase : t.phase = s.phase := hframe .phase (by simp)
  have hready : Ready .idle t := ⟨hfault, hphase.trans hs.2⟩
  obtain ⟨u', hu', -, -, -, -, hframe'⟩ := hbuild t hready
  obtain rfl : u = u' := by simpa [hu] using hu'
  obtain ⟨hnode, hroot, hnleaf, hnnode, hcode⟩ := same hready hs (hframe .freq (by simp)) hu ht
  intro e he
  cases e
  case node => exact hnode
  case root => exact hroot
  case nleaf => exact hnleaf
  case nnode => exact hnnode
  case code => exact hcode
  case cmdcnt => simp at he
  all_goals exact hframe' _ (by simp)

/-! ## The decoder on a built table (R161) -/

namespace PathCodes

variable {s t : State} (h : PathCodes s t)
include h

/-- Code `q` holds exactly the path of the symbol it equals the code of. -/
theorem codeAt_eq_iff {q : Code} (hq : CodeCanonical q) (hne : q.len ≠ 0#8) {a : Sym} :
    codeAt t a = q ↔ (rootTree t).At (codeBits q) a := by
  rw [h.at_iff, codeOf, codeBits_inj (h.canonical a) hq]
  refine ⟨fun e => ⟨fun ha => hne ?_, e⟩, fun e => e.2⟩
  rw [← e, h.empty a ha]
  rfl

/-- One bit from an internal node of the tree, with the path to the node in the buffer (R161). -/
theorem bitDecodes_child {cur : Nat} {q : Code} (hcur : cur < t.nnode.toNat) (hinternal : t.nleaf.toNat ≤ cur)
    (hq : CodeCanonical q)
    (hpath : ∀ p a, (treeAt t cur).At p a ↔ (rootTree t).At (codeBits q ++ p) a) (b : Bool) :
    q.len ≠ 255#8 ∧ CodeCanonical (codeSnoc q b) ∧
    (∀ p a, (treeAt t (child t cur b)).At p a ↔ (rootTree t).At (codeBits (codeSnoc q b) ++ p) a) ∧
    ((nodeAt t (child t cur b)).leaf = true →
      BitDecodes t.code q b [(nodeAt t (child t cur b)).sym] Code.empty) ∧
    ((nodeAt t (child t cur b)).leaf = false → child t cur b < t.nnode.toNat →
      t.nleaf.toNat ≤ child t cur b → BitDecodes t.code q b [] (codeSnoc q b)) := by
  have hnode := h.built.forest.treeAt_internal hinternal hcur
  have hchild (p : Bits) (a : Sym) : (treeAt t (child t cur b)).At p a ↔ (treeAt t cur).At (b :: p) a := by
    rw [hnode, CodeTree.at_node_cons]
    cases b <;> rfl
  obtain ⟨p₀, a₀, hp₀⟩ : ∃ p a, (treeAt t (child t cur b)).At p a := by
    obtain ⟨p, a, hp, -⟩ := (treeAt t (child t cur b)).exists_at_prefix
      (bs := List.replicate (treeAt t (child t cur b)).depth false) (by simp)
    exact ⟨p, a, hp⟩
  have hroot₀ := (hpath _ _).mp ((hchild p₀ a₀).mp hp₀)
  have hl : q.len ≠ 255#8 := fun e => by
    have hlen := hroot₀.length_le.trans h.built.depth_le
    simp [e] at hlen
  have ht : tempty t = false :=
    tempty_eq_false ((Machine.hasCode_iff t a₀).mp ((h.hasCode_iff a₀).mpr (h.at_iff.mp hroot₀).1))
  have hq' := codeCanonical_codeSnoc hq b hl
  have hne := codeSnoc_len_ne_zero hl b
  have hpath' (p : Bits) (a : Sym) :
      (treeAt t (child t cur b)).At p a ↔ (rootTree t).At (codeBits (codeSnoc q b) ++ p) a := by
    rw [hchild, hpath, codeBits_codeSnoc q b hl, List.append_assoc, List.singleton_append]
  have hmatch (a : Sym) : codeAt t a = codeSnoc q b ↔ (treeAt t (child t cur b)).At [] a := by
    rw [h.codeAt_eq_iff hq' hne, hpath', List.append_nil]
  refine ⟨hl, hq', hpath', fun hleaf => ?_, fun _ hlt hge => ?_⟩
  · refine bitDecodes_of_oneMatch ht hl fun a => ?_
    rw [hmatch, treeAt_of_leaf hleaf, CodeTree.at_leaf]
    exact ⟨fun e => e.2.symm, fun e => ⟨rfl, e.symm⟩⟩
  · refine bitDecodes_of_noMatch ht hl fun a ha => ?_
    have := (hmatch a).mp ha
    rw [h.built.forest.treeAt_internal hge hlt] at this
    exact CodeTree.at_node_nil this

/-- R161: from an internal node, with the path to it in the buffer, the bits emit what the walk emits. -/
theorem decodes_treeDecode (bs : Bits) {cur : NodeIdx} {q : Code} (hcur : cur.toNat < t.nnode.toNat)
    (hinternal : t.nleaf.toNat ≤ cur.toNat) (hq : CodeCanonical q) (hroot : q.len = 0#8 ↔ cur = t.root.idx)
    (hpath : ∀ p a, (treeAt t cur.toNat).At p a ↔ (rootTree t).At (codeBits q ++ p) a) :
    ∃ q', Decodes t.code q bs (treeDecode t cur bs).1 q' ∧
      (q'.len = 0#8 ↔ (treeDecode t cur bs).2 = t.root.idx) := by
  induction bs generalizing cur q with
  | nil => exact ⟨q, .nil q, hroot⟩
  | cons b bs ih =>
    obtain ⟨hl, hq', hpath', hemit, hkeep⟩ := h.bitDecodes_child hcur hinternal hq hpath b
    obtain ⟨-, -, hllt, hrlt, -⟩ := h.built.forest.internal _ hinternal hcur
    have hlast := h.built.root_last
    -- The next node of the walk.
    have hnxt : ∃ nxt : NodeIdx, nxt.toNat = child t cur.toNat b ∧ nxt.toNat < cur.toNat ∧
        treeStep t cur b = if (nodeAt t nxt.toNat).leaf then (t.root.idx, some (nodeAt t nxt.toNat).sym)
          else (nxt, none) := by
      cases b
      · exact ⟨_, rfl, hllt, rfl⟩
      · exact ⟨_, rfl, hrlt, rfl⟩
    obtain ⟨nxt, hnxt, hlt, hstep⟩ := hnxt
    rw [← hnxt] at hpath' hemit hkeep
    rw [treeDecode, hstep]
    cases hleaf : (nodeAt t nxt.toNat).leaf with
    | true =>
      obtain ⟨q'', hbits, hend⟩ := ih (cur := t.root.idx) h.built.root_lt h.root_internal codeCanonical_empty
        ⟨fun _ => rfl, fun _ => rfl⟩ fun p a => Iff.rfl
      exact ⟨q'', .cons (hemit hleaf) hbits, hend⟩
    | false =>
      have hge : t.nleaf.toNat ≤ nxt.toNat := by
        by_contra hleafIdx
        simp [(h.built.forest.leaf _ (Nat.lt_of_not_le hleafIdx)).1] at hleaf
      have hnotRoot : nxt ≠ t.root.idx := fun e => by
        rw [e] at hlt
        omega
      obtain ⟨q'', hbits, hend⟩ := ih (cur := nxt) (by omega) hge hq'
        ⟨fun e => absurd e (codeSnoc_len_ne_zero hl b), fun e => absurd e hnotRoot⟩ hpath'
      exact ⟨q'', .cons (hkeep hleaf (by omega) hge) hbits, hend⟩

end PathCodes

/-- BUILD leaves a Ready IDLE state Ready IDLE. -/
theorem ready_of_build {s t : State} (hs : Ready .idle s) (h : exec .build s = .next t) : Ready .idle t := by
  obtain ⟨-, -, -, hbuild⟩ := buildCompletes
  obtain ⟨t', ht', hfault, -, -, -, hframe⟩ := hbuild s hs
  obtain rfl : t = t' := by simpa [h] using ht'
  exact ⟨hfault, (hframe .phase (by simp)).trans hs.2⟩

/-- Settles O40: the buffer holds the path from the root to the node at which the walk stands. -/
theorem bufferDecodeIsTreeWalk : Obligations.BufferDecodeIsTreeWalk := by
  intro s t hs h htwo bs
  have hready := ready_of_build hs h
  obtain ⟨r, ht, -⟩ := exists_buildTree hs h
  have hp : PathCodes r t := ht ▸ pathCodes_buildTree (buildTree_nleaf r ▸ ht ▸ htwo)
  obtain ⟨q, hbits, hend⟩ := hp.decodes_treeDecode bs hp.built.root_lt hp.root_internal codeCanonical_empty
    ⟨fun _ => rfl, fun _ => rfl⟩ fun p a => Iff.rfl
  have hrun := hbits.runWords_decBits (s := decOpened t) (ready_decOpened hready) rfl rfl
  exact ⟨_, (runWords_encode_cons rfl (exec_decBegin hready) _).trans hrun, hready.1, rfl, hend⟩

/-! ## The round trip from reset (R158) -/

/-- R158: BUILDTABLE from reset leaves a canonical, PrefixFree table with a code for each symbol of the sequence,
and empty channels. -/
theorem runWords_pseudoBuildtable {ts : List Sym} (hcount : ∀ a : Sym, ts.count a < 2 ^ 32) :
    ∃ t, runWords ((pseudoBuildtable ts).map encode) State.reset = .next t ∧ Ready .idle t ∧ CodesCanonical t ∧
      PrefixFree t ∧ (∀ a ∈ ts, hasCode t a = true) ∧ t.bout = [] ∧ t.sout = [] := by
  have hreset : Ready .idle State.reset := ⟨rfl, rfl⟩
  obtain ⟨-, -, -, hclrall⟩ := clrallEmptiesTables
  obtain ⟨t₁, h₁, hfreq₁, -, -, -, -, -, hcbuf₁, -, -, -, -, -, hframe₁, -⟩ := hclrall State.reset hreset
  have hready₁ : Ready .idle t₁ := ⟨hframe₁ .fault (by simp), hframe₁ .phase (by simp)⟩
  obtain ⟨t₂, h₂, hready₂, hframe₂, hfreq₂⟩ := runWords_pseudoCount (s := t₁) (ts := ts) hready₁ fun a => by
    simpa [hfreq₁] using hcount a
  obtain ⟨t₃, h₃⟩ := exec_next .build t₂
  have hready₃ := ready_of_build hready₂ h₃
  obtain ⟨-, -, -, hbuild⟩ := buildCompletes
  obtain ⟨t₃', h₃', -, -, -, -, hframe₃⟩ := hbuild t₂ hready₂
  obtain rfl : t₃ = t₃' := by simpa [h₃] using h₃'
  have hbuilt : t₃ = buildTree (countWord t₂) := by simpa [exec_build hready₂] using h₃.symm
  obtain ⟨hprefix, hhas⟩ := builtTableIsPrefixFreeAndCovers t₂ t₃ hready₂ h₃
  have hbout : t₃.bout = State.reset.bout :=
    (hframe₃ .bout (by simp)).trans ((hframe₂ .bout (by simp)).trans (hframe₁ .bout (by simp)))
  have hsout : t₃.sout = State.reset.sout :=
    (hframe₃ .sout (by simp)).trans ((hframe₂ .sout (by simp)).trans (hframe₁ .sout (by simp)))
  have hcbuf₂ : t₂.cbuf = t₁.cbuf := hframe₂ .cbuf (by simp)
  refine ⟨t₃, ?_, hready₃, ?_, hprefix, fun a ha => (hhas a).mpr fun hzero => ?_, hbout, hsout⟩
  · rw [pseudoBuildtable, runWords_encode_cons rfl h₁, runWords_encode_append h₂,
      runWords_encode_singleton rfl h₃]
  · rw [hbuilt]
    refine codesCanonical_buildTree ?_
    rw [countWord_cbuf, hcbuf₂, hcbuf₁]
    exact codeCanonical_empty
  · have hpos := List.count_pos_iff.mpr ha
    have := hfreq₂ a
    simp [hzero, hfreq₁] at this
    omega

/-- Settles O60: the built table meets the premises of the round trip of a PrefixFree table. -/
theorem roundTripFromReset : Obligations.RoundTripFromReset := by
  intro ts hcount
  obtain ⟨r, hr, hready, hcan, hprefix, hcodes, hbout, hsout⟩ := runWords_pseudoBuildtable hcount
  obtain ⟨bs, t, u, v, ht, htc, htb, hu, huc, hus, hv, hvc, hvs⟩ :=
    roundTripPrefixFreeTable r ts hready hcan hprefix hcodes
  have htsout : t.sout = [] := by
    obtain rfl : afterEncode r ts = t := by simpa [runWords_pseudoEncode hready hcodes] using ht
    exact hsout
  rw [hbout, List.nil_append] at htb
  rw [htsout, List.nil_append] at hus hvs
  exact ⟨bs, t, u, v, (runWords_encode_append hr _).trans ht, htc, htb, hu, huc, hus, hv, hvc, hvs⟩

end Sys2Proof.Proofs

/-! SUPPORT. A built table is optimal (41_tree_builder.md R122 (b)): the lengths of a prefixfree code meet Kraft's
inequality, and each round of R114 can be undone in any lengths that meet it without making them cost less. -/

namespace Sys2Proof.Proofs

open Sys2Proof.Machine Sys2Proof.Safety

/-! ## Kraft's inequality -/

/-- The lengths `len` of the members of `I` meet Kraft's inequality. -/
def Kraft (I : Finset Nat) (len : Nat → Nat) : Prop := ∑ i ∈ I, (1 / 2 : ℝ) ^ len i ≤ 1

/-- A prefixfree set of non-empty sequences is uniquely decodable. -/
theorem uniquelyDecodable_of_prefixFree {S : Set Bits} (hne : ∀ u ∈ S, u ≠ [])
    (hfree : ∀ u ∈ S, ∀ v ∈ S, u <+: v → u = v) : InformationTheory.UniquelyDecodable S := by
  intro l₁
  induction l₁ with
  | nil =>
    intro l₂ _ h₂ heq
    cases l₂ with
    | nil => rfl
    | cons v l₂ => exact absurd (List.append_eq_nil_iff.mp heq.symm).1 (hne v (h₂ v (by simp)))
  | cons u l₁ ih =>
    intro l₂ h₁ h₂ heq
    cases l₂ with
    | nil => exact absurd (List.append_eq_nil_iff.mp heq).1 (hne u (h₁ u (by simp)))
    | cons v l₂ =>
      obtain ⟨hu, hl₁⟩ := List.forall_mem_cons.mp h₁
      obtain ⟨hv, hl₂⟩ := List.forall_mem_cons.mp h₂
      rw [List.flatten_cons, List.flatten_cons] at heq
      have huv : u = v := by
        rcases List.prefix_or_prefix_of_prefix ⟨_, rfl⟩ (heq ▸ ⟨_, rfl⟩ : v <+: u ++ l₁.flatten) with h | h
        · exact hfree u hu v hv h
        · exact (hfree v hv u hu h).symm
      subst huv
      rw [ih l₂ hl₁ hl₂ (List.append_cancel_left heq)]

/-- A prefixfree code of listed symbols meets Kraft's inequality. -/
theorem kraft_of_prefixFree {l : List Sym} (hnd : l.Nodup) {c : Sym → Bits} (hne : ∀ a ∈ l, c a ≠ [])
    (hfree : ∀ a ∈ l, ∀ b ∈ l, a ≠ b → ¬ c a <+: c b) :
    Kraft (Finset.range l.length) fun i => (c (l[i]?.getD 0#8)).length := by
  have hinj : ∀ a ∈ l, ∀ b ∈ l, c a = c b → a = b := fun a ha b hb e => by
    by_contra hab
    exact hfree a ha b hb hab (e ▸ List.prefix_rfl)
  have hud : InformationTheory.UniquelyDecodable (↑(l.toFinset.image c) : Set Bits) := by
    refine uniquelyDecodable_of_prefixFree (fun u hu => ?_) fun u hu v hv huv => ?_
    · obtain ⟨a, ha, rfl⟩ := Finset.mem_image.mp hu
      exact hne a (List.mem_toFinset.mp ha)
    · obtain ⟨a, ha, rfl⟩ := Finset.mem_image.mp hu
      obtain ⟨b, hb, rfl⟩ := Finset.mem_image.mp hv
      by_cases hab : a = b
      · rw [hab]
      · exact absurd huv (hfree a (List.mem_toFinset.mp ha) b (List.mem_toFinset.mp hb) hab)
  have hkraft := InformationTheory.kraft_mcmillan_inequality hud
  rw [Finset.sum_image fun a ha b hb => hinj a (List.mem_toFinset.mp ha) b (List.mem_toFinset.mp hb),
    List.sum_toFinset _ hnd] at hkraft
  rw [Kraft]
  refine le_trans (le_of_eq ?_) hkraft
  rw [← Fin.sum_univ_eq_sum_range (fun i => (1 / 2 : ℝ) ^ (c (l[i]?.getD 0#8)).length), ← Fin.sum_univ_fun_getElem]
  simp

/-! ## One round undone -/

/-- Exchanging two lengths so that the lighter member gets the longer keeps Kraft's sum and costs no more. -/
theorem exists_exchange {I : Finset Nat} (w len : Nat → Nat) {i m : Nat} (hi : i ∈ I) (hm : m ∈ I)
    (hw : w i ≤ w m) (hlen : len i ≤ len m) (hk : Kraft I len) :
    Kraft I (len ∘ Equiv.swap i m) ∧
      ∑ j ∈ I, w j * (len ∘ Equiv.swap i m) j ≤ ∑ j ∈ I, w j * len j := by
  constructor
  · rw [Kraft] at hk ⊢
    refine le_trans (le_of_eq ?_) hk
    refine Finset.sum_equiv (Equiv.swap i m) (fun j => ?_) fun j _ => rfl
    by_cases hji : j = i
    · simp [hji, hi, hm]
    by_cases hjm : j = m
    · simp [hjm, hi, hm]
    · rw [Equiv.swap_apply_of_ne_of_ne hji hjm]
  · by_cases him : i = m
    · simp [him]
    have hm' : m ∈ I.erase i := Finset.mem_erase.mpr ⟨Ne.symm him, hm⟩
    have hrest : ∑ j ∈ (I.erase i).erase m, w j * (len ∘ Equiv.swap i m) j =
        ∑ j ∈ (I.erase i).erase m, w j * len j := by
      refine Finset.sum_congr rfl fun j hj => ?_
      obtain ⟨hjm, hj⟩ := Finset.mem_erase.mp hj
      rw [Function.comp, Equiv.swap_apply_of_ne_of_ne (Finset.ne_of_mem_erase hj) hjm]
    rw [← Finset.add_sum_erase I _ hi, ← Finset.add_sum_erase I _ hi, ← Finset.add_sum_erase _ _ hm',
      ← Finset.add_sum_erase _ (fun j => w j * len j) hm', hrest]
    simp only [Function.comp, Equiv.swap_apply_left, Equiv.swap_apply_right]
    have := mul_add_mul_le_mul_add_mul hw hlen
    omega

/-- Some member is the longest. -/
theorem exists_longest {I : Finset Nat} (hI : I.Nonempty) (len : Nat → Nat) :
    ∃ m ∈ I, ∀ j ∈ I, len j ≤ len m := I.exists_max_image len hI

/-- The two lightest members can be made the longest, at no more cost. -/
theorem exists_lightest_longest {I : Finset Nat} (w len : Nat → Nat) {a b : Nat} (ha : a ∈ I) (hb : b ∈ I)
    (hab : a ≠ b) (hwa : ∀ j ∈ I, w a ≤ w j) (hwb : ∀ j ∈ I, j ≠ a → w b ≤ w j) (hk : Kraft I len) :
    ∃ len', Kraft I len' ∧ ∑ j ∈ I, w j * len' j ≤ ∑ j ∈ I, w j * len j ∧
      len' b ≤ len' a ∧ ∀ j ∈ (I.erase a).erase b, len' j ≤ len' b := by
  obtain ⟨m, hm, hlong⟩ := exists_longest ⟨a, ha⟩ len
  obtain ⟨hk₁, hcost₁⟩ := exists_exchange w len ha hm (hwa m hm) (hlong a ha) hk
  have hlong₁ : ∀ j ∈ I, (len ∘ Equiv.swap a m) j ≤ (len ∘ Equiv.swap a m) a := by
    intro j hj
    simp only [Function.comp, Equiv.swap_apply_left]
    by_cases hja : j = a
    · simp [hja]
    by_cases hjm : j = m
    · simpa [hjm] using hlong a ha
    · rw [Equiv.swap_apply_of_ne_of_ne hja hjm]
      exact hlong j hj
  generalize len ∘ Equiv.swap a m = len₁ at hk₁ hcost₁ hlong₁
  have hb' : b ∈ I.erase a := Finset.mem_erase.mpr ⟨hab.symm, hb⟩
  obtain ⟨n, hn, hlong₂⟩ := exists_longest ⟨b, hb'⟩ len₁
  obtain ⟨hna, hnI⟩ := Finset.mem_erase.mp hn
  obtain ⟨hk₂, hcost₂⟩ := exists_exchange w len₁ hb hnI (hwb n hnI hna) (hlong₂ b hb') hk₁
  refine ⟨_, hk₂, hcost₂.trans hcost₁, ?_, fun j hj => ?_⟩
  · simp only [Function.comp, Equiv.swap_apply_left, Equiv.swap_apply_of_ne_of_ne hab hna.symm]
    exact hlong₁ n hnI
  · obtain ⟨hjb, hj⟩ := Finset.mem_erase.mp hj
    simp only [Function.comp, Equiv.swap_apply_left]
    by_cases hjn : j = n
    · simpa [hjn] using hlong₂ b hb'
    · rw [Equiv.swap_apply_of_ne_of_ne hjb hjn]
      exact hlong₂ j hj

/-- A Kraft sum over lengths up to `L`, counted in units of `2^-L`. -/
theorem sum_pow_eq_count {R : Finset Nat} {len : Nat → Nat} {L : Nat} (h : ∀ j ∈ R, len j ≤ L) :
    ∑ j ∈ R, (1 / 2 : ℝ) ^ len j = (1 / 2) ^ L * ((∑ j ∈ R, 2 ^ (L - len j) : Nat) : ℝ) := by
  rw [Nat.cast_sum, Finset.mul_sum]
  refine Finset.sum_congr rfl fun j hj => ?_
  have hpow : (1 / 2 : ℝ) ^ L = (1 / 2) ^ len j * (1 / 2) ^ (L - len j) := by
    rw [← pow_add, Nat.add_sub_cancel' (h j hj)]
  rw [hpow, Nat.cast_pow, mul_assoc, ← mul_pow]
  norm_num

/-- Where two lengths are at least all others, one of half the shorter's place meets Kraft's inequality in their
stead. -/
theorem kraft_join {R : Finset Nat} {len : Nat → Nat} {L M : Nat} (hLM : L ≤ M) (hlen : ∀ j ∈ R, len j ≤ L)
    (hk : (1 / 2 : ℝ) ^ M + ((1 / 2) ^ L + ∑ j ∈ R, (1 / 2) ^ len j) ≤ 1) :
    1 ≤ L ∧ (1 / 2 : ℝ) ^ (L - 1) + ∑ j ∈ R, (1 / 2) ^ len j ≤ 1 := by
  rw [sum_pow_eq_count hlen] at hk ⊢
  generalize (∑ j ∈ R, 2 ^ (L - len j) : Nat) = K at hk ⊢
  have hM : (0 : ℝ) < (1 / 2) ^ M := by positivity
  have hL : (0 : ℝ) < (1 / 2) ^ L := by positivity
  have hunit : (1 / 2 : ℝ) ^ L * (2 ^ L : Nat) = 1 := by
    rw [Nat.cast_pow, ← mul_pow]
    norm_num
  have hcount : 1 + K < 2 ^ L := by
    have hlt : (1 / 2 : ℝ) ^ L * ((1 + K : Nat) : ℝ) < (1 / 2) ^ L * (2 ^ L : Nat) := by
      rw [hunit]
      push_cast
      linarith
    exact_mod_cast lt_of_mul_lt_mul_left hlt hL.le
  have hone : 1 ≤ L := by
    by_contra hzero
    obtain rfl : L = 0 := by omega
    simp at hcount
  refine ⟨hone, ?_⟩
  have hhalf : (1 / 2 : ℝ) ^ (L - 1) = (1 / 2) ^ L * 2 := by
    obtain ⟨k, rfl⟩ := Nat.exists_eq_add_of_le hone
    rw [Nat.add_sub_cancel_left, pow_add]
    ring
  calc (1 / 2 : ℝ) ^ (L - 1) + (1 / 2) ^ L * K
      = (1 / 2) ^ L * ((2 + K : Nat) : ℝ) := by
        rw [hhalf]
        push_cast
        ring
    _ ≤ (1 / 2) ^ L * (2 ^ L : Nat) := by
        refine mul_le_mul_of_nonneg_left ?_ hL.le
        exact_mod_cast (show 2 + K ≤ 2 ^ L by omega)
    _ = 1 := hunit

/-- From lengths for `I` come lengths for `I` with its two lightest members joined, at a cost that is lower by at least
the weight of the two. -/
theorem exists_joined {I : Finset Nat} (w len : Nat → Nat) {a b c : Nat} (ha : a ∈ I) (hb : b ∈ I) (hab : a ≠ b)
    (hc : c ∉ (I.erase a).erase b) (hwa : ∀ j ∈ I, w a ≤ w j) (hwb : ∀ j ∈ I, j ≠ a → w b ≤ w j)
    (hk : Kraft I len) :
    ∃ len', Kraft (insert c ((I.erase a).erase b)) len' ∧
      (w a + w b) * len' c + ∑ j ∈ (I.erase a).erase b, w j * len' j + (w a + w b) ≤ ∑ j ∈ I, w j * len j := by
  obtain ⟨len₁, hk₁, hcost, hle, hlong⟩ := exists_lightest_longest w len ha hb hab hwa hwb hk
  have hb' : b ∈ I.erase a := Finset.mem_erase.mpr ⟨hab.symm, hb⟩
  rw [Kraft, ← Finset.add_sum_erase _ _ ha, ← Finset.add_sum_erase _ _ hb'] at hk₁
  obtain ⟨hone, hk₂⟩ := kraft_join hle hlong hk₁
  have hkept : ∀ j ∈ (I.erase a).erase b, Function.update len₁ c (len₁ b - 1) j = len₁ j := fun j hj =>
    Function.update_of_ne (ne_of_mem_of_not_mem hj hc) _ _
  refine ⟨Function.update len₁ c (len₁ b - 1), ?_, ?_⟩
  · rw [Kraft, Finset.sum_insert hc, Function.update_self]
    refine le_trans (le_of_eq ?_) hk₂
    exact congrArg _ (Finset.sum_congr rfl fun j hj => by rw [hkept j hj])
  · rw [← Finset.add_sum_erase _ _ ha, ← Finset.add_sum_erase _ _ hb'] at hcost
    rw [Function.update_self, Finset.sum_congr rfl fun j hj => by rw [hkept j hj]]
    refine le_trans ?_ hcost
    obtain ⟨k, hk⟩ := Nat.exists_eq_add_of_le' hone
    have := Nat.mul_le_mul_left (w a) hle
    rw [hk, Nat.add_sub_cancel, Nat.mul_add, Nat.mul_one] at *
    nlinarith

/-! ## The rounds of BUILD -/

/-- Some lengths for the queue's trees meet Kraft's inequality and, with the cost of the trees, cost at most `C`. -/
def CostsAtMost (f : Sym → Nat) (C : Nat) (s : State) : Prop :=
  ∃ len, Kraft (members s.node) len ∧
    ∑ i ∈ members s.node, ((treeAt s i).cost f + (treeAt s i).weight f * len i) ≤ C

/-- R112: the nodes that a round joins are the lightest of the queue. -/
theorem Joins.lightest {u s t : State} {l : List Sym} {a b : Nat} (h : Joins s t a b) (hs : Forest s)
    (hl : LeafPart u l s) :
    (∀ j ∈ members s.node, (treeAt s a).weight (countOf u) ≤ (treeAt s j).weight (countOf u)) ∧
    ∀ j ∈ members s.node, j ≠ a → (treeAt s b).weight (countOf u) ≤ (treeAt s j).weight (countOf u) := by
  have le_of_before {i j : Nat} (hi : i ∈ members s.node) (hj : j ∈ members s.node) (hb : Before s i j) :
      (treeAt s i).weight (countOf u) ≤ (treeAt s j).weight (countOf u) := by
    rw [← hs.freq_eq_weight hl (hs.used_of_mem i hi), ← hs.freq_eq_weight hl (hs.used_of_mem j hj)]
    exact hb.elim Nat.le_of_lt fun e => Nat.le_of_eq e.1
  refine ⟨fun j hj => ?_, fun j hj hja => ?_⟩
  · by_cases hja : j = a
    · rw [hja]
    · exact le_of_before h.left_mem hj (h.left_first j hj hja)
  · by_cases hjb : j = b
    · rw [hjb]
    · exact le_of_before h.right_mem hj (h.right_second j hj hja hjb)

/-- A round keeps the bound on the cost. -/
theorem Joins.costsAtMost {u s t : State} {l : List Sym} {a b C : Nat} (h : Joins s t a b) (hs : Forest s)
    (hl : LeafPart u l s)
    (hcost : CostsAtMost (countOf u) C s) : CostsAtMost (countOf u) C t := by
  obtain ⟨len, hk, hC⟩ := hcost
  have hnew := nnode_notMem (a := a) (b := b) hs.used_of_mem
  obtain ⟨hwa, hwb⟩ := h.lightest hs hl
  obtain ⟨len', hk', hlen'⟩ := exists_joined (fun i => (treeAt s i).weight (countOf u)) len h.left_mem h.right_mem
    h.ne hnew hwa hwb hk
  refine ⟨len', h.members_eq hs.used_of_mem ▸ hk', le_trans ?_ hC⟩
  obtain ⟨hbefore, hafter⟩ := h.sum_members hs (CodeTree.cost (countOf u))
  have hweights : ∑ i ∈ members t.node, (treeAt t i).weight (countOf u) * len' i =
      ((treeAt s a).weight (countOf u) + (treeAt s b).weight (countOf u)) * len' s.nnode.toNat +
        ∑ i ∈ ((members s.node).erase a).erase b, (treeAt s i).weight (countOf u) * len' i := by
    rw [h.members_eq hs.used_of_mem, Finset.sum_insert hnew, h.treeAt_new hs, CodeTree.weight_node]
    refine congrArg _ (Finset.sum_congr rfl fun i hi => ?_)
    rw [h.treeAt_eq hs (hs.used_of_mem i (Finset.mem_of_mem_erase (Finset.mem_of_mem_erase hi)))]
  rw [Finset.sum_add_distrib, Finset.sum_add_distrib, hbefore, hafter, hweights, CodeTree.cost]
  omega

/-- The leaves cost what the lengths of the code cost. -/
theorem costsAtMost_stageLeaves {s : State} {c : Sym → Bits}
    (hk : Kraft (Finset.range (present s).length) fun i => (c ((present s)[i]?.getD 0#8)).length) :
    CostsAtMost (countOf s) (((present s).map fun a => countOf s a * (c a).length).sum)
      (stageLeaves (stageClear s)) := by
  have hl := leavesAre_stageLeaves s
  rw [CostsAtMost, hl.members_eq]
  refine ⟨_, hk, le_of_eq ?_⟩
  rw [← Fin.sum_univ_eq_sum_range, ← Fin.sum_univ_fun_getElem]
  refine Finset.sum_congr rfl fun i _ => ?_
  have hi : i.val < (present s).length := i.isLt
  rw [treeAt_of_leaf (by rw [hl.node_of_lt hi]; rfl), hl.node_of_lt hi]
  simp [CodeTree.cost, leafNode]

/-- R122 (b): the built tree costs no more than any prefixfree code of the symbols present. -/
theorem cost_rootTree_le {s : State} (hpos : 0 < (present s).length) {c : Sym → Bits}
    (hne : ∀ a ∈ present s, c a ≠ []) (hfree : ∀ a ∈ present s, ∀ b ∈ present s, a ≠ b → ¬ c a <+: c b) :
    (rootTree (buildTree s)).cost (countOf s) ≤ ((present s).map fun a => countOf s a * (c a).length).sum := by
  obtain ⟨-, len, -, hC⟩ := grown_induct (P := fun t => LeafPart s (present s) t ∧ CostsAtMost (countOf s) _ t) hpos
    ⟨leafPart_stageLeaves s, costsAtMost_stageLeaves (kraft_of_prefixFree (present_nodup s) hne hfree)⟩
    fun _ _ _ _ hf hj hu => ⟨hj.leafPart hf hu.1, hj.costsAtMost hf hu.1 hu.2⟩
  rw [members_grown hpos, Finset.sum_singleton, ← rootTree_buildTree] at hC
  exact (Nat.le_add_right _ _).trans hC

/-- The paths of the tree's symbols, weighted by their counts, are the cost of the tree. -/
theorem PathCodes.sum_length_codeOf {s t : State} (h : PathCodes s t) :
    ((present s).map fun a => countOf s a * (codeOf t a).length).sum = (rootTree t).cost (countOf s) := by
  rw [← (h.built.syms_perm.map _).sum_eq,
    CodeTree.sum_length_eq_cost (countOf s) (fun a => (codeOf t a).length) 0, Nat.zero_mul, Nat.add_zero]
  intro p a hp
  rw [(h.at_iff.mp hp).2, Nat.zero_add]

/-- R117, R122 (b): no code of the symbols present is shorter in total than the built one. -/
theorem sum_length_codeOf_buildTree_le {s : State} {c : Sym → Bits} (hne : ∀ a ∈ present s, c a ≠ [])
    (hfree : ∀ a ∈ present s, ∀ b ∈ present s, a ≠ b → ¬ c a <+: c b) :
    ((present s).map fun a => countOf s a * (codeOf (buildTree s) a).length).sum ≤
      ((present s).map fun a => countOf s a * (c a).length).sum := by
  rcases present_cases s with h | ⟨a, h⟩ | h
  · simp [h]
  · obtain ⟨-, -, -, -, hcode, -⟩ := buildTree_of_single h
    have hlen : (codeOf (buildTree s) a).length = 1 := by rw [codeOf, hcode, codeBits_single, List.length_singleton]
    have hpos : 0 < (c a).length := List.length_pos_iff.mpr (hne a (by simp [h]))
    simp only [h, List.map_cons, List.map_nil, List.sum_cons, List.sum_nil, Nat.add_zero, hlen]
    exact Nat.mul_le_mul_left _ hpos
  · rw [(pathCodes_buildTree h).sum_length_codeOf]
    exact cost_rootTree_le (by omega) hne hfree

/-- Settles O39: the symbols that are absent count for nothing in either sum. -/
theorem builtTableIsOptimal : Obligations.BuiltTableIsOptimal := by
  intro s t hs h c hne hfree
  obtain ⟨r, rfl, hfreq⟩ := exists_buildTree hs h
  rw [← hfreq] at hne hfree ⊢
  have habsent (f : Sym → Nat) (a : Sym) (ha : freqAt r a = 0#32) : (freqAt r a).toNat * f a = 0 := by
    rw [ha]
    exact Nat.zero_mul _
  rw [← sum_present r _ (habsent fun a => (codeOf (buildTree r) a).length),
    ← sum_present r _ (habsent fun a => (c a).length)]
  exact sum_length_codeOf_buildTree_le (fun a ha => hne a (mem_present.mp ha))
    fun a ha b hb hab => hfree a b hab (mem_present.mp ha) (mem_present.mp hb)

end Sys2Proof.Proofs
